-- ==== Sys2Proof/Config.lean ====
section
/-! DEFINITION. The implementation parameters of 00_scope.md R4, as one record that State holds and no step writes
(log 1). The spec leaves no result undefined, so there is no free value here. -/

namespace Sys2Proof

/-- `SIGNED_DIV` (R4, R8): rounding of the signed divisions. -/
inductive SignedDiv where
  | trunc | floor
deriving DecidableEq, Repr

/-- `LOOP_WRAP` (R4, 43_synthesizer.md R149). -/
inductive LoopWrap where
  | reset | subtract
deriving DecidableEq, Repr

/-- `VOLSLIDE_MODE` (R4, 30_encoding.md R57). -/
inductive VolSlideMode where
  | int8 | nibble
deriving DecidableEq, Repr

/-- `PORTA_DIR` (R4, 42_effects.md R127, R128). -/
inductive PortaDir where
  | upDecreases | upIncreases
deriving DecidableEq, Repr

/-- `SPEED_MAX` (R4, 42_effects.md R126): 30 or 31. -/
inductive SpeedMax where
  | max30 | max31
deriving DecidableEq, Repr

/-- `BREAK_ROW_MODE` (R4, 41_sequencer.md R97). -/
inductive BreakRowMode where
  | target | targetPlusOne
deriving DecidableEq, Repr

/-- `POST_FINISH` (R4, 44_mixer.md R168); `playOn` is the spec's CONTINUE. -/
inductive PostFinish where
  | playOn | silence
deriving DecidableEq, Repr

/-- `OUTPUT_BYTE_ORDER` (R4, 20_memory.md R32): open, so only an argument of `Machine.serialise`, never a field (log 14). -/
inductive ByteOrder where
  | little | big
deriving DecidableEq, Repr

/-- The parameters a model takes as arguments (R4). -/
structure Params where
  outputRate   : Nat
  signedDiv    : SignedDiv
  loopWrap     : LoopWrap
  volSlideMode : VolSlideMode
  portaDir     : PortaDir
  speedMax     : SpeedMax
  breakRowMode : BreakRowMode
  postFinish   : PostFinish
deriving DecidableEq, Repr

/-- The defaults of R4. -/
def Params.default : Params where
  outputRate   := 44100
  signedDiv    := .trunc
  loopWrap     := .reset
  volSlideMode := .int8
  portaDir     := .upDecreases
  speedMax     := .max31
  breakRowMode := .target
  postFinish   := .playOn

end Sys2Proof
end

