-- ==== Sys2Proof/Word.lean ====
section
/-! DEFINITION. The word types of the block: a byte of the module buffer, a row word and an output sample. -/

namespace Sys2Proof

/-- A byte of the module buffer (20_memory.md R30). -/
abbrev Byte := BitVec 8

/-- A row word, 32 bits (30_encoding.md R53). -/
abbrev Word := BitVec 32

/-- An output sample, signed 16 bits (44_mixer.md R164). -/
abbrev Sample := BitVec 16

end Sys2Proof
end

