-- ==== Sys2Proof/Machine/Memory.lean ====
section
/-! DEFINITION. The module buffer (20_memory.md R30): its length and its bytes in one canonical form (log 10). -/

namespace Sys2Proof.Machine

/-- A caller's buffer: `len` bytes at addresses `0 .. len-1`. `cells` lists the nonzero bytes, addresses rising; an
address below `len` that is not listed holds 0, and an address from `len` on does not exist (00_scope.md R7). -/
structure Memory where
  len   : Nat
  cells : List Host.Cell
deriving DecidableEq, Repr

namespace Memory

/-- What an unlisted address inside the buffer reads as (log 10). -/
def unlisted : Byte := 0#8

/-- The byte listed at an address. -/
def find : List Host.Cell → Nat → Byte
  | [], _ => unlisted
  | (a, b) :: rest, k => if a = k then b else find rest k

/-- The byte at an address, none outside the buffer (00_scope.md R7). -/
def read (m : Memory) (a : Nat) : Option Byte :=
  if a < m.len then some (find m.cells a) else none

/-- Put a byte into a canonical list of cells; the byte an unlisted address reads as removes the entry. -/
def insert : List Host.Cell → Nat → Byte → List Host.Cell
  | [], k, v => if v = unlisted then [] else [(k, v)]
  | (a, b) :: rest, k, v =>
    if a < k then (a, b) :: insert rest k v
    else if a = k then (if v = unlisted then rest else (k, v) :: rest)
    else if v = unlisted then (a, b) :: rest else (k, v) :: (a, b) :: rest

/-- Place a byte, lengthening the buffer where it is too short. The block never writes the buffer (00_scope.md R7):
only the loading of a buffer from outside uses this. -/
def place (m : Memory) (a : Nat) (v : Byte) : Memory where
  len   := max m.len (a + 1)
  cells := insert m.cells a v

/-- Place bytes one after another. -/
def placeBytes (m : Memory) (a : Nat) : List Byte → Memory
  | [] => m
  | b :: rest => placeBytes (m.place a b) (a + 1) rest

/-- The nonzero bytes of a byte string that starts at an address. -/
def cellsFrom (a : Nat) : List Byte → List Host.Cell
  | [] => []
  | b :: rest => if b = unlisted then cellsFrom (a + 1) rest else (a, b) :: cellsFrom (a + 1) rest

/-- The buffer the host hands to `initialize`, given as its bytes (45_host_interface.md R180). -/
def ofBytes (bytes : List Byte) : Memory where
  len   := bytes.length
  cells := cellsFrom 0 bytes

/-- Addresses rise strictly from `lo`, no listed byte is 0, and no address reaches `len`. -/
def cellsWf (lo len : Nat) : List Host.Cell → Bool
  | [] => true
  | (a, b) :: rest => decide (lo ≤ a) && decide (a < len) && decide (b ≠ unlisted) && cellsWf (a + 1) len rest

/-- The canonical form, so that equal buffers are equal data. -/
def wf (m : Memory) : Bool := cellsWf 0 m.len m.cells

end Memory

end Sys2Proof.Machine
end

