-- ==== Sys2Proof/Syntax.lean ====
section
/-! DEFINITION. The instruction: a row word, one constructor per command of 30_encoding.md R56. -/

namespace Sys2Proof

/-- A row word (30_encoding.md R53 to R56). Every command carries the note part, period and instrument (R55), and
the value byte. Bits 31..29 of the word are ignored (R53) and not held (log 12). -/
inductive Instr where
  | arpeggio          (period : BitVec 12) (inst : BitVec 5) (val : BitVec 8)
  | portaUp           (period : BitVec 12) (inst : BitVec 5) (val : BitVec 8)
  | portaDown         (period : BitVec 12) (inst : BitVec 5) (val : BitVec 8)
  | tonePorta         (period : BitVec 12) (inst : BitVec 5) (val : BitVec 8)
  | vibrato           (period : BitVec 12) (inst : BitVec 5) (val : BitVec 8)
  | tonePortaVolslide (period : BitVec 12) (inst : BitVec 5) (val : BitVec 8)
  | vibratoVolslide   (period : BitVec 12) (inst : BitVec 5) (val : BitVec 8)
  | tremolo           (period : BitVec 12) (inst : BitVec 5) (val : BitVec 8)
  | unassigned8       (period : BitVec 12) (inst : BitVec 5) (val : BitVec 8)
  | sampleOffset      (period : BitVec 12) (inst : BitVec 5) (val : BitVec 8)
  | volumeSlide       (period : BitVec 12) (inst : BitVec 5) (val : BitVec 8)
  | positionJump      (period : BitVec 12) (inst : BitVec 5) (val : BitVec 8)
  | setVolume         (period : BitVec 12) (inst : BitVec 5) (val : BitVec 8)
  | patternBreak      (period : BitVec 12) (inst : BitVec 5) (val : BitVec 8)
  | extended          (period : BitVec 12) (inst : BitVec 5) (val : BitVec 8)
  | setSpeedTempo     (period : BitVec 12) (inst : BitVec 5) (val : BitVec 8)
deriving DecidableEq, Repr

namespace Instr

/-- The note period of a row word. -/
def period : Instr → BitVec 12
  | .arpeggio p _ _ | .portaUp p _ _ | .portaDown p _ _ | .tonePorta p _ _
  | .vibrato p _ _ | .tonePortaVolslide p _ _ | .vibratoVolslide p _ _ | .tremolo p _ _
  | .unassigned8 p _ _ | .sampleOffset p _ _ | .volumeSlide p _ _ | .positionJump p _ _
  | .setVolume p _ _ | .patternBreak p _ _ | .extended p _ _ | .setSpeedTempo p _ _ => p

/-- The instrument number of a row word. -/
def inst : Instr → BitVec 5
  | .arpeggio _ k _ | .portaUp _ k _ | .portaDown _ k _ | .tonePorta _ k _
  | .vibrato _ k _ | .tonePortaVolslide _ k _ | .vibratoVolslide _ k _ | .tremolo _ k _
  | .unassigned8 _ k _ | .sampleOffset _ k _ | .volumeSlide _ k _ | .positionJump _ k _
  | .setVolume _ k _ | .patternBreak _ k _ | .extended _ k _ | .setSpeedTempo _ k _ => k

/-- The value byte of a row word. -/
def val : Instr → BitVec 8
  | .arpeggio _ _ v | .portaUp _ _ v | .portaDown _ _ v | .tonePorta _ _ v
  | .vibrato _ _ v | .tonePortaVolslide _ _ v | .vibratoVolslide _ _ v | .tremolo _ _ v
  | .unassigned8 _ _ v | .sampleOffset _ _ v | .volumeSlide _ _ v | .positionJump _ _ v
  | .setVolume _ _ v | .patternBreak _ _ v | .extended _ _ v | .setSpeedTempo _ _ v => v

/-- The command number of a row word (R56; the numbers are the spec's general knowledge, log 17). -/
def command : Instr → BitVec 4
  | .arpeggio _ _ _          => 0x0#4
  | .portaUp _ _ _           => 0x1#4
  | .portaDown _ _ _         => 0x2#4
  | .tonePorta _ _ _         => 0x3#4
  | .vibrato _ _ _           => 0x4#4
  | .tonePortaVolslide _ _ _ => 0x5#4
  | .vibratoVolslide _ _ _   => 0x6#4
  | .tremolo _ _ _           => 0x7#4
  | .unassigned8 _ _ _       => 0x8#4
  | .sampleOffset _ _ _      => 0x9#4
  | .volumeSlide _ _ _       => 0xA#4
  | .positionJump _ _ _      => 0xB#4
  | .setVolume _ _ _         => 0xC#4
  | .patternBreak _ _ _      => 0xD#4
  | .extended _ _ _          => 0xE#4
  | .setSpeedTempo _ _ _     => 0xF#4

end Instr

end Sys2Proof
end

