-- ==== Sys2Proof/Machine/State.lean ====
section
/-! DEFINITION. All state of the block as plain data (10_state.md), the reasons a step can stop, and the state at
power-up. -/

namespace Sys2Proof.Machine

/-- An instrument `M.inst[k]` (10_state.md R22). -/
structure Instrument where
  start     : Nat
  length    : Nat
  volume    : BitVec 7
  hasLoop   : Bool
  loopStart : Nat
  loopEnd   : Nat
deriving DecidableEq, Repr

/-- The pseudo-instrument `M.inst[0]`, "none": length 0 and no loop (R22). The spec does not state its start, volume,
loop start and loop end; that all four are 0 is the model's choice (log 19, DESIGN CHOICE). A note-on with instrument 0
copies the two loop bounds into its channel (41_sequencer.md R96). -/
def Instrument.none : Instrument := ⟨0, 0, 0, false, 0, 0⟩

/-- The decoded module view `M` (10_state.md R21). `M.BUF_LEN` has its one home in the buffer's `len`; `insts` holds
`M.inst[1 .. ninst]` in order. -/
structure View where
  ninst       : Nat
  title       : List Byte
  seqLen      : Nat
  seq         : List Byte
  patternBase : Nat
  sampleStart : Nat
  insts       : List Instrument
deriving DecidableEq, Repr

/-- The continuous effect of a channel (10_state.md R20). -/
inductive Effect where
  | none | portaUp | portaDown
deriving DecidableEq, Repr

/-- The loop state of a channel (10_state.md R19). -/
inductive LoopState where
  | notLooping | looping | loopTail
deriving DecidableEq, Repr

/-- A channel record (10_state.md R17). -/
structure Channel where
  active      : Bool
  inst        : BitVec 5
  volume      : BitVec 7
  period      : BitVec 12
  eff         : Effect
  effParam    : BitVec 8
  pos         : BitVec 32
  inc         : BitVec 32
  lengthFx    : BitVec 32
  loopState   : LoopState
  loopStartFx : BitVec 32
  loopEndFx   : BitVec 32
deriving DecidableEq, Repr

/-- A channel after reset (10_state.md R25). -/
def Channel.reset : Channel where
  active      := false
  inst        := 0
  volume      := 0
  period      := 0
  eff         := .none
  effParam    := 0
  pos         := 0
  inc         := 0
  lengthFx    := 0
  loopState   := .notLooping
  loopStartFx := 0
  loopEndFx   := 0

/-- The four channel records `ch[0..3]` (10_state.md R10). -/
structure Channels where
  c0 : Channel
  c1 : Channel
  c2 : Channel
  c3 : Channel
deriving DecidableEq, Repr

/-- All four channels after reset (10_state.md R25). -/
def Channels.reset : Channels := ⟨Channel.reset, Channel.reset, Channel.reset, Channel.reset⟩

/-- A player: the module buffer it borrows, its view `M`, the player state `st` (10_state.md R12 to R16) and the
channels. `seqPos` and `rowPos` are ints during a row event (R13, log 7). -/
structure Player where
  buf              : Memory
  view             : View
  speed            : BitVec 8
  tempo            : BitVec 8
  spt              : BitVec 32
  seqPos           : Nat
  rowPos           : Nat
  tickCounter      : BitVec 8
  samplesUntilTick : BitVec 32
  finished         : Bool
  ch               : Channels
deriving DecidableEq, Repr

/-- The operand `mix_mode` of `render` (45_host_interface.md R184). -/
inductive MixMode where
  | mono | stereoSoft | stereoHard
deriving DecidableEq, Repr

/-- The operand `option` of `set_option`; `other` is any option the block does not know (45_host_interface.md R181). -/
inductive HostOption where
  | loop | supportTempo | other (n : Nat)
deriving DecidableEq, Repr

/-- What the host can do to the block. The first five are the operations of 45_host_interface.md R180 to R184; the
operand `player` is the player's number (log 5); `room` is how many samples the output buffer of `render` holds
(R189). `discard` is the liberty of R188; `disturbBuffer` is a host that changes or frees the buffer of a live
player, against its duty (R189, 70_reset_and_hazards.md R231). -/
inductive HostOp where
  | initializePlayer (buffer : List Byte)
  | setOption (option : HostOption) (value : Int)
  | getSequenceLength (player : Nat)
  | setSequencePosition (player : Nat) (position : Nat)
  | render (player : Nat) (frames : Nat) (mode : MixMode) (room : Nat)
  | discard (player : Nat)
  | disturbBuffer (player : Nat)
deriving DecidableEq, Repr

/-- The reason tag of `MalformedModule` (60_exceptions.md R201). -/
inductive Malformed where
  | shortHeader | patternsBeyondBuffer
deriving DecidableEq, Repr

/-- What an operation returned to the host (45_host_interface.md R187): the player or the error of `initialize`, the
sequence length, or `render`'s return value with the samples it wrote. -/
inductive HostResult where
  | player (player : Nat)
  | malformed (tag : Malformed)
  | sequenceLength (n : Nat)
  | rendered (more : Bool) (samples : List Sample)
deriving DecidableEq, Repr

/-- The kind of a diagnostic event (60_exceptions.md R202). -/
inductive DiagKind where
  | unsupportedEffect | breakRowOutOfRange | tempoIgnored | speedIgnored
deriving DecidableEq, Repr

/-- A diagnostic event (60_exceptions.md R202). -/
structure Diag where
  kind    : DiagKind
  channel : Fin 4
  command : BitVec 4
  value   : BitVec 8
deriving DecidableEq, Repr

/-- A `render` in progress: the frame steps left and the mode (45_host_interface.md R184). -/
structure RenderJob where
  left : Nat
  mode : MixMode
deriving DecidableEq, Repr

/-- Where the block stands (log 3): between host operations; in a `render`, before a frame step; in a `render`, in a
row event with the row word of channel `State.chan` next. -/
inductive Phase where
  | idle
  | frame (job : RenderJob)
  | row (job : RenderJob)
deriving DecidableEq, Repr

/-- The state of the block (10_state.md R10), of the host operation in progress, and of the streams. INVENTORY.md
lists each field with its rule. `player` holds the registers of the player `handle` names; with `handle = none`
there is no player and they mean nothing (log 2, log 5). -/
structure State where
  params          : Params
  cfgLoop         : Bool
  cfgSupportTempo : Bool
  player          : Player
  handle          : Option Nat
  parked          : List (Nat × Player)
  nextHandle      : Nat
  phase           : Phase
  chan            : Fin 4
  rowBase         : Nat
  flowTaken       : Bool
  flowMarker      : Bool
  queue           : List HostOp
  out             : List Sample
  results         : List HostResult
  diags           : List Diag
deriving DecidableEq, Repr

/-- Why the machine stops with a fault. None is reachable from a state that satisfies `Inv` (Safety.lean). -/
inductive Fault where
  /-- A `MemRead` outside the module buffer (00_scope.md R7). Raised by `memRead`; safe. -/
  | memReadOutside (addr : Nat)
  /-- A sample read outside the instrument of its channel (20_memory.md R40). Raised by `readSample`; safe. -/
  | sampleOutside (index : Nat)
  /-- A sequence slot past the table (10_state.md R21: 128 slots). Raised by `rowAddress`; safe. -/
  | sequenceSlot (index : Nat)
deriving DecidableEq, Repr

/-- Why the machine gives a run no meaning. -/
inductive Refusal where
  /-- An instruction with no meaning yet; raised by no arm of `exec`; safe. -/
  | notModelled (mnemonic : String)
  /-- An operation on a player that does not exist (45_host_interface.md R190). Raised by `hostStep`; safe. -/
  | noPlayer
  /-- A `render` whose output buffer has no room (45_host_interface.md R189). Raised by `hostStep`; safe. -/
  | outputRoom
  /-- The host changed or freed a live player's buffer (45_host_interface.md R189, 70_reset_and_hazards.md R231).
  Raised by `hostStep`; safe. -/
  | bufferDisturbed
deriving DecidableEq, Repr

/-- The view the registers hold before any `initialize`: that of the smallest module, all zeros (log 2). -/
def View.powerUp : View where
  ninst       := 15
  title       := List.replicate 20 0
  seqLen      := 1
  seq         := List.replicate 128 0
  patternBase := 0x258
  sampleStart := 0x658
  insts       := List.replicate 15 ⟨0x658, 0, 0, false, 0, 0⟩

/-- The player registers before any `initialize`: the values of 10_state.md R25, with an empty buffer (log 2). -/
def Player.powerUp : Player where
  buf              := ⟨0, []⟩
  view             := View.powerUp
  speed            := 6
  tempo            := 125
  spt              := 882
  seqPos           := 0
  rowPos           := 0
  tickCounter      := 1
  samplesUntilTick := 1
  finished         := false
  ch               := Channels.reset

/-- Power-up: the options on (70_reset_and_hazards.md R221), default parameters, no player (10_state.md R25), nothing
asked and nothing emitted. -/
def State.reset : State where
  params          := Params.default
  cfgLoop         := true
  cfgSupportTempo := true
  player          := Player.powerUp
  handle          := none
  parked          := []
  nextHandle      := 0
  phase           := .idle
  chan            := 0
  rowBase         := 0
  flowTaken       := false
  flowMarker      := false
  queue           := []
  out             := []
  results         := []
  diags           := []

end Sys2Proof.Machine
end

