-- ==== Sys2Proof/Machine/Ops.lean ====
section
/-! DEFINITION. The shared operations: exact arithmetic, reads of the module buffer, the view's tables, the channel
records, and the named updates of State. The block has no trap entry and no trap return (60_exceptions.md R200): what it
has in their place is the diagnostic event (`State.emitDiag`) and the song end event (Sequencer.lean). -/

namespace Sys2Proof.Machine

/-! ### Arithmetic (00_scope.md R6, R8) -/

/-- `a div_s b` for `b > 0`: toward 0 under TRUNC, toward minus infinity under FLOOR (00_scope.md R8). -/
def divS (P : Params) (a b : Int) : Int :=
  match P.signedDiv with
  | .trunc => a.tdiv b
  | .floor => a.fdiv b

/-- `a >>a n`, which equals `floor(a / 2^n)` (00_scope.md R6). -/
def sar (a : Int) (n : Nat) : Int := a.fdiv (2 ^ n)

/-- `clamp(v, lo, hi) = min(max(v, lo), hi)` (00_scope.md R6). -/
def clampInt (v lo hi : Int) : Int := min (max v lo) hi

/-- `PHASE_K` (43_synthesizer.md R140): 14565376000, more than 32 bits. -/
def phaseK : Nat := 4096 * 254 * 14000

/-- `PHASE_INC(p)`, two floor divisions left to right (43_synthesizer.md R140). -/
def phaseInc (P : Params) (p : Nat) : Nat := phaseK / P.outputRate / p

/-- `SPT(t)`, two floor divisions left to right (44_mixer.md R166). -/
def samplesPerTick (P : Params) (t : Nat) : Nat := 125 * P.outputRate / 50 / t

/-- `SPEED_MAX` as a number (00_scope.md R4). -/
def speedLimit (P : Params) : Nat :=
  match P.speedMax with
  | .max30 => 30
  | .max31 => 31

/-- A byte count as 20.12 fixed point, `n << 12` (41_sequencer.md R96). -/
def toFx (n : Nat) : BitVec 32 := BitVec.ofNat 32 (n * 4096)

/-! ### The module buffer (20_memory.md) -/

/-- `MemRead(a, 1)`; outside the buffer it is a fault (00_scope.md R7). -/
def memRead (m : Memory) (a : Nat) : Except Fault Byte :=
  match m.read a with
  | some b => .ok b
  | none   => .error (.memReadOutside a)

/-- `MemRead(a, n)`: `n` single-byte reads, lowest address first (20_memory.md R33). -/
def memReadBytes (m : Memory) (a : Nat) : Nat → Except Fault (List Byte)
  | 0 => .ok []
  | n + 1 => do
    let b ← memRead m a
    let rest ← memReadBytes m (a + 1) n
    return b :: rest

/-- `BE16(a)`, most significant byte first (00_scope.md R7, 20_memory.md R31). -/
def be16 (m : Memory) (a : Nat) : Except Fault Nat := do
  let hi ← memRead m a
  let lo ← memRead m (a + 1)
  return hi.toNat * 256 + lo.toNat

/-- `M.inst[k]`: 0 is "none" (10_state.md R22). A number past the table, which no channel holds (10_state.md R17), also
gives "none" (log 8). -/
def View.instrument (v : View) (k : BitVec 5) : Instrument :=
  if k = 0 then Instrument.none else (v.insts[k.toNat - 1]?).getD Instrument.none

/-- `S(i, j)`: sample byte `j` of an instrument (43_synthesizer.md R141). It never leaves the instrument's range
(20_memory.md R40): an index outside it is a fault. -/
def readSample (m : Memory) (ins : Instrument) (j : Nat) : Except Fault Byte :=
  if j < ins.length then memRead m (ins.start + j) else .error (.sampleOutside j)

/-! ### Channel records -/

/-- `ch[i]`. -/
def Channels.get (cs : Channels) (i : Fin 4) : Channel :=
  match i with
  | 0 => cs.c0
  | 1 => cs.c1
  | 2 => cs.c2
  | 3 => cs.c3

/-- `ch[i] <- c`. -/
def Channels.set (cs : Channels) (i : Fin 4) (c : Channel) : Channels :=
  match i with
  | 0 => { cs with c0 := c }
  | 1 => { cs with c1 := c }
  | 2 => { cs with c2 := c }
  | 3 => { cs with c3 := c }

/-- The same function on all four channels (41_sequencer.md R90: "for all 4 channels"). -/
def Channels.map (f : Channel → Channel) (cs : Channels) : Channels := ⟨f cs.c0, f cs.c1, f cs.c2, f cs.c3⟩

/-! ### Named reads and updates of State -/

namespace State

/-- The channel whose row word is being executed. -/
def channel (s : State) : Channel := s.player.ch.get s.chan

/-- The byte of the current player's module buffer at an address, none outside it. -/
def memByte (s : State) (a : Nat) : Option Byte := s.player.buf.read a

/-- Write the channel whose row word is being executed. -/
def setChannel (s : State) (c : Channel) : State :=
  { s with player := { s.player with ch := s.player.ch.set s.chan c } }

/-- Write the program counter `(st.seq_pos, st.row_pos)` (10_state.md R13). -/
def setPc (s : State) (seq row : Nat) : State :=
  { s with player := { s.player with seqPos := seq, rowPos := row } }

/-- Set `flow_taken`, and `flow_marker` too where asked (10_state.md R23). -/
def markFlow (s : State) (marker : Bool) : State :=
  { s with flowTaken := true, flowMarker := s.flowMarker || marker }

/-- Write the speed; the tick counter takes it at once (42_effects.md R126). -/
def setSpeed (s : State) (v : BitVec 8) : State :=
  { s with player := { s.player with speed := v, tickCounter := v } }

/-- Write the tempo and the samples per tick derived from it (42_effects.md R126, 10_state.md R12). -/
def setTempo (s : State) (t : BitVec 8) : State :=
  { s with player :=
    { s.player with tempo := t, spt := BitVec.ofNat 32 (samplesPerTick s.params t.toNat) } }

/-- `emit_diag(kind, channel, command, value)`: append an event and change nothing else (00_scope.md R7,
60_exceptions.md R202). -/
def emitDiag (s : State) (kind : DiagKind) (command : BitVec 4) (value : BitVec 8) : State :=
  { s with diags := s.diags ++ [⟨kind, s.chan, command, value⟩] }

end State

end Sys2Proof.Machine
end

