-- ==== Sys2Proof/Machine/Operands.lean ====
section
/-! DEFINITION. How each command reads its value byte (30_encoding.md R57), and the note part of a row word
(41_sequencer.md R92 to R96), which every command carries. -/

namespace Sys2Proof.Machine

/-- The signed delta of a volume slide (30_encoding.md R57, 42_effects.md R121). -/
def slideDelta (P : Params) (val : BitVec 8) : Int :=
  match P.volSlideMode with
  | .int8   => val.toInt
  | .nibble =>
    let x := val.toNat / 16
    let y := val.toNat % 16
    if x ≠ 0 then (x : Int) else -(y : Int)

/-- The two BCD digits of a pattern break, 0..165 (30_encoding.md R57, 42_effects.md R124). -/
def breakRow (val : BitVec 8) : Nat := val.toNat / 16 * 10 + val.toNat % 16

/-- A volume as the 7-bit field holds it, clamped to 0..64 (42_effects.md R121, R123). -/
def clampVolume (v : Int) : BitVec 7 := BitVec.ofNat 7 (clampInt v 0 64).toNat

/-- A period as the 12-bit field holds it, clamped to 113..856 (42_effects.md R127). -/
def clampPeriod (p : Int) : BitVec 12 := BitVec.ofNat 12 (clampInt p 113 856).toNat

/-- Whether a row word makes a note-on (41_sequencer.md R94). -/
def isNote (v : View) (period : BitVec 12) (inst : BitVec 5) : Bool :=
  decide (period ≠ 0) && decide (inst.toNat ≤ v.ninst)

end Sys2Proof.Machine
end

