-- ==== Sys2Proof/Machine/Flags.lean ====
section
/-! DEFINITION. The status fields of the block: `active` and `loop_state` of a channel, `finished` of the player
(10_state.md R16, R18, R19). `flow_taken` and `flow_marker` are written by `State.markFlow`. -/

namespace Sys2Proof.Machine

/-- `active` after a note-on: only with an instrument that has samples (41_sequencer.md R96). -/
def noteActive (inst : BitVec 5) (ins : Instrument) : Bool := decide (inst ≠ 0) && decide (0 < ins.length)

/-- `loop_state` after a note-on (41_sequencer.md R96). -/
def noteLoopState (ins : Instrument) : LoopState := if ins.hasLoop then .looping else .notLooping

/-- Whether a position lies past the instrument's length; strict (43_synthesizer.md R147, R148). -/
def pastEnd (c : Channel) : Bool := decide (c.lengthFx.toNat < c.pos.toNat)

/-- `active` and `loop_state` after an advance (43_synthesizer.md R147, R148). -/
def endOfSample (c : Channel) : Channel :=
  if pastEnd c then
    match c.loopState with
    | .notLooping => { c with active := false }
    | .looping    => { c with loopState := .loopTail }
    | .loopTail   => { c with loopState := .loopTail }
  else c

/-- Whether the position wraps after an advance (43_synthesizer.md R149). -/
def pastLoopEnd (c : Channel) : Bool :=
  decide (c.loopState = .loopTail) && decide (c.loopEndFx.toNat < c.pos.toNat)

/-- The song end condition (41_sequencer.md R98). -/
def songEnds (s : State) : Bool := s.flowMarker || decide (s.player.view.seqLen ≤ s.player.seqPos)

/-- `st.finished` after a song end event: the latch is set with `cfg.LOOP` off (41_sequencer.md R98, 10_state.md R16). -/
def finishedAfterEnd (s : State) : Bool := s.player.finished || !s.cfgLoop

end Sys2Proof.Machine
end

