-- ==== Sys2Proof/Machine/Note.lean ====
section
/-! DEFINITION. What every row word does before its command: the slot reset and the note part (41_sequencer.md R92 to
R96). -/

namespace Sys2Proof.Machine

/-- The continuous-effect slot back to `(NONE, 0)` (R93). -/
def resetSlot (c : Channel) : Channel := { c with eff := .none, effParam := 0 }

/-- The instrument a note-on settles on: the word's, or the channel's own where the word gives 0 (R95). -/
def noteInst (inst : BitVec 5) (c : Channel) : BitVec 5 := if inst = 0 then c.inst else inst

/-- The volume a note-on settles on: the instrument's default, or the channel's own where the word gives 0 (R95). -/
def noteVolume (v : View) (inst : BitVec 5) (c : Channel) : BitVec 7 :=
  if inst = 0 then c.volume else (v.instrument inst).volume

/-- `note_on(i, period, inst)` (R95, R96): settle instrument and volume, then restart playback. The period is taken as
it stands. The continuous-effect slot is not touched. -/
def noteOn (P : Params) (v : View) (period : BitVec 12) (inst : BitVec 5) (c : Channel) : Channel :=
  let k := noteInst inst c
  let ins := v.instrument k
  { active      := noteActive k ins
    inst        := k
    volume      := noteVolume v inst c
    period      := period
    eff         := c.eff
    effParam    := c.effParam
    pos         := 0
    inc         := BitVec.ofNat 32 (phaseInc P period.toNat)
    lengthFx    := toFx ins.length
    loopState   := noteLoopState ins
    loopStartFx := toFx ins.loopStart
    loopEndFx   := toFx ins.loopEnd }

/-- The channel when its command runs: slot reset, then the note-on if the word makes one (R92). -/
def rowNote (P : Params) (v : View) (period : BitVec 12) (inst : BitVec 5) (c : Channel) : Channel :=
  if isNote v period inst then noteOn P v period inst (resetSlot c) else resetSlot c

/-- The state when the command of a row word runs (R92). -/
def noteStage (period : BitVec 12) (inst : BitVec 5) (s : State) : State :=
  s.setChannel (rowNote s.params s.player.view period inst s.channel)

end Sys2Proof.Machine
end

