-- ==== Sys2Proof/Machine/Flow.lean ====
section
/-! DEFINITION. The flow commands: position jump and pattern break (42_effects.md R122, R124). They take effect at the
end of the row (41_sequencer.md R97). -/

namespace Sys2Proof.Machine

/-- Position jump: row 0 of the target position, with the marker for a jump to 0 (R122). -/
def positionJumpEffect (val : BitVec 8) (s : State) : State := (s.setPc val.toNat 0).markFlow (decide (val = 0))

/-- 0xB `POSITION_JUMP` (R122). -/
def execPositionJump (period : BitVec 12) (inst : BitVec 5) (val : BitVec 8) (s : State) :
    Host.Outcome State Fault Refusal :=
  .next (positionJumpEffect val (noteStage period inst s))

/-- Pattern break: the target row of the next position; a row above 63 is ignored with a diagnostic (R124). -/
def patternBreakEffect (val : BitVec 8) (s : State) : State :=
  if 63 < breakRow val then s.emitDiag .breakRowOutOfRange 0xD#4 val
  else (s.setPc (s.player.seqPos + 1) (breakRow val)).markFlow false

/-- 0xD `PATTERN_BREAK` (R124). -/
def execPatternBreak (period : BitVec 12) (inst : BitVec 5) (val : BitVec 8) (s : State) :
    Host.Outcome State Fault Refusal :=
  .next (patternBreakEffect val (noteStage period inst s))

end Sys2Proof.Machine
end

