-- ==== Sys2Proof/Machine/Portamento.lean ====
section
/-! DEFINITION. Portamento: arming the slot at the row event (42_effects.md R112, R113) and the slide on each
intermediate tick (R127 to R129). -/

namespace Sys2Proof.Machine

/-- Arm the continuous-effect slot of the channel whose row word is being executed. -/
def armSlot (eff : Effect) (val : BitVec 8) (s : State) : State :=
  s.setChannel { s.channel with eff := eff, effParam := val }

/-- 0x1 `PORTA_UP`, row trigger (R112): no pitch change at the row event itself. -/
def execPortaUp (period : BitVec 12) (inst : BitVec 5) (val : BitVec 8) (s : State) :
    Host.Outcome State Fault Refusal :=
  .next (armSlot .portaUp val (noteStage period inst s))

/-- 0x2 `PORTA_DOWN`, row trigger (R113). -/
def execPortaDown (period : BitVec 12) (inst : BitVec 5) (val : BitVec 8) (s : State) :
    Host.Outcome State Fault Refusal :=
  .next (armSlot .portaDown val (noteStage period inst s))

/-- The signed change of the period in one intermediate tick (R127, R128, `PORTA_DIR`). -/
def portaDelta (P : Params) (up : Bool) (param : BitVec 8) : Int :=
  match P.portaDir, up with
  | .upDecreases, true  => -(param.toNat : Int)
  | .upDecreases, false => param.toNat
  | .upIncreases, true  => param.toNat
  | .upIncreases, false => -(param.toNat : Int)

/-- One slide: the period moves, is clamped to 113..856, and the increment follows (R127, R128). -/
def slide (P : Params) (up : Bool) (c : Channel) : Channel :=
  let p := clampPeriod (c.period.toNat + portaDelta P up c.effParam)
  { c with period := p, inc := BitVec.ofNat 32 (phaseInc P p.toNat) }

/-- `per_tick(ch[i])` (R127, R128, R129). -/
def perTick (P : Params) (c : Channel) : Channel :=
  match c.eff with
  | .none      => c
  | .portaUp   => slide P true c
  | .portaDown => slide P false c

end Sys2Proof.Machine
end

