-- ==== Sys2Proof/Machine/SpeedTempo.lean ====
section
/-! DEFINITION. The set speed / tempo command (42_effects.md R126). -/

namespace Sys2Proof.Machine

/-- Set speed, set tempo, or ignore with a diagnostic, by the value (R126). The frame counter keeps its value
(70_reset_and_hazards.md R226). -/
def setSpeedTempoEffect (val : BitVec 8) (s : State) : State :=
  if 1 ≤ val.toNat ∧ val.toNat ≤ speedLimit s.params then s.setSpeed val
  else if 32 ≤ val.toNat then
    if s.cfgSupportTempo then s.setTempo val else s.emitDiag .tempoIgnored 0xF#4 val
  else s.emitDiag .speedIgnored 0xF#4 val

/-- 0xF `SET_SPEED_TEMPO` (R126). -/
def execSetSpeedTempo (period : BitVec 12) (inst : BitVec 5) (val : BitVec 8) (s : State) :
    Host.Outcome State Fault Refusal :=
  .next (setSpeedTempoEffect val (noteStage period inst s))

end Sys2Proof.Machine
end

