-- ==== Sys2Proof/Machine/Unsupported.lean ====
section
/-! DEFINITION. The unsupported commands: the note part acts, the command has no effect but a diagnostic event
(42_effects.md R111, R114 to R120, R125; 92_eei_decisions.md D43). -/

namespace Sys2Proof.Machine

/-- A no-op command: `emit_diag(UNSUPPORTED_EFFECT, i, cmd, val)`. -/
def unsupported (command : BitVec 4) (val : BitVec 8) (s : State) : State :=
  s.emitDiag .unsupportedEffect command val

/-- 0x0 arpeggio (R111): silent for value 0, the empty cell. -/
def arpeggioEffect (val : BitVec 8) (s : State) : State := if val = 0 then s else unsupported 0x0#4 val s

/-- 0x0 `ARPEGGIO` (R111). -/
def execArpeggio (period : BitVec 12) (inst : BitVec 5) (val : BitVec 8) (s : State) :
    Host.Outcome State Fault Refusal :=
  .next (arpeggioEffect val (noteStage period inst s))

/-- 0x3 `TONE_PORTA` (R114): the note in the same word still triggers. -/
def execTonePorta (period : BitVec 12) (inst : BitVec 5) (val : BitVec 8) (s : State) :
    Host.Outcome State Fault Refusal :=
  .next (unsupported 0x3#4 val (noteStage period inst s))

/-- 0x4 `VIBRATO` (R115). -/
def execVibrato (period : BitVec 12) (inst : BitVec 5) (val : BitVec 8) (s : State) :
    Host.Outcome State Fault Refusal :=
  .next (unsupported 0x4#4 val (noteStage period inst s))

/-- 0x5 `TONE_PORTA_VOLSLIDE` (R116). -/
def execTonePortaVolslide (period : BitVec 12) (inst : BitVec 5) (val : BitVec 8) (s : State) :
    Host.Outcome State Fault Refusal :=
  .next (unsupported 0x5#4 val (noteStage period inst s))

/-- 0x6 `VIBRATO_VOLSLIDE` (R117). -/
def execVibratoVolslide (period : BitVec 12) (inst : BitVec 5) (val : BitVec 8) (s : State) :
    Host.Outcome State Fault Refusal :=
  .next (unsupported 0x6#4 val (noteStage period inst s))

/-- 0x7 `TREMOLO` (R118). -/
def execTremolo (period : BitVec 12) (inst : BitVec 5) (val : BitVec 8) (s : State) :
    Host.Outcome State Fault Refusal :=
  .next (unsupported 0x7#4 val (noteStage period inst s))

/-- 0x8 `UNASSIGNED_8` (R119). -/
def execUnassigned8 (period : BitVec 12) (inst : BitVec 5) (val : BitVec 8) (s : State) :
    Host.Outcome State Fault Refusal :=
  .next (unsupported 0x8#4 val (noteStage period inst s))

/-- 0x9 `SAMPLE_OFFSET` (R120): a note in the same word still starts at position 0. -/
def execSampleOffset (period : BitVec 12) (inst : BitVec 5) (val : BitVec 8) (s : State) :
    Host.Outcome State Fault Refusal :=
  .next (unsupported 0x9#4 val (noteStage period inst s))

/-- 0xE `EXTENDED` (R125): no sub-command has any effect. -/
def execExtended (period : BitVec 12) (inst : BitVec 5) (val : BitVec 8) (s : State) :
    Host.Outcome State Fault Refusal :=
  .next (unsupported 0xE#4 val (noteStage period inst s))

end Sys2Proof.Machine
end

