-- ==== Sys2Proof/Machine/Volume.lean ====
section
/-! DEFINITION. The volume commands (42_effects.md R121, R123). -/

namespace Sys2Proof.Machine

/-- Write the volume of the channel whose row word is being executed, clamped to 0..64. -/
def writeVolume (v : Int) (s : State) : State := s.setChannel { s.channel with volume := clampVolume v }

/-- Volume slide, once, on the volume this row's note part left (R121). -/
def volumeSlideEffect (val : BitVec 8) (s : State) : State :=
  writeVolume (s.channel.volume.toNat + slideDelta s.params val) s

/-- 0xA `VOLUME_SLIDE` (R121). -/
def execVolumeSlide (period : BitVec 12) (inst : BitVec 5) (val : BitVec 8) (s : State) :
    Host.Outcome State Fault Refusal :=
  .next (volumeSlideEffect val (noteStage period inst s))

/-- 0xC `SET_VOLUME` (R123). -/
def execSetVolume (period : BitVec 12) (inst : BitVec 5) (val : BitVec 8) (s : State) :
    Host.Outcome State Fault Refusal :=
  .next (writeVolume val.toNat (noteStage period inst s))

end Sys2Proof.Machine
end

