-- ==== Sys2Proof/Machine/Dispatch.lean ====
section
/-! DEFINITION. The dispatch of a row word to its meaning (42_effects.md R110): the slot reset, the note part and the
command of channel `State.chan` (41_sequencer.md R92). Moving on to the next channel is the step's (Step.lean). -/

namespace Sys2Proof.Machine

-- R110, one arm per command.
def exec (i : Instr) (s : State) : Host.Outcome State Fault Refusal :=
  match i with
  | .arpeggio period inst val => Sys2Proof.Machine.execArpeggio period inst val s
  | .portaUp period inst val => Sys2Proof.Machine.execPortaUp period inst val s
  | .portaDown period inst val => Sys2Proof.Machine.execPortaDown period inst val s
  | .tonePorta period inst val => Sys2Proof.Machine.execTonePorta period inst val s
  | .vibrato period inst val => Sys2Proof.Machine.execVibrato period inst val s
  | .tonePortaVolslide period inst val => Sys2Proof.Machine.execTonePortaVolslide period inst val s
  | .vibratoVolslide period inst val => Sys2Proof.Machine.execVibratoVolslide period inst val s
  | .tremolo period inst val => Sys2Proof.Machine.execTremolo period inst val s
  | .unassigned8 period inst val => Sys2Proof.Machine.execUnassigned8 period inst val s
  | .sampleOffset period inst val => Sys2Proof.Machine.execSampleOffset period inst val s
  | .volumeSlide period inst val => Sys2Proof.Machine.execVolumeSlide period inst val s
  | .positionJump period inst val => Sys2Proof.Machine.execPositionJump period inst val s
  | .setVolume period inst val => Sys2Proof.Machine.execSetVolume period inst val s
  | .patternBreak period inst val => Sys2Proof.Machine.execPatternBreak period inst val s
  | .extended period inst val => Sys2Proof.Machine.execExtended period inst val s
  | .setSpeedTempo period inst val => Sys2Proof.Machine.execSetSpeedTempo period inst val s

end Sys2Proof.Machine
end

