-- ==== Sys2Proof/Machine/Mixer.lean ====
section
/-! DEFINITION. The output mixer (44_mixer.md R160 to R164) and the optional serialisation outside the block. -/

namespace Sys2Proof.Machine

/-- The four channel values of a frame (R160). -/
structure Lanes where
  s0 : Int
  s1 : Int
  s2 : Int
  s3 : Int
deriving DecidableEq, Repr

/-- The exact output values of a frame, left before right: MONO (R161), STEREO_HARD (R162), STEREO_SOFT (R163). -/
def mixValues (P : Params) (mode : MixMode) (s : Lanes) : List Int :=
  match mode with
  | .mono       => [divS P (s.s0 + s.s1 + s.s2 + s.s3) 4]
  | .stereoHard => [divS P (s.s0 + s.s3) 2, divS P (s.s1 + s.s2) 2]
  | .stereoSoft =>
    let a := s.s0 + s.s3
    let b := s.s1 + s.s2
    [divS P (3 * a + b) 8, divS P (3 * b + a) 8]

/-- The output samples of a frame; the values convert to s16 without saturation (R164). -/
def mix (P : Params) (mode : MixMode) (s : Lanes) : List Sample := (mixValues P mode s).map (BitVec.ofInt 16)

/-- Samples per frame: 1 in MONO, 2 in the stereo modes (45_host_interface.md R184). -/
def frameWidth : MixMode → Nat
  | .mono       => 1
  | .stereoHard => 2
  | .stereoSoft => 2

/-- The zeros a finished player emits under SILENCE (R168). -/
def zeroFrame (mode : MixMode) : List Sample := List.replicate (frameWidth mode) 0

/-- Samples as bytes in a byte order of the caller's: outside the block, which hands over values (20_memory.md R32,
93_implementation_defined.md I4; log 14). No step uses it. -/
def serialise (order : ByteOrder) (samples : List Sample) : List Byte :=
  samples.flatMap fun x =>
    match order with
    | .little => [x.extractLsb' 0 8, x.extractLsb' 8 8]
    | .big    => [x.extractLsb' 8 8, x.extractLsb' 0 8]

end Sys2Proof.Machine
end

