-- ==== Sys2Proof/WellFormed.lean ====
section
/-! DEFINITION. What is well formed before the machine sees it: instructions and parameters. -/

namespace Sys2Proof

/-- Every row word is legal (30_encoding.md R58) and each field has its width by type (R53), so the check of an
instruction has nothing to refuse: it holds of every term. -/
def Instr.wf (_ : Instr) : Bool := true

/-- A legal parameter record: `OUTPUT_RATE` in 4000..192000 (00_scope.md R4); the other parameters are legal by type. -/
def Params.wf (P : Params) : Bool := decide (4000 ≤ P.outputRate) && decide (P.outputRate ≤ 192000)

end Sys2Proof
end

