-- ==== Sys2Proof/Decode.lean ====
section
/-! DEFINITION. Row-word fields, the decoder and the encoder (30_encoding.md R53, R54, R56). -/

namespace Sys2Proof

/-- `w = b0 : b1 : b2 : b3`, the byte at the lowest address most significant (30_encoding.md R53). -/
def wordOfBytes (b0 b1 b2 b3 : Byte) : Word := b0 ++ b1 ++ b2 ++ b3

/-- The four bytes of a row word, lowest address first (R53). -/
def bytesOfWord (w : Word) : List Byte :=
  [w.extractLsb' 24 8, w.extractLsb' 16 8, w.extractLsb' 8 8, w.extractLsb' 0 8]

/-- The period: bits 27..16 of the word, `b0[3:0] : b1` (R53, R54). -/
def rowPeriod (w : Word) : BitVec 12 := w.extractLsb' 16 12

/-- The instrument: bit 28, then bits 15..12, `b0[4] : b2[7:4]` (R53, R54). -/
def rowInst (w : Word) : BitVec 5 := w.extractLsb' 28 1 ++ w.extractLsb' 12 4

/-- The command: bits 11..8, `b2[3:0]` (R53, R54). -/
def rowCommand (w : Word) : BitVec 4 := w.extractLsb' 8 4

/-- The value: bits 7..0, `b3` (R53, R54). -/
def rowValue (w : Word) : BitVec 8 := w.extractLsb' 0 8

/-- The command map of R56. The last arm is 0xF: sixteen values, none reserved (R58). -/
def instrOfCommand (cmd : BitVec 4) (period : BitVec 12) (inst : BitVec 5) (val : BitVec 8) : Instr :=
  match cmd with
  | 0x0#4 => .arpeggio period inst val
  | 0x1#4 => .portaUp period inst val
  | 0x2#4 => .portaDown period inst val
  | 0x3#4 => .tonePorta period inst val
  | 0x4#4 => .vibrato period inst val
  | 0x5#4 => .tonePortaVolslide period inst val
  | 0x6#4 => .vibratoVolslide period inst val
  | 0x7#4 => .tremolo period inst val
  | 0x8#4 => .unassigned8 period inst val
  | 0x9#4 => .sampleOffset period inst val
  | 0xA#4 => .volumeSlide period inst val
  | 0xB#4 => .positionJump period inst val
  | 0xC#4 => .setVolume period inst val
  | 0xD#4 => .patternBreak period inst val
  | 0xE#4 => .extended period inst val
  | _     => .setSpeedTempo period inst val

/-- Every one of the 2^32 row words is an instruction (R58); bits 31..29 are ignored (R53). -/
def decodeWord (w : Word) : Instr :=
  instrOfCommand (rowCommand w) (rowPeriod w) (rowInst w) (rowValue w)

/-- Why a byte string holds no row word. -/
inductive DecodeError where
  /-- Fewer than the 4 bytes of a row word (R50). Raised by `decodeBytes`; safe. -/
  | truncated (present : Nat)
deriving DecidableEq, Repr

/-- Decode the row word at the front of a byte string; the rest of the string is handed back. -/
def decodeBytes : List Byte → Except DecodeError (Instr × List Byte)
  | b0 :: b1 :: b2 :: b3 :: rest => .ok (decodeWord (wordOfBytes b0 b1 b2 b3), rest)
  | short => .error (.truncated short.length)

/-- Lay the fields out as R53 does; the ignored bits are written as zeros (log 12). -/
def packRow (period : BitVec 12) (inst : BitVec 5) (cmd : BitVec 4) (val : BitVec 8) : Word :=
  0#3 ++ inst.extractLsb' 4 1 ++ period ++ inst.extractLsb' 0 4 ++ cmd ++ val

/-- The row word of an instruction (R53, R56). -/
def encode : Instr → Word
  | .arpeggio p k v          => packRow p k 0x0#4 v
  | .portaUp p k v           => packRow p k 0x1#4 v
  | .portaDown p k v         => packRow p k 0x2#4 v
  | .tonePorta p k v         => packRow p k 0x3#4 v
  | .vibrato p k v           => packRow p k 0x4#4 v
  | .tonePortaVolslide p k v => packRow p k 0x5#4 v
  | .vibratoVolslide p k v   => packRow p k 0x6#4 v
  | .tremolo p k v           => packRow p k 0x7#4 v
  | .unassigned8 p k v       => packRow p k 0x8#4 v
  | .sampleOffset p k v      => packRow p k 0x9#4 v
  | .volumeSlide p k v       => packRow p k 0xA#4 v
  | .positionJump p k v      => packRow p k 0xB#4 v
  | .setVolume p k v         => packRow p k 0xC#4 v
  | .patternBreak p k v      => packRow p k 0xD#4 v
  | .extended p k v          => packRow p k 0xE#4 v
  | .setSpeedTempo p k v     => packRow p k 0xF#4 v

/-- The bytes of an instruction as they stand in the module buffer. -/
def encodeBytes (i : Instr) : List Byte := bytesOfWord (encode i)

/-- The bytes of a word numbered as the opcode table numbers it: 32 bits, bit 31 the top bit of the byte at the
lowest address (R53). Bits above `nbits` are 0. -/
def tableWordBytes (nbits w : Nat) : List Byte := bytesOfWord (BitVec.ofNat 32 (w % 2 ^ nbits))

/-- The instruction the decoder reads from a word of the opcode table. -/
def decodeTableWord (nbits w : Nat) : Option Instr :=
  match decodeBytes (tableWordBytes nbits w) with
  | .ok (i, _) => some i
  | .error _   => none

/-- One digit of the notation of 30_encoding.md R60, 0..9 then A..F. -/
def digitChar (n : Nat) : Char := Char.ofNat (if n < 10 then 48 + n else 55 + n)

/-- The notation `PPP II CVV` of 30_encoding.md R60: period in hex, instrument in decimal, command and value in hex. -/
def rowText (i : Instr) : List Char :=
  let p := i.period.toNat
  let k := i.inst.toNat
  let v := i.val.toNat
  [digitChar (p / 256), digitChar (p / 16 % 16), digitChar (p % 16), ' ',
   digitChar (k / 10), digitChar (k % 10), ' ',
   digitChar i.command.toNat, digitChar (v / 16), digitChar (v % 16)]

end Sys2Proof
end

