-- ==== Sys2Proof/Machine/Sequencer.lean ====
section
/-! DEFINITION. The sequencer: tick dispatch, the start of a row event, the row-word fetch, and the end of a row event
(41_sequencer.md R90 to R99). -/

namespace Sys2Proof.Machine

/-- `row_addr(p, r, c)` (20_memory.md R37). -/
def rowWordAddress (v : View) (pat row chan : Nat) : Nat := v.patternBase + 1024 * pat + 16 * row + 4 * chan

/-- The address of the row the program counter names, computed once per row event (41_sequencer.md R91). A slot past
the 128 of the table is a fault. -/
def rowAddress (p : Player) : Except Fault Nat :=
  match p.view.seq[p.seqPos]? with
  | some pat => .ok (rowWordAddress p.view pat.toNat p.rowPos 0)
  | none     => .error (.sequenceSlot p.seqPos)

/-- The start of a row event: counter reload, flags cleared, row located, channel 0 next (41_sequencer.md R91). -/
def beginRow (job : RenderJob) (s : State) : Except Fault State := do
  let base ← rowAddress s.player
  return { s with
    player     := { s.player with tickCounter := s.player.speed }
    flowTaken  := false
    flowMarker := false
    rowBase    := base
    chan       := 0
    phase      := .row job }

/-- `advance_tick()` (41_sequencer.md R90): an intermediate tick runs the continuous effects of all channels; any other
tick starts a row event. -/
def advanceTick (job : RenderJob) (s : State) : Except Fault State :=
  if 1 < s.player.tickCounter.toNat then
    .ok { s with player := { s.player with
      ch          := s.player.ch.map (perTick s.params)
      tickCounter := s.player.tickCounter - 1 } }
  else beginRow job s

/-- Where the next row word stands (41_sequencer.md R91: `base + 4*i`). -/
def fetchAddress (s : State) : Nat := s.rowBase + 4 * s.chan.val

/-- The four bytes at an address as a row word (41_sequencer.md R92, 30_encoding.md R53). -/
def fetchRowWord (m : Memory) (a : Nat) : Except Fault Word := do
  let b0 ← memRead m a
  let b1 ← memRead m (a + 1)
  let b2 ← memRead m (a + 2)
  let b3 ← memRead m (a + 3)
  return wordOfBytes b0 b1 b2 b3

/-- Whether the ordinary row increment applies (41_sequencer.md R97, `BREAK_ROW_MODE`). -/
def incrementsRow (s : State) : Bool := !(s.flowTaken && decide (s.params.breakRowMode = .target))

/-- `resolve_row()` (41_sequencer.md R97). -/
def resolveRow (s : State) : State :=
  let row := if incrementsRow s then s.player.rowPos + 1 else s.player.rowPos
  if 63 < row then s.setPc (s.player.seqPos + 1) 0 else s.setPc s.player.seqPos row

/-- `song_end_check()` (41_sequencer.md R98); the row is not changed. -/
def songEndCheck (s : State) : State :=
  if songEnds s then
    { s with player := { s.player with seqPos := 0, finished := finishedAfterEnd s } }
  else s

/-- The end of a row event: row resolution, song end check, and back to frame steps. The row-event registers are
cleared, since they live only during the event (10_state.md R23, log 15). -/
def endRow (job : RenderJob) (s : State) : State :=
  { songEndCheck (resolveRow s) with
    flowTaken := false, flowMarker := false, rowBase := 0, chan := 0, phase := .frame job }

/-- After a row word: the next channel, or the end of the row event after channel 3 (41_sequencer.md R91). -/
def nextRowWord (job : RenderJob) (s : State) : State :=
  if s.chan = 3 then endRow job s else { s with chan := s.chan + 1 }

end Sys2Proof.Machine
end

