-- ==== Sys2Proof/Machine/Synth.lean ====
section
/-! DEFINITION. The synthesizer: one channel's sample of one frame (43_synthesizer.md). -/

namespace Sys2Proof.Machine

/-- The integer sample index `k = pos[31:12]` (R142). -/
def posIndex (pos : BitVec 32) : Nat := (pos.extractLsb' 12 20).toNat

/-- The fraction `f = pos[11:0]` (R142). -/
def posFraction (pos : BitVec 32) : Nat := (pos.extractLsb' 0 12).toNat

/-- A sample byte as two's complement, scaled by 256 (R143; signed by the spec's general knowledge, log 17). -/
def widen (b : Byte) : Int := b.toInt * 256

/-- Linear interpolation between two widened samples (R144). -/
def interpolate (c1 c2 : Int) (f : Nat) : Int := sar (c1 * (4096 - f) + c2 * f) 12

/-- Scaling by the channel volume (R145). -/
def scaleVolume (P : Params) (c : Int) (volume : BitVec 7) : Int := divS P (c * volume.toNat) 64

/-- The position after an advance (R146); the sum is stored in 32 bits, and R150 says it fits. -/
def advancePos (c : Channel) : Channel := { c with pos := BitVec.ofNat 32 (c.pos.toNat + c.inc.toNat) }

/-- The wrapped position under SUBTRACT, in one step: `pos - span * ceil((pos - end) / span)`
(70_reset_and_hazards.md R233; the span is never 0, log 9). -/
def subtractWrap (pos loopStart loopEnd : Nat) : Nat :=
  let span := loopEnd - loopStart
  pos - span * ((pos - loopEnd + span - 1) / span)

/-- `wrap(i)` (R149). -/
def wrapPos (P : Params) (c : Channel) : Channel :=
  match P.loopWrap with
  | .reset    => { c with pos := c.loopStartFx }
  | .subtract =>
    { c with pos := BitVec.ofNat 32 (subtractWrap c.pos.toNat c.loopStartFx.toNat c.loopEndFx.toNat) }

/-- What follows the sample: the advance, the end of the sample, the loop wrap, in this order (R141). -/
def afterSample (P : Params) (c : Channel) : Channel :=
  let c := endOfSample (advancePos c)
  if pastLoopEnd c then wrapPos P c else c

/-- The sample value an active channel contributes, from its position before the advance (R141 to R145). -/
def sampleValue (P : Params) (m : Memory) (ins : Instrument) (c : Channel) : Except Fault Int := do
  let b1 ← readSample m ins (min (posIndex c.pos) (ins.length - 1))
  let b2 ← readSample m ins (min (posIndex c.pos + 1) (ins.length - 1))
  return scaleVolume P (interpolate (widen b1) (widen b2) (posFraction c.pos)) c.volume

/-- `synth(i)`: the value and the channel after it; an inactive channel gives 0 and keeps its position (R141). -/
def synth (P : Params) (m : Memory) (v : View) (c : Channel) : Except Fault (Int × Channel) :=
  if c.active then do
    let x ← sampleValue P m (v.instrument c.inst) c
    return (x, afterSample P c)
  else .ok (0, c)

end Sys2Proof.Machine
end

