-- ==== Sys2Proof/Machine/FrameStep.lean ====
section
/-! DEFINITION. The frame step and the tick timer (44_mixer.md R165 to R168), and the end of a `render`
(45_host_interface.md R184, R185). -/

namespace Sys2Proof.Machine

/-- `emit_frame(samples)`: append to the output of the current `render` (00_scope.md R7). -/
def emitFrame (samples : List Sample) (s : State) : State := { s with out := s.out ++ samples }

/-- `synth(0)` to `synth(3)`, in order (44_mixer.md R165). -/
def synthAll (P : Params) (m : Memory) (v : View) (cs : Channels) : Except Fault (Lanes × Channels) := do
  let (x0, c0) ← synth P m v cs.c0
  let (x1, c1) ← synth P m v cs.c1
  let (x2, c2) ← synth P m v cs.c2
  let (x3, c3) ← synth P m v cs.c3
  return (⟨x0, x1, x2, x3⟩, ⟨c0, c1, c2, c3⟩)

/-- Synthesis and output of one frame, before any tick (44_mixer.md R165). -/
def renderFrame (mode : MixMode) (s : State) : Except Fault State := do
  let (x, cs) ← synthAll s.params s.player.buf s.player.view s.player.ch
  return emitFrame (mix s.params mode x) { s with player := { s.player with ch := cs } }

/-- The tick timer: count the frame down; at 0 reload first, then run the tick (44_mixer.md R165, R167). -/
def tickTimer (job : RenderJob) (s : State) : Except Fault State :=
  if s.player.samplesUntilTick - 1 = 0 then
    advanceTick job { s with player := { s.player with samplesUntilTick := s.player.spt } }
  else .ok { s with player := { s.player with samplesUntilTick := s.player.samplesUntilTick - 1 } }

/-- Whether the player is frozen: finished under SILENCE (44_mixer.md R168). -/
def silenced (s : State) : Bool := s.player.finished && decide (s.params.postFinish = .silence)

/-- `frame_step(mode)` (44_mixer.md R165). -/
def frameStep (job : RenderJob) (s : State) : Except Fault State :=
  if silenced s then .ok (emitFrame (zeroFrame job.mode) s)
  else do
    let t ← renderFrame job.mode s
    tickTimer job t

/-- The end of a `render`: hand over the samples and `not st.finished` (45_host_interface.md R184, R185). -/
def finishRender (s : State) : State :=
  { s with phase := .idle, out := [], results := s.results ++ [.rendered (!s.player.finished) s.out] }

/-- One frame of a `render`, or its end when none is left (45_host_interface.md R184). -/
def renderStep (job : RenderJob) (s : State) : Except Fault State :=
  match job.left with
  | 0     => .ok (finishRender s)
  | n + 1 => frameStep { job with left := n } { s with phase := .frame { job with left := n } }

end Sys2Proof.Machine
end

