-- ==== Sys2Proof/Machine/ModuleDecoder.lean ====
section
/-! DEFINITION. The module decoder (40_decoder.md): the first half of `initialize`. -/

namespace Sys2Proof.Machine

/-- The layout a variant fixes (40_decoder.md R73). -/
structure Layout where
  ninst       : Nat
  seqLenOff   : Nat
  seqOff      : Nat
  patternBase : Nat
deriving DecidableEq, Repr

/-- The 15-instrument layout (R73). -/
def layout15 : Layout := ⟨15, 0x1D6, 0x1D8, 0x258⟩

/-- The 31-instrument layout (R73). -/
def layout31 : Layout := ⟨31, 0x3B6, 0x3B8, 0x43C⟩

/-- The format tag "M.K." (R72; its byte values are the spec's general knowledge, log 17). -/
def formatTag : List Byte := [0x4D, 0x2E, 0x4B, 0x2E]

/-- Format detection: the tag is read only from a buffer long enough to hold it (R72). -/
def selectLayout (m : Memory) : Except Fault Layout :=
  if 0x43C ≤ m.len then do
    let tag ← memReadBytes m 0x438 4
    return if tag = formatTag then layout31 else layout15
  else .ok layout15

/-- What the decoder reads from an instrument header (R75). -/
structure RawHeader where
  length  : Nat
  volume  : BitVec 7
  loopAt  : Nat
  loopRaw : Nat
deriving DecidableEq, Repr

/-- The low 7 bits of the volume byte, clamped to 64 (R75). -/
def defaultVolume (b : Byte) : BitVec 7 := BitVec.ofNat 7 (min (b.toNat % 128) 64)

/-- Read the instrument header at `h` (R75). The name and the fine-tune byte are not read. -/
def readHeader (m : Memory) (h : Nat) : Except Fault RawHeader := do
  let len ← be16 m (h + 22)
  let vol ← memRead m (h + 25)
  let ls ← be16 m (h + 26)
  let ll ← be16 m (h + 28)
  return ⟨len * 2, defaultVolume vol, ls * 2, ll⟩

/-- Read `n` headers of 30 bytes from `h` on (R75). -/
def readHeaders (m : Memory) (h : Nat) : Nat → Except Fault (List RawHeader)
  | 0 => .ok []
  | n + 1 => do
    let r ← readHeader m h
    let rest ← readHeaders m (h + 30) n
    return r :: rest

/-- The sequence length byte clamped to 1..128 (R76). -/
def clampSeqLen (b : Byte) : Nat := min (max b.toNat 1) 128

/-- The largest of a list of pattern numbers (R78). -/
def maxPattern : List Byte → Nat
  | [] => 0
  | b :: rest => max b.toNat (maxPattern rest)

/-- An instrument placed at `cur`: cut at the buffer end (R79), with its loop region (R80). -/
def placeInstrument (bufLen cur : Nat) (r : RawHeader) : Instrument :=
  let length := min r.length (bufLen - cur)
  if r.loopRaw ≤ 1 ∨ length ≤ r.loopAt then ⟨cur, length, r.volume, false, 0, 0⟩
  else ⟨cur, length, r.volume, true, r.loopAt, min (r.loopAt + 2 * r.loopRaw) length⟩

/-- Instrument ranges one after another, by the raw lengths (R79). -/
def placeInstruments (bufLen cur : Nat) : List RawHeader → List Instrument
  | [] => []
  | r :: rest => placeInstrument bufLen cur r :: placeInstruments bufLen (cur + r.length) rest

/-- The view of a module, once everything has been read and the patterns are known to fit (R74, R76 to R80). -/
def buildView (bufLen : Nat) (l : Layout) (title seq : List Byte) (seqLen sampleStart : Nat)
    (headers : List RawHeader) : View where
  ninst       := l.ninst
  title       := title
  seqLen      := seqLen
  seq         := seq
  patternBase := l.patternBase
  sampleStart := sampleStart
  insts       := placeInstruments bufLen sampleStart headers

/-- `M.sample_start`: the first byte after the last used pattern; only the used sequence entries count (R78). -/
def sampleStartOf (l : Layout) (seq : List Byte) (seqLen : Nat) : Nat :=
  l.patternBase + 1024 * (maxPattern (seq.take seqLen) + 1)

/-- The rest of the decoder once the layout is known (R74 to R80). -/
def decodeWith (m : Memory) (l : Layout) : Except Fault (Except Malformed View) := do
  let title ← memReadBytes m 0 20
  let headers ← readHeaders m 0x14 l.ninst
  let lenByte ← memRead m l.seqLenOff
  let seq ← memReadBytes m l.seqOff 128
  let seqLen := clampSeqLen lenByte
  let sampleStart := sampleStartOf l seq seqLen
  return if m.len < sampleStart then .error .patternsBeyondBuffer
    else .ok (buildView m.len l title seq seqLen sampleStart headers)

/-- `decode(buf)` (R70): the size check first, then the layout, then the rest. -/
def decodeModule (m : Memory) : Except Fault (Except Malformed View) :=
  if m.len < 0x258 then .ok (.error .shortHeader)
  else do
    let l ← selectLayout m
    decodeWith m l

end Sys2Proof.Machine
end

