-- ==== Sys2Proof/Machine/HostOps.lean ====
section
/-! DEFINITION. The host operations (45_host_interface.md R180 to R190), each begun in one step between operations. -/

namespace Sys2Proof.Machine

/-! ### Players by number (log 5) -/

/-- The parked player of a number. -/
def findPlayer (h : Nat) : List (Nat × Player) → Option Player
  | [] => none
  | (k, p) :: rest => if k = h then some p else findPlayer h rest

/-- The parked players without one number. -/
def removePlayer (h : Nat) : List (Nat × Player) → List (Nat × Player)
  | [] => []
  | (k, p) :: rest => if k = h then rest else (k, p) :: removePlayer h rest

/-- The parked players with one more, numbers rising. -/
def insertPlayer (h : Nat) (p : Player) : List (Nat × Player) → List (Nat × Player)
  | [] => [(h, p)]
  | (k, q) :: rest => if h < k then (h, p) :: (k, q) :: rest else (k, q) :: insertPlayer h p rest

namespace State

/-- The player of a number, wherever it is held. -/
def playerOf (s : State) (h : Nat) : Option Player :=
  if s.handle = some h then some s.player else findPlayer h s.parked

/-- The parked players with the current one among them. -/
def parkCurrent (s : State) : List (Nat × Player) :=
  match s.handle with
  | some g => insertPlayer g s.player s.parked
  | none   => s.parked

/-- Make the player of a number the current one; none where there is no such player. -/
def select (s : State) (h : Nat) : Option State :=
  if s.handle = some h then some s
  else match findPlayer h s.parked with
    | some p => some { s with player := p, handle := some h, parked := removePlayer h s.parkCurrent }
    | none   => none

/-- Append what an operation returns to the host (R187). -/
def answer (s : State) (r : HostResult) : State := { s with results := s.results ++ [r] }

end State

/-! ### The operations -/

/-- The player `initialize` makes from a decoded view: every register at its value of 10_state.md R25, with
`st.spt <- SPT(125)` (R180). -/
def freshPlayer (P : Params) (m : Memory) (v : View) : Player where
  buf              := m
  view             := v
  speed            := 6
  tempo            := 125
  spt              := BitVec.ofNat 32 (samplesPerTick P 125)
  seqPos           := 0
  rowPos           := 0
  tickCounter      := 1
  samplesUntilTick := 1
  finished         := false
  ch               := Channels.reset

/-- Make a new player current and give its number to the host; every earlier player stays as it was (R180,
70_reset_and_hazards.md R222). -/
def installPlayer (p : Player) (s : State) : State :=
  { s with player := p, handle := some s.nextHandle, parked := s.parkCurrent, nextHandle := s.nextHandle + 1 }.answer
    (.player s.nextHandle)

/-- `initialize(buffer)` (R180). A module that does not decode gives only the error and changes nothing else (R201,
R222). -/
def runInitialize (bytes : List Byte) (s : State) : Except Fault State := do
  let m := Memory.ofBytes bytes
  match ← decodeModule m with
  | .error tag => return s.answer (.malformed tag)
  | .ok v      => return installPlayer (freshPlayer s.params m v) s

/-- `set_option(option, value)` (R181): nonzero is on, an unknown option is ignored. -/
def setOption (option : HostOption) (value : Int) (s : State) : State :=
  match option with
  | .loop         => { s with cfgLoop := decide (value ≠ 0) }
  | .supportTempo => { s with cfgSupportTempo := decide (value ≠ 0) }
  | .other _      => s

/-- `get_sequence_length(state)` (R182). -/
def getSequenceLength (s : State) : State := s.answer (.sequenceLength s.player.view.seqLen)

/-- `set_sequence_position(state, position)` (R183): no change at or past the sequence length. -/
def setSequencePosition (position : Nat) (s : State) : State :=
  if position < s.player.view.seqLen then s.setPc position 0 else s

/-- The begin of `render(state, out, n, mode)` (R184): an empty output and `n` frame steps to do. -/
def beginRender (frames : Nat) (mode : MixMode) (s : State) : State :=
  { s with out := [], phase := .frame ⟨frames, mode⟩ }

/-- The host discards the current player (R188): its number names no player any more. -/
def discardCurrent (s : State) : State := { s with handle := none, player := Player.powerUp }

/-- Do something with the player of a number; without one the run has no meaning (R190). -/
def onPlayer (h : Nat) (s : State) (f : State → Host.Outcome State Fault Refusal) : Host.Outcome State Fault Refusal :=
  match s.select h with
  | some t => f t
  | none   => .refused .noPlayer

/-- Begin one host operation. A host that breaks a duty of R189 is refused. -/
def beginOp (op : HostOp) (s : State) : Host.Outcome State Fault Refusal :=
  match op with
  | .initializePlayer bytes =>
    match runInitialize bytes s with
    | .ok t    => .next t
    | .error f => .fault f
  | .setOption option value => .next (setOption option value s)
  | .getSequenceLength h => onPlayer h s fun t => .next (getSequenceLength t)
  | .setSequencePosition h position => onPlayer h s fun t => .next (setSequencePosition position t)
  | .render h frames mode room =>
    onPlayer h s fun t =>
      if frames * frameWidth mode ≤ room then .next (beginRender frames mode t) else .refused .outputRoom
  | .discard h => onPlayer h s fun t => .next (discardCurrent t)
  | .disturbBuffer h => onPlayer h s fun _ => .refused .bufferDisturbed

/-- Between operations: take the next operation of the host; with none pending nothing happens (00_scope.md R9,
60_exceptions.md R212). -/
def hostStep (s : State) : Host.Outcome State Fault Refusal :=
  match s.queue with
  | []         => .next s
  | op :: rest => beginOp op { s with queue := rest }

end Sys2Proof.Machine
end

