-- ==== Sys2Proof/Machine/Step.lean ====
section
/-! DEFINITION. One step of the block (log 3), and the placing of a row word where the next step fetches it (log 4). -/

namespace Sys2Proof.Machine

/-- A row event's next row word: fetch, decode, execute, and on to the next channel (41_sequencer.md R91, R92). -/
def rowStep (job : RenderJob) (s : State) : Host.Outcome State Fault Refusal :=
  match fetchRowWord s.player.buf (fetchAddress s) with
  | .error f => .fault f
  | .ok w =>
    match exec (decodeWord w) s with
    | .next t    => .next (nextRowWord job t)
    | .fault f   => .fault f
    | .refused r => .refused r

/-- One step: begin a host operation, do one frame of a `render` or end it, or execute one row word. -/
def step (s : State) : Host.Outcome State Fault Refusal :=
  match s.phase with
  | .idle => hostStep s
  | .frame job =>
    match renderStep job s with
    | .ok t    => .next t
    | .error f => .fault f
  | .row job => rowStep job s

/-- The smallest module's buffer: 0x658 zero bytes (40_decoder.md R70, worked example). -/
def minimalBuffer : Memory := ⟨0x658, []⟩

/-- A state with a player: the state itself, or one in which the smallest module has been loaded into the power-up
registers (log 4). -/
def withPlayer (s : State) : State :=
  match s.handle with
  | some _ => s
  | none =>
    { s with
      player := { Player.powerUp with buf := minimalBuffer }
      handle := some s.nextHandle
      nextHandle := s.nextHandle + 1 }

/-- A state in a row event: the state itself, or one in which the row the program counter names is about to run. -/
def inRowEvent (s : State) : State :=
  let base := rowWordAddress s.player.view ((s.player.view.seq[s.player.seqPos]?).getD 0).toNat s.player.rowPos 0
  match s.phase with
  | .row _     => s
  | .frame job => { s with phase := .row job, rowBase := base, chan := 0 }
  | .idle      => { s with phase := .row ⟨0, .mono⟩, rowBase := base, chan := 0 }

/-- The state with a table word stored where the next step fetches its row word (log 4). -/
def State.withFetchWord (s : State) (nbits w : Nat) : State :=
  let t := inRowEvent (withPlayer s)
  { t with player := { t.player with buf := t.player.buf.placeBytes (fetchAddress t) (tableWordBytes nbits w) } }

end Sys2Proof.Machine
end

