-- ==== Sys2Proof/Safety.lean ====
section
/-! DEFINITION. What claims speak of: the invariant of the block (10_state.md R24 and the ranges of R11 to R22), the
frame of a row word, and the effect of its note part. -/

namespace Sys2Proof.Machine

/-! ### The invariant -/

/-- A placed instrument (10_state.md R22, 40_decoder.md R75, R79, R80). -/
structure InstrumentOk (bufLen : Nat) (ins : Instrument) : Prop where
  range  : ins.length = 0 ∨ ins.start + ins.length ≤ bufLen
  size   : ins.length ≤ 131070
  volume : ins.volume.toNat ≤ 64
  loop   : ins.hasLoop = true → ins.loopStart < ins.loopEnd ∧ ins.loopEnd ≤ ins.length

/-- A decoded view over its buffer (10_state.md R21, 40_decoder.md R73, R76 to R79). -/
structure ViewOk (m : Memory) (v : View) : Prop where
  memory      : m.wf = true
  variant     : (v.ninst = 15 ∧ v.patternBase = 0x258) ∨ (v.ninst = 31 ∧ v.patternBase = 0x43C)
  title       : v.title.length = 20
  seqLen      : 1 ≤ v.seqLen ∧ v.seqLen ≤ 128
  slots       : v.seq.length = 128
  patterns    : ∀ pat ∈ v.seq.take v.seqLen, v.patternBase + 1024 * (pat.toNat + 1) ≤ m.len
  instCount   : v.insts.length = v.ninst
  instruments : ∀ ins ∈ v.insts, InstrumentOk m.len ins

/-- The bound on a channel's position (10_state.md R24, 43_synthesizer.md R150). -/
def posBound (c : Channel) : Nat :=
  match c.loopState with
  | .notLooping => if c.active then c.lengthFx.toNat else c.lengthFx.toNat + 3641344
  | .looping    => c.lengthFx.toNat
  | .loopTail   => c.loopEndFx.toNat

/-- A channel record over a view (10_state.md R17 to R19, R24). On the pseudo-instrument 0 the two loop bounds are the
model's choice of `Instrument.none` (log 19). -/
structure ChannelOk (v : View) (c : Channel) : Prop where
  inst      : c.inst.toNat ≤ v.ninst
  volume    : c.volume.toNat ≤ 64
  inc       : c.inc.toNat ≤ 3641344
  lengthFx  : c.lengthFx = toFx (v.instrument c.inst).length
  loopStart : c.loopStartFx = toFx (v.instrument c.inst).loopStart
  loopEnd   : c.loopEndFx = toFx (v.instrument c.inst).loopEnd
  loops     : c.loopState = .notLooping ↔ (v.instrument c.inst).hasLoop = false
  active    : c.active = true → 0 < (v.instrument c.inst).length
  pos       : c.pos.toNat ≤ posBound c

/-- A player's view, timing registers and channels (10_state.md R12 to R17, R24). -/
structure PlayerOk (P : Params) (p : Player) : Prop where
  view     : ViewOk p.buf p.view
  speed    : 1 ≤ p.speed.toNat ∧ p.speed.toNat ≤ speedLimit P
  tempo    : 32 ≤ p.tempo.toNat
  spt      : p.spt.toNat = samplesPerTick P p.tempo.toNat
  ticks    : 1 ≤ p.tickCounter.toNat ∧ p.tickCounter.toNat ≤ 31
  samples  : 1 ≤ p.samplesUntilTick.toNat ∧ p.samplesUntilTick.toNat ≤ 15000
  channels : ∀ i, ChannelOk p.view (p.ch.get i)

/-- The program counter at rest (10_state.md R13, R24). -/
structure PcOk (p : Player) : Prop where
  seq : p.seqPos < p.view.seqLen
  row : p.rowPos < 64

/-- Whether a row event is in progress. -/
def State.inRow (s : State) : Bool :=
  match s.phase with
  | .row _ => true
  | _      => false

/-- A row event in progress: its 16 bytes lie in the buffer (20_memory.md R39), and the program counter, an int now,
stays in the bounds of 10_state.md R13. -/
structure RowOk (s : State) : Prop where
  inBuffer : s.rowBase + 16 ≤ s.player.buf.len
  row      : s.player.rowPos < 64
  seq      : s.player.seqPos ≤ 255 + s.chan.val

/-- The invariant. It speaks of the current player only where there is one, and of every parked player. -/
structure Inv (s : State) : Prop where
  params  : s.params.wf = true
  player  : s.handle.isSome = true → PlayerOk s.params s.player
  pc      : s.handle.isSome = true → s.inRow = false → PcOk s.player
  row     : s.inRow = true → RowOk s
  busy    : s.phase ≠ .idle → s.handle.isSome = true
  quiet   : s.inRow = false → s.chan = 0 ∧ s.rowBase = 0 ∧ s.flowTaken = false ∧ s.flowMarker = false
  silent  : s.phase = .idle → s.out = []
  parked  : ∀ q ∈ s.parked, PlayerOk s.params q.2 ∧ PcOk q.2
  numbers : (s.parked.map Prod.fst).Pairwise (· < ·)
  fresh   : ∀ q ∈ s.parked, q.1 < s.nextHandle
  current : ∀ h, s.handle = some h → h < s.nextHandle ∧ h ∉ s.parked.map Prod.fst

/-! ### The frame of a row word -/

/-- What no row word changes: the configuration, the other players, the operation in progress and its output, the
module buffer (every byte of it) and view, the frame counter, the latch, and every other channel. -/
structure RowFrame (s t : State) : Prop where
  params          : t.params = s.params
  cfgLoop         : t.cfgLoop = s.cfgLoop
  cfgSupportTempo : t.cfgSupportTempo = s.cfgSupportTempo
  handle          : t.handle = s.handle
  parked          : t.parked = s.parked
  nextHandle      : t.nextHandle = s.nextHandle
  phase           : t.phase = s.phase
  chan            : t.chan = s.chan
  rowBase         : t.rowBase = s.rowBase
  queue           : t.queue = s.queue
  out             : t.out = s.out
  results         : t.results = s.results
  bufLen          : t.player.buf.len = s.player.buf.len
  bytes           : ∀ a, t.memByte a = s.memByte a
  view            : t.player.view = s.player.view
  samples         : t.player.samplesUntilTick = s.player.samplesUntilTick
  finished        : t.player.finished = s.player.finished
  channels        : ∀ j, j ≠ s.chan → t.player.ch.get j = s.player.ch.get j

/-- The program counter and the row-event flags are unchanged. -/
structure SamePc (s t : State) : Prop where
  seqPos     : t.player.seqPos = s.player.seqPos
  rowPos     : t.player.rowPos = s.player.rowPos
  flowTaken  : t.flowTaken = s.flowTaken
  flowMarker : t.flowMarker = s.flowMarker

/-- The timing registers a row word may write are unchanged. -/
structure SameTiming (s t : State) : Prop where
  speed       : t.player.speed = s.player.speed
  tempo       : t.player.tempo = s.player.tempo
  spt         : t.player.spt = s.player.spt
  tickCounter : t.player.tickCounter = s.player.tickCounter

/-- `c` is the channel the slot reset and the note part of a row word leave (41_sequencer.md R93 to R96): without a
note-on only the slot is reset; a note-on settles the instrument `k`, then restarts playback from it. -/
structure NoteApplied (s : State) (period : BitVec 12) (inst : BitVec 5) (c : Channel) : Prop where
  slot   : c.eff = .none ∧ c.effParam = 0
  silent : (period = 0 ∨ s.player.view.ninst < inst.toNat) → c = { s.channel with eff := .none, effParam := 0 }
  keep   : period ≠ 0 → inst = 0 → c.inst = s.channel.inst ∧ c.volume = s.channel.volume
  switch : period ≠ 0 → inst ≠ 0 → inst.toNat ≤ s.player.view.ninst →
    c.inst = inst ∧ c.volume = (s.player.view.instrument inst).volume
  start  : period ≠ 0 → inst.toNat ≤ s.player.view.ninst →
    (c.active = true ↔ c.inst ≠ 0 ∧ 0 < (s.player.view.instrument c.inst).length) ∧
    c.pos = 0 ∧
    c.lengthFx = BitVec.ofNat 32 ((s.player.view.instrument c.inst).length * 4096) ∧
    c.loopState = (if (s.player.view.instrument c.inst).hasLoop then .looping else .notLooping) ∧
    c.loopStartFx = BitVec.ofNat 32 ((s.player.view.instrument c.inst).loopStart * 4096) ∧
    c.loopEndFx = BitVec.ofNat 32 ((s.player.view.instrument c.inst).loopEnd * 4096) ∧
    c.inc = BitVec.ofNat 32 (4096 * 254 * 14000 / s.params.outputRate / period.toNat) ∧
    c.period = period

/-! ### Words of claims -/

/-- The commands with no effect but a diagnostic, arpeggio apart (42_effects.md R114 to R120, R125). -/
def reportsOnly : Instr → Bool
  | .tonePorta _ _ _ | .vibrato _ _ _ | .tonePortaVolslide _ _ _ | .vibratoVolslide _ _ _ | .tremolo _ _ _
  | .unassigned8 _ _ _ | .sampleOffset _ _ _ | .extended _ _ _ => true
  | .arpeggio _ _ _ | .portaUp _ _ _ | .portaDown _ _ _ | .volumeSlide _ _ _ | .positionJump _ _ _
  | .setVolume _ _ _ | .patternBreak _ _ _ | .setSpeedTempo _ _ _ => false

/-- A step's outcome with a function applied to the next state. -/
def mapNext (f : State → State) : Host.Outcome State Fault Refusal → Host.Outcome State Fault Refusal
  | .next t    => .next (f t)
  | .fault r   => .fault r
  | .refused r => .refused r

/-- More frames to do in the `render` in progress. -/
def addFrames (n : Nat) (s : State) : State :=
  match s.phase with
  | .idle      => s
  | .frame job => { s with phase := .frame { job with left := job.left + n } }
  | .row job   => { s with phase := .row { job with left := job.left + n } }

/-- The player a host operation is about. -/
def opPlayer : HostOp → Option Nat
  | .initializePlayer _ | .setOption _ _ => none
  | .getSequenceLength h | .setSequencePosition h _ | .render h _ _ _ | .discard h | .disturbBuffer h => some h

/-- After a host operation on player `h` it is the current one, and every other player is as it was (log 5). -/
structure ActsOn (s t : State) (h : Nat) : Prop where
  handle : t.handle = some h
  parked : s.handle = some h → t.parked = s.parked
  others : Inv s → ∀ g, g ≠ h → t.playerOf g = s.playerOf g

/-- The player the next step may change: the current one inside an operation, the operand's one at its begin. -/
def actingPlayer (s : State) : Option Nat :=
  match s.phase with
  | .idle => s.queue.head?.bind opPlayer
  | _     => s.handle

end Sys2Proof.Machine
end

