-- ==== Sys2Proof/Certificates/Slice0/Obligations.lean ====
section
/-! DEFINITION. The statements for the provers. Each docstring says which rule it formalises; "model's choice" marks what
a log entry decides. -/

open Sys2Proof Sys2Proof.Machine

/-! ### Encoding -/

/-- 30_encoding.md R53: the fields of a row word, as numbers taken from `w = b0 : b1 : b2 : b3`; bits 31..29 reach
no field. -/
def Obligations.RowWordFieldsFollowTheLayout : Prop :=
  ∀ b0 b1 b2 b3 : Byte,
    let n := ((b0.toNat * 256 + b1.toNat) * 256 + b2.toNat) * 256 + b3.toNat
    let i := decodeWord (wordOfBytes b0 b1 b2 b3)
    (wordOfBytes b0 b1 b2 b3).toNat = n ∧
    i.inst.toNat = n / 2 ^ 28 % 2 * 16 + n / 2 ^ 12 % 16 ∧
    i.period.toNat = n / 2 ^ 16 % 4096 ∧
    i.command.toNat = n / 2 ^ 8 % 16 ∧
    i.val.toNat = n % 256

/-- Decoding the encoding of any well-formed instruction gives it back, word by word and byte by byte. -/
def Obligations.DecodeOfEncodeGivesTheInstruction : Prop :=
  ∀ (i : Instr) (rest : List Byte), i.wf = true →
    decodeWord (encode i) = i ∧ decodeBytes (encodeBytes i ++ rest) = .ok (i, rest)

/-- Encoding what was decoded from any of the 2^32 words gives the word back but for the ignored bits 31..29, which
the encoder writes as zeros (model's choice, log 12). -/
def Obligations.EncodeOfDecodeClearsOnlyIgnoredBits : Prop :=
  ∀ w : Word, encode (decodeWord w) = w &&& 0x1FFFFFFF#32

/-- Words written out from the layout of R53 and the command map of R56, among them the vectors V-C1 to V-C6 of
95_test_vectors.md. The layout and the vectors' fields are the spec's; the command numbers it takes from general
knowledge (log 17, PRESUMED; decision D4). -/
def Obligations.WrittenOutWordsDecode : Prop :=
  decodeWord 0x01AC1C20#32 = .setVolume 428#12 1#5 0x20#8 ∧
  decodeWord 0x1358F2FF#32 = .portaDown 856#12 31#5 0xFF#8 ∧
  decodeWord 0xE0000000#32 = .arpeggio 0#12 0#5 0#8 ∧
  decodeWord 0x0FFF0000#32 = .arpeggio 4095#12 0#5 0#8 ∧
  decodeWord 0x00005A0F#32 = .volumeSlide 0#12 5#5 0x0F#8 ∧
  decodeWord 0x10710D32#32 = .patternBreak 113#12 16#5 0x32#8 ∧
  decodeWord 0x00000B02#32 = .positionJump 0#12 0#5 2#8 ∧
  decodeWord 0x00000F20#32 = .setSpeedTempo 0#12 0#5 0x20#8

/-- 00_scope.md R7: a read inside the buffer gives a byte, any other is a fault; `BE16` puts the byte at the lower
address first (20_memory.md R31). -/
def Obligations.MemReadFaultsExactlyOutsideTheBuffer : Prop :=
  ∀ (m : Memory) (a : Nat),
    (a < m.len → ∃ b, memRead m a = .ok b) ∧
    (m.len ≤ a → memRead m a = .error (.memReadOutside a)) ∧
    (∀ hi lo : Byte, m.read a = some hi → m.read (a + 1) = some lo → be16 m a = .ok (256 * hi.toNat + lo.toNat))

/-! ### Row words -/

/-- 30_encoding.md R58 and 42_effects.md R130 as one statement over all instructions: every row word completes in every
state, and changes nothing outside its frame. -/
def Obligations.EveryRowWordCompletesWithinItsFrame : Prop :=
  ∀ (i : Instr) (s : State), ∃ t, exec i s = .next t ∧ RowFrame s t

/-- 42_effects.md R111: arpeggio acts only through its note part; with a value other than 0 it also reports. That value 0
is silent is the spec's decision D33. -/
def Obligations.ArpeggioReportsOnlyANonzeroValue : Prop :=
  ∀ (s : State) (p : BitVec 12) (k : BitVec 5) (v : BitVec 8),
    ∃ t, exec (.arpeggio p k v) s = .next t ∧ RowFrame s t ∧ SamePc s t ∧ SameTiming s t ∧
      NoteApplied s p k t.channel ∧
      t.diags = s.diags ++ (if v = 0 then [] else [⟨.unsupportedEffect, s.chan, 0x0#4, v⟩])

/-- 42_effects.md R114 to R120 and R125: each of the eight commands acts only through its note part and reports
itself. -/
def Obligations.UnsupportedCommandsOnlyReport : Prop :=
  ∀ (i : Instr) (s : State), reportsOnly i = true →
    ∃ t, exec i s = .next t ∧ RowFrame s t ∧ SamePc s t ∧ SameTiming s t ∧
      NoteApplied s i.period i.inst t.channel ∧
      t.diags = s.diags ++ [⟨.unsupportedEffect, s.chan, i.command, i.val⟩]

/-- 42_effects.md R112: portamento up arms the slot with its value and moves no pitch at the row event. -/
def Obligations.PortamentoUpArmsTheSlot : Prop :=
  ∀ (s : State) (p : BitVec 12) (k : BitVec 5) (v : BitVec 8),
    ∃ t c, exec (.portaUp p k v) s = .next t ∧ RowFrame s t ∧ SamePc s t ∧ SameTiming s t ∧
      NoteApplied s p k c ∧ t.channel = { c with eff := .portaUp, effParam := v } ∧ t.diags = s.diags

/-- 42_effects.md R113: portamento down arms the slot with its value and moves no pitch at the row event. -/
def Obligations.PortamentoDownArmsTheSlot : Prop :=
  ∀ (s : State) (p : BitVec 12) (k : BitVec 5) (v : BitVec 8),
    ∃ t c, exec (.portaDown p k v) s = .next t ∧ RowFrame s t ∧ SamePc s t ∧ SameTiming s t ∧
      NoteApplied s p k c ∧ t.channel = { c with eff := .portaDown, effParam := v } ∧ t.diags = s.diags

/-- 42_effects.md R121 with 30_encoding.md R57: the volume the note part left moves by the signed delta, once, and is
clamped to 0..64. Both readings of "signed" are the parameter of decision D20. -/
def Obligations.VolumeSlideAddsTheSignedDelta : Prop :=
  ∀ (s : State) (p : BitVec 12) (k : BitVec 5) (v : BitVec 8),
    let delta : Int :=
      match s.params.volSlideMode with
      | .int8   => if v.toNat < 128 then v.toNat else (v.toNat : Int) - 256
      | .nibble => if v.toNat / 16 ≠ 0 then (v.toNat / 16 : Nat) else -((v.toNat % 16 : Nat) : Int)
    ∃ t c, exec (.volumeSlide p k v) s = .next t ∧ RowFrame s t ∧ SamePc s t ∧ SameTiming s t ∧
      NoteApplied s p k c ∧ t.channel = { c with volume := t.channel.volume } ∧
      (t.channel.volume.toNat : Int) = min (max (c.volume.toNat + delta) 0) 64 ∧ t.diags = s.diags

/-- 42_effects.md R123: the volume becomes the value clamped to 64, over whatever the note part set, on an inactive
channel too. -/
def Obligations.SetVolumeWritesTheClampedValue : Prop :=
  ∀ (s : State) (p : BitVec 12) (k : BitVec 5) (v : BitVec 8),
    ∃ t c, exec (.setVolume p k v) s = .next t ∧ RowFrame s t ∧ SamePc s t ∧ SameTiming s t ∧
      NoteApplied s p k c ∧ t.channel = { c with volume := t.channel.volume } ∧
      t.channel.volume.toNat = min v.toNat 64 ∧ t.diags = s.diags

/-- 42_effects.md R122: row 0 of the position the value names, `flow_taken` always, `flow_marker` for the value 0 (and
kept where an earlier channel set it). -/
def Obligations.PositionJumpNamesRowZeroOfItsValue : Prop :=
  ∀ (s : State) (p : BitVec 12) (k : BitVec 5) (v : BitVec 8),
    ∃ t, exec (.positionJump p k v) s = .next t ∧ RowFrame s t ∧ SameTiming s t ∧
      NoteApplied s p k t.channel ∧ t.diags = s.diags ∧
      t.player.rowPos = 0 ∧ t.player.seqPos = v.toNat ∧ t.flowTaken = true ∧
      (t.flowMarker = true ↔ v = 0 ∨ s.flowMarker = true)

/-- 42_effects.md R124: a decoded row up to 63 becomes the row of the next position; a row above 63 writes neither and
is reported. -/
def Obligations.PatternBreakNamesItsRowOrReports : Prop :=
  ∀ (s : State) (p : BitVec 12) (k : BitVec 5) (v : BitVec 8),
    let r := v.toNat / 16 * 10 + v.toNat % 16
    ∃ t, exec (.patternBreak p k v) s = .next t ∧ RowFrame s t ∧ SameTiming s t ∧
      NoteApplied s p k t.channel ∧ t.flowMarker = s.flowMarker ∧
      (r ≤ 63 → t.player.rowPos = r ∧ t.player.seqPos = s.player.seqPos + 1 ∧ t.flowTaken = true ∧
        t.diags = s.diags) ∧
      (63 < r → SamePc s t ∧ t.diags = s.diags ++ [⟨.breakRowOutOfRange, s.chan, 0xD#4, v⟩])

/-- 42_effects.md R126: the value is a speed, a tempo, or ignored with a report. `SPEED_MAX` and the ignoring of 0 are
the spec's decision D22; that the frame counter keeps its value (RowFrame) is decision D36. -/
def Obligations.SetSpeedTempoReadsItsValue : Prop :=
  ∀ (s : State) (p : BitVec 12) (k : BitVec 5) (v : BitVec 8),
    let top := match s.params.speedMax with | .max30 => 30 | .max31 => 31
    ∃ t, exec (.setSpeedTempo p k v) s = .next t ∧ RowFrame s t ∧ SamePc s t ∧
      NoteApplied s p k t.channel ∧
      (1 ≤ v.toNat → v.toNat ≤ top →
        t.player.speed = v ∧ t.player.tickCounter = v ∧ t.player.tempo = s.player.tempo ∧
        t.player.spt = s.player.spt ∧ t.diags = s.diags) ∧
      (32 ≤ v.toNat → s.cfgSupportTempo = true →
        t.player.tempo = v ∧ t.player.spt = BitVec.ofNat 32 (125 * s.params.outputRate / 50 / v.toNat) ∧
        t.player.speed = s.player.speed ∧ t.player.tickCounter = s.player.tickCounter ∧ t.diags = s.diags) ∧
      (32 ≤ v.toNat → s.cfgSupportTempo = false →
        SameTiming s t ∧ t.diags = s.diags ++ [⟨.tempoIgnored, s.chan, 0xF#4, v⟩]) ∧
      (v.toNat = 0 ∨ (top < v.toNat ∧ v.toNat < 32) →
        SameTiming s t ∧ t.diags = s.diags ++ [⟨.speedIgnored, s.chan, 0xF#4, v⟩])

/-! ### Row events and ticks -/

/-- 41_sequencer.md R91, R92: in a row event, a step runs the instruction that the four bytes at `base + 4*i` decode to,
then goes on to the next channel or ends the event after channel 3. That one row word is one step is the model's choice
(log 3). -/
def Obligations.StepRunsTheDecodedRowWord : Prop :=
  ∀ (s t : State) (job : RenderJob) (b0 b1 b2 b3 : Byte) (i : Instr),
    let a := s.rowBase + 4 * s.chan.val
    s.phase = .row job →
    s.memByte a = some b0 → s.memByte (a + 1) = some b1 → s.memByte (a + 2) = some b2 → s.memByte (a + 3) = some b3 →
    decodeWord (wordOfBytes b0 b1 b2 b3) = i → i.wf = true → exec i s = .next t →
    step s = .next (if s.chan.val < 3 then { t with chan := t.chan + 1 } else endRow job t)

/-- Log 4 (model's choice): a word placed by `withFetchWord` after power-up is the very next instruction. -/
def Obligations.PlacedWordRunsFirstAfterReset : Prop :=
  ∀ (w : Nat), w < 2 ^ 32 →
    ∃ i t, decodeTableWord 32 w = some i ∧ i = decodeWord (BitVec.ofNat 32 w) ∧
      exec i (State.reset.withFetchWord 32 w) = .next t ∧
      step (State.reset.withFetchWord 32 w) = .next { t with chan := 1 }

/-- 41_sequencer.md R97, R98: how the end of a row event moves the program counter and when it sets `finished`. The
parameter is the spec's decision D23, the place of the check its decision D25. The last clause says that nothing else
changes but the registers of the row event, which are cleared here: that is the model's choice (log 15), and no rule
of the spec. -/
def Obligations.RowEndResolvesTheProgramCounter : Prop :=
  ∀ (s : State) (job : RenderJob),
    let row := if s.flowTaken = true ∧ s.params.breakRowMode = .target then s.player.rowPos else s.player.rowPos + 1
    let seq := if 63 < row then s.player.seqPos + 1 else s.player.seqPos
    let ends := s.flowMarker = true ∨ s.player.view.seqLen ≤ seq
    let t := endRow job s
    t.player.rowPos = (if 63 < row then 0 else row) ∧
    (ends → t.player.seqPos = 0 ∧ (t.player.finished = true ↔ s.player.finished = true ∨ s.cfgLoop = false)) ∧
    (¬ ends → t.player.seqPos = seq ∧ t.player.finished = s.player.finished) ∧
    t = { s with
      phase := .frame job, chan := 0, rowBase := 0, flowTaken := false, flowMarker := false
      player := { s.player with
        rowPos := t.player.rowPos, seqPos := t.player.seqPos, finished := t.player.finished } }

/-- 41_sequencer.md R91 to R93, R97, R99: a row of four empty cells resets the four slots and moves the program counter
to the next row. That it takes four steps (log 3) and that `rowBase` is 0 after it (log 15) are the model's choices. -/
def Obligations.EmptyRowAdvancesToTheNextRow : Prop :=
  ∀ (s : State) (job : RenderJob),
    s.phase = .row job → s.chan = 0 → s.flowTaken = false → s.flowMarker = false →
    (∀ k, k < 16 → s.memByte (s.rowBase + k) = some 0#8) →
    s.player.rowPos < 63 → s.player.seqPos < s.player.view.seqLen →
    Host.Core.run core 4 s = .next { s with
      phase := .frame job, rowBase := 0
      player := { s.player with
        rowPos := s.player.rowPos + 1
        ch := s.player.ch.map fun c => { c with eff := .none, effParam := 0 } } }

/-- 41_sequencer.md R91: what the start of a row event writes and where it finds the row. That the rule's variables
`base` and `i` are registers is the model's choice (log 15). -/
def Obligations.RowEventLocatesItsRowOnce : Prop :=
  ∀ (s : State) (job : RenderJob) (pat : Byte),
    s.player.tickCounter.toNat ≤ 1 → s.player.view.seq[s.player.seqPos]? = some pat →
    advanceTick job s = .ok { s with
      phase := .row job, chan := 0, flowTaken := false, flowMarker := false
      rowBase := s.player.view.patternBase + 1024 * pat.toNat + 16 * s.player.rowPos
      player := { s.player with tickCounter := s.player.speed } }

/-- 41_sequencer.md R90 with 42_effects.md R127 to R129: an intermediate tick slides each armed channel, counts down, and
changes nothing else; the program counter does not move. The direction is the parameter of decision D21. -/
def Obligations.IntermediateTickSlidesArmedChannels : Prop :=
  ∀ (s : State) (job : RenderJob), 1 < s.player.tickCounter.toNat →
    ∃ cs, advanceTick job s = .ok { s with player :=
        { s.player with ch := cs, tickCounter := s.player.tickCounter - 1 } } ∧
      (s.player.tickCounter - 1).toNat = s.player.tickCounter.toNat - 1 ∧
      ∀ i,
        let c := s.player.ch.get i
        let param : Int := c.effParam.toNat
        let up : Int := if s.params.portaDir = .upDecreases then -param else param
        let p : Int := if c.eff = .portaUp then c.period.toNat + up else c.period.toNat - up
        (c.eff = .none → cs.get i = c) ∧
        (c.eff ≠ .none → cs.get i = { c with period := (cs.get i).period, inc := (cs.get i).inc } ∧
          ((cs.get i).period.toNat : Int) = min (max p 113) 856 ∧
          (cs.get i).inc =
            BitVec.ofNat 32 (4096 * 254 * 14000 / s.params.outputRate / (cs.get i).period.toNat))

/-- 41_sequencer.md R99 ("Intermediate ticks never move it") and 10_state.md R13: in a `render`, a step outside a row event
moves no program counter, and one inside a row event moves it only by a flow command or at the last channel. Between
operations a player's program counter moves only by a `set_sequence_position` on it; `initialize` gives its (0, 0) to a
new player, whose number named none before. -/
def Obligations.ProgramCounterMovesOnlyAsItsRulesSay : Prop :=
  (∀ s t : State, step s = .next t →
    (∀ job, s.phase = .frame job → t.player.seqPos = s.player.seqPos ∧ t.player.rowPos = s.player.rowPos) ∧
    (∀ job w, s.phase = .row job → s.chan ≠ 3 → fetchRowWord s.player.buf (fetchAddress s) = .ok w →
      (decodeWord w).command ≠ 0xB#4 → (decodeWord w).command ≠ 0xD#4 →
      t.player.seqPos = s.player.seqPos ∧ t.player.rowPos = s.player.rowPos)) ∧
  (∀ (s t : State) (h : Nat) (p q : Player), Inv s → step s = .next t → s.phase = .idle →
    s.playerOf h = some p → t.playerOf h = some q →
    (∀ position, s.queue.head? ≠ some (.setSequencePosition h position)) →
    q.seqPos = p.seqPos ∧ q.rowPos = p.rowPos)

/-! ### Frames -/

/-- 44_mixer.md R165, R167: a frame step that raises no tick appends one mixed frame, counts the frame counter down by
one and changes the channels by their synthesis alone. -/
def Obligations.FrameWithoutTickOnlyRendersAndCounts : Prop :=
  ∀ (s : State) (n : Nat) (mode : MixMode) (x : Lanes) (cs : Channels),
    s.phase = .frame ⟨n + 1, mode⟩ → silenced s = false → s.player.samplesUntilTick ≠ 1 →
    synth s.params s.player.buf s.player.view s.player.ch.c0 = .ok (x.s0, cs.c0) →
    synth s.params s.player.buf s.player.view s.player.ch.c1 = .ok (x.s1, cs.c1) →
    synth s.params s.player.buf s.player.view s.player.ch.c2 = .ok (x.s2, cs.c2) →
    synth s.params s.player.buf s.player.view s.player.ch.c3 = .ok (x.s3, cs.c3) →
    step s = .next { s with
      phase := .frame ⟨n, mode⟩
      out := s.out ++ mix s.params mode x
      player := { s.player with ch := cs, samplesUntilTick := s.player.samplesUntilTick - 1 } }

/-- 44_mixer.md R165, R167: on the frame that takes the counter to 0 the frame is emitted first, then the counter is
reloaded from the old `st.spt`, then the tick runs. -/
def Obligations.TickComesAfterOutputAndReload : Prop :=
  ∀ (s : State) (n : Nat) (mode : MixMode) (x : Lanes) (cs : Channels),
    s.phase = .frame ⟨n + 1, mode⟩ → silenced s = false → s.player.samplesUntilTick = 1 →
    synthAll s.params s.player.buf s.player.view s.player.ch = .ok (x, cs) →
    renderStep ⟨n + 1, mode⟩ s = advanceTick ⟨n, mode⟩ { s with
      phase := .frame ⟨n, mode⟩
      out := s.out ++ mix s.params mode x
      player := { s.player with ch := cs, samplesUntilTick := s.player.spt } }

/-- 44_mixer.md R168 under SILENCE (the spec's decision D28): a finished player emits zeros and changes nothing
else. -/
def Obligations.SilencedFrameEmitsZerosAndFreezes : Prop :=
  ∀ (s : State) (n : Nat) (mode : MixMode),
    s.phase = .frame ⟨n + 1, mode⟩ → s.player.finished = true → s.params.postFinish = .silence →
    step s = .next { s with phase := .frame ⟨n, mode⟩, out := s.out ++ List.replicate (frameWidth mode) 0 }

/-- 70_reset_and_hazards.md R224: the first frame of a fresh player is zeros in every mode, and its tick starts the row
event of row 0 of `M.seq[0]`. -/
def Obligations.FirstFrameIsSilentAndStartsRowZero : Prop :=
  ∀ (s : State) (m : Memory) (v : View) (n : Nat) (mode : MixMode) (pat : Byte),
    s.player = freshPlayer s.params m v → s.phase = .frame ⟨n + 1, mode⟩ → v.seq[0]? = some pat →
    ∃ t, step s = .next t ∧ t.out = s.out ++ List.replicate (frameWidth mode) 0 ∧
      t.phase = .row ⟨n, mode⟩ ∧ t.chan = 0 ∧ t.rowBase = v.patternBase + 1024 * pat.toNat ∧
      t.player.samplesUntilTick = BitVec.ofNat 32 (125 * s.params.outputRate / 50 / 125) ∧
      t.player.tickCounter = 6 ∧ t.player.ch = Channels.reset

/-- 43_synthesizer.md R141: an inactive channel contributes 0 and keeps its record. -/
def Obligations.InactiveChannelIsSilentAndStill : Prop :=
  ∀ (P : Params) (m : Memory) (v : View) (c : Channel), c.active = false → synth P m v c = .ok (0, c)

/-- 43_synthesizer.md R141 to R145: the value of an active channel, from the two clamped sample bytes, the fraction and
the volume. The clamp of the first index (D9), the signed reading (D6), the flooring shift (D7) and `SIGNED_DIV` (D8)
are the spec's decisions. -/
def Obligations.ActiveChannelInterpolatesAndScales : Prop :=
  ∀ (P : Params) (m : Memory) (v : View) (c : Channel) (b1 b2 : Byte),
    let ins := v.instrument c.inst
    let k := c.pos.toNat / 4096
    let f : Int := (c.pos.toNat % 4096 : Nat)
    let y : Int := (b1.toInt * 256 * (4096 - f) + b2.toInt * 256 * f) / 4096
    c.active = true → 0 < ins.length →
    m.read (ins.start + min k (ins.length - 1)) = some b1 →
    m.read (ins.start + min (k + 1) (ins.length - 1)) = some b2 →
    synth P m v c = .ok
      (match P.signedDiv with
       | .trunc => (y * c.volume.toNat).tdiv 64
       | .floor => y * c.volume.toNat / 64, afterSample P c)

/-- 43_synthesizer.md R144: the interpolated value lies between the two samples. -/
def Obligations.InterpolationLiesBetweenTheSamples : Prop :=
  ∀ (c1 c2 : Int) (f : Nat), f < 4096 →
    min c1 c2 ≤ interpolate c1 c2 f ∧ interpolate c1 c2 f ≤ max c1 c2 ∧ interpolate c1 c2 0 = c1

/-- 43_synthesizer.md R150: the result of `synth` lies in -32768..32512, for every volume up to 64 and both roundings. -/
def Obligations.SynthesizedValueIsInRange : Prop :=
  ∀ (P : Params) (m : Memory) (v : View) (c c' : Channel) (x : Int),
    c.volume.toNat ≤ 64 → synth P m v c = .ok (x, c') → -32768 ≤ x ∧ x ≤ 32512

/-- 10_state.md R24, 43_synthesizer.md R146 to R150: synthesis of a channel that satisfies the invariant keeps it, its
sum never wraps, and the position is bounded by loop state with the increment `d` of this frame. The invariant holds the
loop bounds of a channel on the pseudo-instrument 0 at the model's choice (log 19). -/
def Obligations.SynthesisKeepsTheChannelBounded : Prop :=
  ∀ (P : Params) (m : Memory) (v : View) (c c' : Channel) (x : Int),
    ViewOk m v → ChannelOk v c → synth P m v c = .ok (x, c') →
    c.pos.toNat + c.inc.toNat < 2 ^ 32 ∧ ChannelOk v c' ∧
    (c.active = true → c'.loopState = .notLooping → c'.pos.toNat ≤ c'.lengthFx.toNat + c.inc.toNat) ∧
    (c'.loopState = .looping → c'.pos.toNat ≤ c'.lengthFx.toNat) ∧
    (c'.loopState = .loopTail → c'.pos.toNat ≤ c'.loopEndFx.toNat)

/-- 43_synthesizer.md R147 to R149, under both readings of the wrap (decision D11; RESET is the default): what an advance
does to `active`, `loop_state` and `pos`. Under SUBTRACT the wrapped position is `subtractWrap` of the advanced one, which
the next statement holds against the rule's loop. -/
def Obligations.AdvanceEndsLoopsOrWraps : Prop :=
  ∀ (P : Params) (c : Channel), c.active = true → c.pos.toNat + c.inc.toNat < 2 ^ 32 →
    c.loopEndFx.toNat ≤ c.lengthFx.toNat →
    let q := c.pos.toNat + c.inc.toNat
    let wrapped := match P.loopWrap with
      | .reset    => c.loopStartFx.toNat
      | .subtract => subtractWrap q c.loopStartFx.toNat c.loopEndFx.toNat
    let c' := afterSample P c
    c' = { c with active := c'.active, loopState := c'.loopState, pos := c'.pos } ∧
    (c.loopState = .notLooping →
      c'.pos.toNat = q ∧ c'.loopState = .notLooping ∧ (c'.active = true ↔ q ≤ c.lengthFx.toNat)) ∧
    (c.loopState = .looping → c'.active = true ∧
      (q ≤ c.lengthFx.toNat → c'.pos.toNat = q ∧ c'.loopState = .looping) ∧
      (c.lengthFx.toNat < q → c'.pos.toNat = wrapped ∧ c'.loopState = .loopTail)) ∧
    (c.loopState = .loopTail → c'.active = true ∧ c'.loopState = .loopTail ∧
      (q ≤ c.loopEndFx.toNat → c'.pos.toNat = q) ∧ (c.loopEndFx.toNat < q → c'.pos.toNat = wrapped))

/-- 43_synthesizer.md R149 with 70_reset_and_hazards.md R233: the one-step form of the SUBTRACT wrap is where the loop
`while pos > loop_end: pos <- pos - span` stops: after the fewest subtractions that bring the position to the loop end or
below. -/
def Obligations.SubtractWrapIsTheLoopsResult : Prop :=
  ∀ pos loopStart loopEnd : Nat, loopStart < loopEnd → loopEnd < pos →
    ∃ k, 1 ≤ k ∧ subtractWrap pos loopStart loopEnd + (loopEnd - loopStart) * k = pos ∧
      loopStart < subtractWrap pos loopStart loopEnd ∧ subtractWrap pos loopStart loopEnd ≤ loopEnd

/-- 20_memory.md R40: what `synth` gives depends on no byte outside the channel's own instrument. -/
def Obligations.SampleReadsStayInTheInstrument : Prop :=
  ∀ (P : Params) (m m' : Memory) (v : View) (c : Channel),
    (∀ a, (v.instrument c.inst).start ≤ a → a < (v.instrument c.inst).start + (v.instrument c.inst).length →
      m'.read a = m.read a) →
    synth P m' v c = synth P m v c

/-- 44_mixer.md R161 to R163: the three reductions of four lanes, under both roundings (decision D8). -/
def Obligations.MixModesReduceTheLanes : Prop :=
  ∀ (P : Params) (s : Lanes),
    let d : Int → Int → Int := fun a b => match P.signedDiv with | .trunc => a.tdiv b | .floor => a / b
    mixValues P .mono s = [d (s.s0 + s.s1 + s.s2 + s.s3) 4] ∧
    mixValues P .stereoHard s = [d (s.s0 + s.s3) 2, d (s.s1 + s.s2) 2] ∧
    mixValues P .stereoSoft s =
      [d (3 * (s.s0 + s.s3) + (s.s1 + s.s2)) 8, d (3 * (s.s1 + s.s2) + (s.s0 + s.s3)) 8]

/-- 44_mixer.md R164: for lanes in range every output lies in -32768..32512, so its 16-bit sample reads back as the
value, in every mode and under both roundings; a frame has as many samples as R184 says. -/
def Obligations.MixerOutputsFitSixteenBits : Prop :=
  ∀ (P : Params) (mode : MixMode) (s : Lanes),
    (-32768 ≤ s.s0 ∧ s.s0 ≤ 32512) → (-32768 ≤ s.s1 ∧ s.s1 ≤ 32512) →
    (-32768 ≤ s.s2 ∧ s.s2 ≤ 32512) → (-32768 ≤ s.s3 ∧ s.s3 ≤ 32512) →
    (∀ y ∈ mixValues P mode s, -32768 ≤ y ∧ y ≤ 32512) ∧
    (mix P mode s).map BitVec.toInt = mixValues P mode s ∧
    (mix P mode s).length = match mode with | .mono => 1 | .stereoSoft => 2 | .stereoHard => 2

/-- 43_synthesizer.md R140 and 44_mixer.md R166: over the admitted rates, periods and tempos both formulas stay in the
ranges the spec states, so they fit their 32-bit fields. The rate range is the spec's decision D3. -/
def Obligations.IncrementAndTickLengthStayInRange : Prop :=
  ∀ P : Params, P.wf = true →
    (∀ p, 1 ≤ p → p ≤ 4095 → 18 ≤ phaseInc P p ∧ phaseInc P p ≤ 3641344) ∧
    (∀ t, 32 ≤ t → t ≤ 255 → 39 ≤ samplesPerTick P t ∧ samplesPerTick P t ≤ 15000)

/-! ### Host operations -/

/-- 45_host_interface.md R181: `set_option` writes the option it names, nonzero is on; an unknown option is ignored
(decision D30). -/
def Obligations.SetOptionWritesOnlyItsOption : Prop :=
  ∀ (s : State) (o : HostOption) (value : Int) (rest : List HostOp),
    s.phase = .idle → s.queue = .setOption o value :: rest →
    step s = .next { s with
      queue := rest
      cfgLoop := (if o = .loop then decide (value ≠ 0) else s.cfgLoop)
      cfgSupportTempo := (if o = .supportTempo then decide (value ≠ 0) else s.cfgSupportTempo) }

/-- 45_host_interface.md R182: `get_sequence_length` on any player, current or parked, answers its `M.seq_len`, which is
1..128 in every state of the invariant, and changes no state of any player. -/
def Obligations.SequenceLengthIsAnswered : Prop :=
  ∀ (s : State) (h : Nat) (p : Player) (rest : List HostOp),
    s.phase = .idle → s.playerOf h = some p → s.queue = .getSequenceLength h :: rest →
    (∃ t, step s = .next t ∧
      t = { s with
        queue := rest, results := s.results ++ [.sequenceLength p.view.seqLen]
        player := t.player, handle := t.handle, parked := t.parked } ∧
      (s.handle = some h → t.player = s.player ∧ t.handle = s.handle ∧ t.parked = s.parked) ∧
      (Inv s → ∀ g, t.playerOf g = s.playerOf g)) ∧
    (Inv s → 1 ≤ p.view.seqLen ∧ p.view.seqLen ≤ 128)

/-- 45_host_interface.md R183: `set_sequence_position` on any player, current or parked, sets its position and row 0, or
does nothing at or past its length. That nothing else changes is the spec's decision D29; that the player becomes the
current one is the model's choice (log 5). -/
def Obligations.SetSequencePositionMovesOnlyTheProgramCounter : Prop :=
  ∀ (s : State) (h position : Nat) (p : Player) (rest : List HostOp),
    s.phase = .idle → s.playerOf h = some p → s.queue = .setSequencePosition h position :: rest →
    ∃ t, step s = .next t ∧ ActsOn s t h ∧
      t = { s with
        queue := rest, handle := some h, parked := t.parked
        player := { p with
          seqPos := (if position < p.view.seqLen then position else p.seqPos)
          rowPos := (if position < p.view.seqLen then 0 else p.rowPos) } }

/-- 45_host_interface.md R184, R185: a `render` with room, on any player, current or parked, begins with an empty output;
with no frame left it hands over its samples and `not st.finished`. Room is the host's duty of R189; that the player
becomes the current one is the model's choice (log 5), and that the begin and the end are steps of their own is too
(log 3). -/
def Obligations.RenderBeginsEmptyAndAnswersNotFinished : Prop :=
  ∀ (s : State) (h n room : Nat) (p : Player) (mode : MixMode) (rest : List HostOp),
    (s.phase = .idle → s.playerOf h = some p → s.queue = .render h n mode room :: rest →
      n * frameWidth mode ≤ room →
      ∃ t, step s = .next t ∧ ActsOn s t h ∧
        t = { s with
          queue := rest, out := [], phase := .frame ⟨n, mode⟩, player := p, handle := some h, parked := t.parked }) ∧
    (s.phase = .frame ⟨0, mode⟩ →
      step s = .next { s with
        phase := .idle, out := [], results := s.results ++ [.rendered (!s.player.finished) s.out] })

/-- 45_host_interface.md R180 with 10_state.md R25: `initialize` on a module that decodes makes a new player with every
register at its reset value and leaves the options as they are. The player's number is the model's (log 5). -/
def Obligations.InitializeSetsEveryResetValue : Prop :=
  ∀ (s : State) (bytes : List Byte) (v : View) (rest : List HostOp),
    s.phase = .idle → s.queue = .initializePlayer bytes :: rest → decodeModule (Memory.ofBytes bytes) = .ok (.ok v) →
    ∃ t, step s = .next t ∧
      t.player = {
        buf := Memory.ofBytes bytes, view := v, speed := 6, tempo := 125
        spt := BitVec.ofNat 32 (125 * s.params.outputRate / 50 / 125)
        seqPos := 0, rowPos := 0, tickCounter := 1, samplesUntilTick := 1, finished := false
        ch := ⟨Channel.reset, Channel.reset, Channel.reset, Channel.reset⟩ } ∧
      t.handle = some s.nextHandle ∧ t.results = s.results ++ [.player s.nextHandle] ∧
      t.cfgLoop = s.cfgLoop ∧ t.cfgSupportTempo = s.cfgSupportTempo ∧ t.phase = .idle

/-- 60_exceptions.md R201, 70_reset_and_hazards.md R222: an `initialize` that fails gives only the error. -/
def Obligations.FailedInitializeChangesNothing : Prop :=
  ∀ (s : State) (bytes : List Byte) (tag : Malformed) (rest : List HostOp),
    s.phase = .idle → s.queue = .initializePlayer bytes :: rest →
    decodeModule (Memory.ofBytes bytes) = .ok (.error tag) →
    step s = .next { s with queue := rest, results := s.results ++ [.malformed tag] }

/-- 40_decoder.md R71, R72, R76, R78, 60_exceptions.md R201: exactly when each tag is given; `SHORT_HEADER` wins. The
thresholds are the spec's decision D16, the length guard of the tag D41, the clamp of the length byte D15. -/
def Obligations.MalformedModuleHasExactlyTwoCauses : Prop :=
  ∀ bytes : List Byte,
    let byte : Nat → Byte := fun a => (bytes[a]?).getD 0
    let tagged : Bool :=
      decide (0x43C ≤ bytes.length) && decide ((bytes.drop 0x438).take 4 = [0x4D#8, 0x2E#8, 0x4B#8, 0x2E#8])
    let seqOff : Nat := if tagged then 0x3B8 else 0x1D8
    let base : Nat := if tagged then 0x43C else 0x258
    let seqLen := min (max (byte (seqOff - 2)).toNat 1) 128
    (decodeModule (Memory.ofBytes bytes) = .ok (.error .shortHeader) ↔ bytes.length < 0x258) ∧
    (decodeModule (Memory.ofBytes bytes) = .ok (.error .patternsBeyondBuffer) ↔
      0x258 ≤ bytes.length ∧ ∃ j, j < seqLen ∧ bytes.length < base + 1024 * ((byte (seqOff + j)).toNat + 1))

/-- 20_memory.md R39: the decoder reads nothing outside the buffer, whatever the buffer holds. -/
def Obligations.DecoderNeverReadsOutside : Prop :=
  ∀ (bytes : List Byte) (f : Fault), decodeModule (Memory.ofBytes bytes) ≠ .error f

/-- 10_state.md R21, R22, 40_decoder.md R73 to R80: a view that decodes has the ranges the spec states. -/
def Obligations.DecodedViewIsWellFormed : Prop :=
  ∀ (bytes : List Byte) (v : View), decodeModule (Memory.ofBytes bytes) = .ok (.ok v) → ViewOk (Memory.ofBytes bytes) v

/-- 40_decoder.md R72 to R80, 30_encoding.md R59: every field of a decoded view, from the bytes of the module: the tag at
0x438 of a buffer long enough to hold it selects the layout, the used patterns end at `sample_start`, and the instruments
follow one another from there by their raw lengths, cut at the buffer end. The length guard of the tag, the clamps and the
cuts are the spec's decisions D41, D12 to D15 and D17; the tag's byte values are log 17 (PRESUMED). -/
def Obligations.DecodedViewHoldsTheHeaderFields : Prop :=
  ∀ (bytes : List Byte) (v : View), decodeModule (Memory.ofBytes bytes) = .ok (.ok v) →
    let byte : Nat → Nat := fun a => ((bytes[a]?).getD 0).toNat
    let half : Nat → Nat := fun a => byte a * 256 + byte (a + 1)
    let header : Nat → Nat := fun k => 0x14 + 30 * k
    let tagged : Bool :=
      decide (0x43C ≤ bytes.length) && decide ((bytes.drop 0x438).take 4 = [0x4D#8, 0x2E#8, 0x4B#8, 0x2E#8])
    let seqOff : Nat := if tagged then 0x3B8 else 0x1D8
    v.ninst = (if tagged then 31 else 15) ∧
    v.patternBase = (if tagged then 0x43C else 0x258) ∧
    v.title = bytes.take 20 ∧
    v.seqLen = min (max (byte (seqOff - 2)) 1) 128 ∧
    v.seq = (bytes.drop seqOff).take 128 ∧
    (∀ j, j < v.seqLen → v.patternBase + 1024 * (byte (seqOff + j) + 1) ≤ v.sampleStart) ∧
    (∃ j, j < v.seqLen ∧ v.sampleStart = v.patternBase + 1024 * (byte (seqOff + j) + 1)) ∧
    v.insts.length = v.ninst ∧
    ∀ k, k < v.ninst →
      let start := v.sampleStart + ((List.range k).map fun j => half (header j + 22) * 2).sum
      let length := min (half (header k + 22) * 2) (bytes.length - start)
      let loopStart := half (header k + 26) * 2
      let loopRaw := half (header k + 28)
      let loops := decide (1 < loopRaw) && decide (loopStart < length)
      v.insts[k]? = some {
        start := start, length := length, volume := BitVec.ofNat 7 (min (byte (header k + 25) % 128) 64)
        hasLoop := loops
        loopStart := (if loops then loopStart else 0)
        loopEnd := (if loops then min (loopStart + 2 * loopRaw) length else 0) }

/-- 45_host_interface.md R190: an operation on a player that does not exist is refused. -/
def Obligations.OperationsNeedAPlayer : Prop :=
  ∀ (s : State) (op : HostOp) (h : Nat) (rest : List HostOp),
    s.phase = .idle → s.queue = op :: rest → opPlayer op = some h → s.playerOf h = none →
    step s = .refused .noPlayer

/-- 45_host_interface.md R189, 70_reset_and_hazards.md R231: a `render` without room, and a host that disturbs a live
player's buffer, are refused. That room is counted in samples is the model's choice (log 13). -/
def Obligations.BrokenHostDutiesAreRefused : Prop :=
  ∀ (s : State) (p : Player) (h n room : Nat) (mode : MixMode) (rest : List HostOp),
    s.phase = .idle → s.playerOf h = some p →
    (s.queue = .render h n mode room :: rest → room < n * frameWidth mode → step s = .refused .outputRoom) ∧
    (s.queue = .disturbBuffer h :: rest → step s = .refused .bufferDisturbed)

/-! ### Whole-machine rules -/

/-- 70_reset_and_hazards.md R221, 10_state.md R25: at power-up the options are on and there is no player; the parameters
have the defaults of 00_scope.md R4. That `cfg` is global is the spec's decision D30. -/
def Obligations.PowerUpHasOptionsOnAndNoPlayer : Prop :=
  State.reset.cfgLoop = true ∧ State.reset.cfgSupportTempo = true ∧ (∀ h, State.reset.playerOf h = none) ∧
  State.reset.phase = .idle ∧
  State.reset.params = ⟨44100, .trunc, .reset, .int8, .upDecreases, .max31, .target, .playOn⟩

/-- The invariant holds at power-up. -/
def Obligations.InvariantHoldsAtReset : Prop := Inv State.reset

/-- 10_state.md R24 and the ranges of R11 to R22: every step keeps the invariant, from every state that satisfies it.
For a channel on the pseudo-instrument 0 it holds the loop bounds at the model's choice of 0 (log 19). -/
def Obligations.EveryStepKeepsTheInvariant : Prop :=
  ∀ s t : State, Inv s → step s = .next t → Inv t

/-- 20_memory.md R39: no step reads outside the module buffer, outside an instrument or past the sequence table, from
every state that satisfies the invariant. -/
def Obligations.NoStepFaultsFromTheInvariant : Prop :=
  ∀ (s : State) (f : Fault), Inv s → step s ≠ .fault f

/-- 45_host_interface.md R184, R185, 70_reset_and_hazards.md R233: from every state of the invariant a `render` with `n`
frames to do ends with exactly `n` frames of samples and with `not st.finished`. The bound of 5n + 1 steps counts the
model's steps (a frame, a row word, the end of the `render`), and what a step is is the model's choice (log 3). -/
def Obligations.EveryRenderCompletes : Prop :=
  ∀ (s : State) (n : Nat) (mode : MixMode), Inv s → s.phase = .frame ⟨n, mode⟩ →
    ∃ k t samples, k ≤ 5 * n + 1 ∧ Host.Core.run core k s = .next t ∧ Inv t ∧ t.phase = .idle ∧
      samples.length = n * frameWidth mode ∧
      t.results = s.results ++ [.rendered (!t.player.finished) (s.out ++ samples)]

/-- 10_state.md R16, 45_host_interface.md R185: no step clears the latch of a player, so one that `render` reported
finished is finished ever after; with `cfg.LOOP` on no step sets it. -/
def Obligations.FinishedIsALatch : Prop :=
  ∀ (s t : State) (h : Nat) (p q : Player), Inv s → step s = .next t →
    s.playerOf h = some p → t.playerOf h = some q →
    (p.finished = true → q.finished = true) ∧ (s.cfgLoop = true → q.finished = p.finished)

/-- 60_exceptions.md R210: a step changes no player but the one it acts on. Which player that is, the operand of the
operation, is the model's reading (log 5). -/
def Obligations.OtherPlayersAreUntouched : Prop :=
  ∀ (s t : State) (h : Nat) (p : Player), Inv s → step s = .next t →
    s.playerOf h = some p → actingPlayer s ≠ some h → t.playerOf h = some p

/-- 10_state.md R21, 20_memory.md R43: no step changes the decoded view or the module buffer of a player. -/
def Obligations.ViewAndBufferNeverChange : Prop :=
  ∀ (s t : State) (h : Nat) (p q : Player), Inv s → step s = .next t →
    s.playerOf h = some p → t.playerOf h = some q → q.view = p.view ∧ q.buf = p.buf

/-- 10_state.md R11: no step writes a parameter, and only `set_option` writes an option. -/
def Obligations.OnlySetOptionWritesTheConfiguration : Prop :=
  ∀ s t : State, step s = .next t →
    t.params = s.params ∧
    (s.phase ≠ .idle ∨ (∀ o value, s.queue.head? ≠ some (.setOption o value)) →
      t.cfgLoop = s.cfgLoop ∧ t.cfgSupportTempo = s.cfgSupportTempo)

/-- 60_exceptions.md R202: no rule reads the diagnostic stream back: earlier events change nothing but themselves. -/
def Obligations.DiagnosticsAreNeverReadBack : Prop :=
  ∀ (s : State) (ds : List Diag),
    step { s with diags := ds ++ s.diags } = mapNext (fun t => { t with diags := ds ++ t.diags }) (step s)

/-- 45_host_interface.md R186: how the host splits frames into calls does not matter. How many frames of a `render` are
still to come changes nothing a step does; and two calls one after the other, on any player and with room, emit the
samples of one call for all the frames, return last what it returns, and leave every register and stream but the answers
as it does. That an operation ends after some number of steps is how the model says "after the call" (log 3). -/
def Obligations.SplittingARenderChangesNoSample : Prop :=
  (∀ (s : State) (n : Nat), s.phase ≠ .idle → (∀ mode, s.phase ≠ .frame ⟨0, mode⟩) →
    step (addFrames n s) = mapNext (addFrames n) (step s)) ∧
  (∀ (s : State) (h n₁ n₂ room₁ room₂ room : Nat) (p : Player) (mode : MixMode) (rest : List HostOp),
    Inv s → s.phase = .idle → s.playerOf h = some p →
    n₁ * frameWidth mode ≤ room₁ → n₂ * frameWidth mode ≤ room₂ → (n₁ + n₂) * frameWidth mode ≤ room →
    ∃ k₁ k₂ t u more₁ more₂ x₁ x₂,
      Host.Core.run core k₁ { s with queue := .render h n₁ mode room₁ :: .render h n₂ mode room₂ :: rest } = .next t ∧
      Host.Core.run core k₂ { s with queue := .render h (n₁ + n₂) mode room :: rest } = .next u ∧
      t.phase = .idle ∧ t.queue = rest ∧
      x₁.length = n₁ * frameWidth mode ∧ x₂.length = n₂ * frameWidth mode ∧
      t.results = s.results ++ [.rendered more₁ x₁, .rendered more₂ x₂] ∧
      u.results = s.results ++ [.rendered more₂ (x₁ ++ x₂)] ∧
      u = { t with results := u.results })
end

