-- ==== Sys2Proof/Laws/State.lean ====
section
/-! SUPPORT. The named updates of State: one lemma per field per update, true by rfl, so that no proof unfolds a record
update. -/

namespace Sys2Proof.Machine.State

/-! ### `setChannel` -/

@[simp] theorem setChannel_params (s : State) (c : Channel) : (s.setChannel c).params = s.params := rfl
@[simp] theorem setChannel_cfgLoop (s : State) (c : Channel) : (s.setChannel c).cfgLoop = s.cfgLoop := rfl
@[simp] theorem setChannel_cfgSupportTempo (s : State) (c : Channel) : (s.setChannel c).cfgSupportTempo = s.cfgSupportTempo := rfl
@[simp] theorem setChannel_handle (s : State) (c : Channel) : (s.setChannel c).handle = s.handle := rfl
@[simp] theorem setChannel_parked (s : State) (c : Channel) : (s.setChannel c).parked = s.parked := rfl
@[simp] theorem setChannel_nextHandle (s : State) (c : Channel) : (s.setChannel c).nextHandle = s.nextHandle := rfl
@[simp] theorem setChannel_phase (s : State) (c : Channel) : (s.setChannel c).phase = s.phase := rfl
@[simp] theorem setChannel_chan (s : State) (c : Channel) : (s.setChannel c).chan = s.chan := rfl
@[simp] theorem setChannel_rowBase (s : State) (c : Channel) : (s.setChannel c).rowBase = s.rowBase := rfl
@[simp] theorem setChannel_flowTaken (s : State) (c : Channel) : (s.setChannel c).flowTaken = s.flowTaken := rfl
@[simp] theorem setChannel_flowMarker (s : State) (c : Channel) : (s.setChannel c).flowMarker = s.flowMarker := rfl
@[simp] theorem setChannel_queue (s : State) (c : Channel) : (s.setChannel c).queue = s.queue := rfl
@[simp] theorem setChannel_out (s : State) (c : Channel) : (s.setChannel c).out = s.out := rfl
@[simp] theorem setChannel_results (s : State) (c : Channel) : (s.setChannel c).results = s.results := rfl
@[simp] theorem setChannel_diags (s : State) (c : Channel) : (s.setChannel c).diags = s.diags := rfl
@[simp] theorem setChannel_player_buf (s : State) (c : Channel) : (s.setChannel c).player.buf = s.player.buf := rfl
@[simp] theorem setChannel_player_view (s : State) (c : Channel) : (s.setChannel c).player.view = s.player.view := rfl
@[simp] theorem setChannel_player_speed (s : State) (c : Channel) : (s.setChannel c).player.speed = s.player.speed := rfl
@[simp] theorem setChannel_player_tempo (s : State) (c : Channel) : (s.setChannel c).player.tempo = s.player.tempo := rfl
@[simp] theorem setChannel_player_spt (s : State) (c : Channel) : (s.setChannel c).player.spt = s.player.spt := rfl
@[simp] theorem setChannel_player_seqPos (s : State) (c : Channel) : (s.setChannel c).player.seqPos = s.player.seqPos := rfl
@[simp] theorem setChannel_player_rowPos (s : State) (c : Channel) : (s.setChannel c).player.rowPos = s.player.rowPos := rfl
@[simp] theorem setChannel_player_tickCounter (s : State) (c : Channel) : (s.setChannel c).player.tickCounter = s.player.tickCounter := rfl
@[simp] theorem setChannel_player_samplesUntilTick (s : State) (c : Channel) : (s.setChannel c).player.samplesUntilTick = s.player.samplesUntilTick := rfl
@[simp] theorem setChannel_player_finished (s : State) (c : Channel) : (s.setChannel c).player.finished = s.player.finished := rfl
@[simp] theorem setChannel_player_ch (s : State) (c : Channel) : (s.setChannel c).player.ch = s.player.ch.set s.chan c := rfl
@[simp] theorem setChannel_memByte (s : State) (c : Channel) (x : Nat) : (s.setChannel c).memByte x = s.memByte x := rfl

/-! ### `setPc` -/

@[simp] theorem setPc_params (s : State) (a b : Nat) : (s.setPc a b).params = s.params := rfl
@[simp] theorem setPc_cfgLoop (s : State) (a b : Nat) : (s.setPc a b).cfgLoop = s.cfgLoop := rfl
@[simp] theorem setPc_cfgSupportTempo (s : State) (a b : Nat) : (s.setPc a b).cfgSupportTempo = s.cfgSupportTempo := rfl
@[simp] theorem setPc_handle (s : State) (a b : Nat) : (s.setPc a b).handle = s.handle := rfl
@[simp] theorem setPc_parked (s : State) (a b : Nat) : (s.setPc a b).parked = s.parked := rfl
@[simp] theorem setPc_nextHandle (s : State) (a b : Nat) : (s.setPc a b).nextHandle = s.nextHandle := rfl
@[simp] theorem setPc_phase (s : State) (a b : Nat) : (s.setPc a b).phase = s.phase := rfl
@[simp] theorem setPc_chan (s : State) (a b : Nat) : (s.setPc a b).chan = s.chan := rfl
@[simp] theorem setPc_rowBase (s : State) (a b : Nat) : (s.setPc a b).rowBase = s.rowBase := rfl
@[simp] theorem setPc_flowTaken (s : State) (a b : Nat) : (s.setPc a b).flowTaken = s.flowTaken := rfl
@[simp] theorem setPc_flowMarker (s : State) (a b : Nat) : (s.setPc a b).flowMarker = s.flowMarker := rfl
@[simp] theorem setPc_queue (s : State) (a b : Nat) : (s.setPc a b).queue = s.queue := rfl
@[simp] theorem setPc_out (s : State) (a b : Nat) : (s.setPc a b).out = s.out := rfl
@[simp] theorem setPc_results (s : State) (a b : Nat) : (s.setPc a b).results = s.results := rfl
@[simp] theorem setPc_diags (s : State) (a b : Nat) : (s.setPc a b).diags = s.diags := rfl
@[simp] theorem setPc_player_buf (s : State) (a b : Nat) : (s.setPc a b).player.buf = s.player.buf := rfl
@[simp] theorem setPc_player_view (s : State) (a b : Nat) : (s.setPc a b).player.view = s.player.view := rfl
@[simp] theorem setPc_player_speed (s : State) (a b : Nat) : (s.setPc a b).player.speed = s.player.speed := rfl
@[simp] theorem setPc_player_tempo (s : State) (a b : Nat) : (s.setPc a b).player.tempo = s.player.tempo := rfl
@[simp] theorem setPc_player_spt (s : State) (a b : Nat) : (s.setPc a b).player.spt = s.player.spt := rfl
@[simp] theorem setPc_player_seqPos (s : State) (a b : Nat) : (s.setPc a b).player.seqPos = a := rfl
@[simp] theorem setPc_player_rowPos (s : State) (a b : Nat) : (s.setPc a b).player.rowPos = b := rfl
@[simp] theorem setPc_player_tickCounter (s : State) (a b : Nat) : (s.setPc a b).player.tickCounter = s.player.tickCounter := rfl
@[simp] theorem setPc_player_samplesUntilTick (s : State) (a b : Nat) : (s.setPc a b).player.samplesUntilTick = s.player.samplesUntilTick := rfl
@[simp] theorem setPc_player_finished (s : State) (a b : Nat) : (s.setPc a b).player.finished = s.player.finished := rfl
@[simp] theorem setPc_player_ch (s : State) (a b : Nat) : (s.setPc a b).player.ch = s.player.ch := rfl
@[simp] theorem setPc_memByte (s : State) (a b : Nat) (x : Nat) : (s.setPc a b).memByte x = s.memByte x := rfl
@[simp] theorem setPc_channel (s : State) (a b : Nat) : (s.setPc a b).channel = s.channel := rfl

/-! ### `markFlow` -/

@[simp] theorem markFlow_params (s : State) (m : Bool) : (s.markFlow m).params = s.params := rfl
@[simp] theorem markFlow_cfgLoop (s : State) (m : Bool) : (s.markFlow m).cfgLoop = s.cfgLoop := rfl
@[simp] theorem markFlow_cfgSupportTempo (s : State) (m : Bool) : (s.markFlow m).cfgSupportTempo = s.cfgSupportTempo := rfl
@[simp] theorem markFlow_handle (s : State) (m : Bool) : (s.markFlow m).handle = s.handle := rfl
@[simp] theorem markFlow_parked (s : State) (m : Bool) : (s.markFlow m).parked = s.parked := rfl
@[simp] theorem markFlow_nextHandle (s : State) (m : Bool) : (s.markFlow m).nextHandle = s.nextHandle := rfl
@[simp] theorem markFlow_phase (s : State) (m : Bool) : (s.markFlow m).phase = s.phase := rfl
@[simp] theorem markFlow_chan (s : State) (m : Bool) : (s.markFlow m).chan = s.chan := rfl
@[simp] theorem markFlow_rowBase (s : State) (m : Bool) : (s.markFlow m).rowBase = s.rowBase := rfl
@[simp] theorem markFlow_flowTaken (s : State) (m : Bool) : (s.markFlow m).flowTaken = true := rfl
@[simp] theorem markFlow_flowMarker (s : State) (m : Bool) : (s.markFlow m).flowMarker = (s.flowMarker || m) := rfl
@[simp] theorem markFlow_queue (s : State) (m : Bool) : (s.markFlow m).queue = s.queue := rfl
@[simp] theorem markFlow_out (s : State) (m : Bool) : (s.markFlow m).out = s.out := rfl
@[simp] theorem markFlow_results (s : State) (m : Bool) : (s.markFlow m).results = s.results := rfl
@[simp] theorem markFlow_diags (s : State) (m : Bool) : (s.markFlow m).diags = s.diags := rfl
@[simp] theorem markFlow_player (s : State) (m : Bool) : (s.markFlow m).player = s.player := rfl
@[simp] theorem markFlow_memByte (s : State) (m : Bool) (x : Nat) : (s.markFlow m).memByte x = s.memByte x := rfl
@[simp] theorem markFlow_channel (s : State) (m : Bool) : (s.markFlow m).channel = s.channel := rfl

/-! ### `setSpeed` -/

@[simp] theorem setSpeed_params (s : State) (v : BitVec 8) : (s.setSpeed v).params = s.params := rfl
@[simp] theorem setSpeed_cfgLoop (s : State) (v : BitVec 8) : (s.setSpeed v).cfgLoop = s.cfgLoop := rfl
@[simp] theorem setSpeed_cfgSupportTempo (s : State) (v : BitVec 8) : (s.setSpeed v).cfgSupportTempo = s.cfgSupportTempo := rfl
@[simp] theorem setSpeed_handle (s : State) (v : BitVec 8) : (s.setSpeed v).handle = s.handle := rfl
@[simp] theorem setSpeed_parked (s : State) (v : BitVec 8) : (s.setSpeed v).parked = s.parked := rfl
@[simp] theorem setSpeed_nextHandle (s : State) (v : BitVec 8) : (s.setSpeed v).nextHandle = s.nextHandle := rfl
@[simp] theorem setSpeed_phase (s : State) (v : BitVec 8) : (s.setSpeed v).phase = s.phase := rfl
@[simp] theorem setSpeed_chan (s : State) (v : BitVec 8) : (s.setSpeed v).chan = s.chan := rfl
@[simp] theorem setSpeed_rowBase (s : State) (v : BitVec 8) : (s.setSpeed v).rowBase = s.rowBase := rfl
@[simp] theorem setSpeed_flowTaken (s : State) (v : BitVec 8) : (s.setSpeed v).flowTaken = s.flowTaken := rfl
@[simp] theorem setSpeed_flowMarker (s : State) (v : BitVec 8) : (s.setSpeed v).flowMarker = s.flowMarker := rfl
@[simp] theorem setSpeed_queue (s : State) (v : BitVec 8) : (s.setSpeed v).queue = s.queue := rfl
@[simp] theorem setSpeed_out (s : State) (v : BitVec 8) : (s.setSpeed v).out = s.out := rfl
@[simp] theorem setSpeed_results (s : State) (v : BitVec 8) : (s.setSpeed v).results = s.results := rfl
@[simp] theorem setSpeed_diags (s : State) (v : BitVec 8) : (s.setSpeed v).diags = s.diags := rfl
@[simp] theorem setSpeed_player_buf (s : State) (v : BitVec 8) : (s.setSpeed v).player.buf = s.player.buf := rfl
@[simp] theorem setSpeed_player_view (s : State) (v : BitVec 8) : (s.setSpeed v).player.view = s.player.view := rfl
@[simp] theorem setSpeed_player_speed (s : State) (v : BitVec 8) : (s.setSpeed v).player.speed = v := rfl
@[simp] theorem setSpeed_player_tempo (s : State) (v : BitVec 8) : (s.setSpeed v).player.tempo = s.player.tempo := rfl
@[simp] theorem setSpeed_player_spt (s : State) (v : BitVec 8) : (s.setSpeed v).player.spt = s.player.spt := rfl
@[simp] theorem setSpeed_player_seqPos (s : State) (v : BitVec 8) : (s.setSpeed v).player.seqPos = s.player.seqPos := rfl
@[simp] theorem setSpeed_player_rowPos (s : State) (v : BitVec 8) : (s.setSpeed v).player.rowPos = s.player.rowPos := rfl
@[simp] theorem setSpeed_player_tickCounter (s : State) (v : BitVec 8) : (s.setSpeed v).player.tickCounter = v := rfl
@[simp] theorem setSpeed_player_samplesUntilTick (s : State) (v : BitVec 8) : (s.setSpeed v).player.samplesUntilTick = s.player.samplesUntilTick := rfl
@[simp] theorem setSpeed_player_finished (s : State) (v : BitVec 8) : (s.setSpeed v).player.finished = s.player.finished := rfl
@[simp] theorem setSpeed_player_ch (s : State) (v : BitVec 8) : (s.setSpeed v).player.ch = s.player.ch := rfl
@[simp] theorem setSpeed_memByte (s : State) (v : BitVec 8) (x : Nat) : (s.setSpeed v).memByte x = s.memByte x := rfl
@[simp] theorem setSpeed_channel (s : State) (v : BitVec 8) : (s.setSpeed v).channel = s.channel := rfl

/-! ### `setTempo` -/

@[simp] theorem setTempo_params (s : State) (v : BitVec 8) : (s.setTempo v).params = s.params := rfl
@[simp] theorem setTempo_cfgLoop (s : State) (v : BitVec 8) : (s.setTempo v).cfgLoop = s.cfgLoop := rfl
@[simp] theorem setTempo_cfgSupportTempo (s : State) (v : BitVec 8) : (s.setTempo v).cfgSupportTempo = s.cfgSupportTempo := rfl
@[simp] theorem setTempo_handle (s : State) (v : BitVec 8) : (s.setTempo v).handle = s.handle := rfl
@[simp] theorem setTempo_parked (s : State) (v : BitVec 8) : (s.setTempo v).parked = s.parked := rfl
@[simp] theorem setTempo_nextHandle (s : State) (v : BitVec 8) : (s.setTempo v).nextHandle = s.nextHandle := rfl
@[simp] theorem setTempo_phase (s : State) (v : BitVec 8) : (s.setTempo v).phase = s.phase := rfl
@[simp] theorem setTempo_chan (s : State) (v : BitVec 8) : (s.setTempo v).chan = s.chan := rfl
@[simp] theorem setTempo_rowBase (s : State) (v : BitVec 8) : (s.setTempo v).rowBase = s.rowBase := rfl
@[simp] theorem setTempo_flowTaken (s : State) (v : BitVec 8) : (s.setTempo v).flowTaken = s.flowTaken := rfl
@[simp] theorem setTempo_flowMarker (s : State) (v : BitVec 8) : (s.setTempo v).flowMarker = s.flowMarker := rfl
@[simp] theorem setTempo_queue (s : State) (v : BitVec 8) : (s.setTempo v).queue = s.queue := rfl
@[simp] theorem setTempo_out (s : State) (v : BitVec 8) : (s.setTempo v).out = s.out := rfl
@[simp] theorem setTempo_results (s : State) (v : BitVec 8) : (s.setTempo v).results = s.results := rfl
@[simp] theorem setTempo_diags (s : State) (v : BitVec 8) : (s.setTempo v).diags = s.diags := rfl
@[simp] theorem setTempo_player_buf (s : State) (v : BitVec 8) : (s.setTempo v).player.buf = s.player.buf := rfl
@[simp] theorem setTempo_player_view (s : State) (v : BitVec 8) : (s.setTempo v).player.view = s.player.view := rfl
@[simp] theorem setTempo_player_speed (s : State) (v : BitVec 8) : (s.setTempo v).player.speed = s.player.speed := rfl
@[simp] theorem setTempo_player_tempo (s : State) (v : BitVec 8) : (s.setTempo v).player.tempo = v := rfl
@[simp] theorem setTempo_player_spt (s : State) (v : BitVec 8) : (s.setTempo v).player.spt = BitVec.ofNat 32 (samplesPerTick s.params v.toNat) := rfl
@[simp] theorem setTempo_player_seqPos (s : State) (v : BitVec 8) : (s.setTempo v).player.seqPos = s.player.seqPos := rfl
@[simp] theorem setTempo_player_rowPos (s : State) (v : BitVec 8) : (s.setTempo v).player.rowPos = s.player.rowPos := rfl
@[simp] theorem setTempo_player_tickCounter (s : State) (v : BitVec 8) : (s.setTempo v).player.tickCounter = s.player.tickCounter := rfl
@[simp] theorem setTempo_player_samplesUntilTick (s : State) (v : BitVec 8) : (s.setTempo v).player.samplesUntilTick = s.player.samplesUntilTick := rfl
@[simp] theorem setTempo_player_finished (s : State) (v : BitVec 8) : (s.setTempo v).player.finished = s.player.finished := rfl
@[simp] theorem setTempo_player_ch (s : State) (v : BitVec 8) : (s.setTempo v).player.ch = s.player.ch := rfl
@[simp] theorem setTempo_memByte (s : State) (v : BitVec 8) (x : Nat) : (s.setTempo v).memByte x = s.memByte x := rfl
@[simp] theorem setTempo_channel (s : State) (v : BitVec 8) : (s.setTempo v).channel = s.channel := rfl

/-! ### `emitDiag` -/

@[simp] theorem emitDiag_params (s : State) (k : DiagKind) (c : BitVec 4) (v : BitVec 8) : (s.emitDiag k c v).params = s.params := rfl
@[simp] theorem emitDiag_cfgLoop (s : State) (k : DiagKind) (c : BitVec 4) (v : BitVec 8) : (s.emitDiag k c v).cfgLoop = s.cfgLoop := rfl
@[simp] theorem emitDiag_cfgSupportTempo (s : State) (k : DiagKind) (c : BitVec 4) (v : BitVec 8) : (s.emitDiag k c v).cfgSupportTempo = s.cfgSupportTempo := rfl
@[simp] theorem emitDiag_handle (s : State) (k : DiagKind) (c : BitVec 4) (v : BitVec 8) : (s.emitDiag k c v).handle = s.handle := rfl
@[simp] theorem emitDiag_parked (s : State) (k : DiagKind) (c : BitVec 4) (v : BitVec 8) : (s.emitDiag k c v).parked = s.parked := rfl
@[simp] theorem emitDiag_nextHandle (s : State) (k : DiagKind) (c : BitVec 4) (v : BitVec 8) : (s.emitDiag k c v).nextHandle = s.nextHandle := rfl
@[simp] theorem emitDiag_phase (s : State) (k : DiagKind) (c : BitVec 4) (v : BitVec 8) : (s.emitDiag k c v).phase = s.phase := rfl
@[simp] theorem emitDiag_chan (s : State) (k : DiagKind) (c : BitVec 4) (v : BitVec 8) : (s.emitDiag k c v).chan = s.chan := rfl
@[simp] theorem emitDiag_rowBase (s : State) (k : DiagKind) (c : BitVec 4) (v : BitVec 8) : (s.emitDiag k c v).rowBase = s.rowBase := rfl
@[simp] theorem emitDiag_flowTaken (s : State) (k : DiagKind) (c : BitVec 4) (v : BitVec 8) : (s.emitDiag k c v).flowTaken = s.flowTaken := rfl
@[simp] theorem emitDiag_flowMarker (s : State) (k : DiagKind) (c : BitVec 4) (v : BitVec 8) : (s.emitDiag k c v).flowMarker = s.flowMarker := rfl
@[simp] theorem emitDiag_queue (s : State) (k : DiagKind) (c : BitVec 4) (v : BitVec 8) : (s.emitDiag k c v).queue = s.queue := rfl
@[simp] theorem emitDiag_out (s : State) (k : DiagKind) (c : BitVec 4) (v : BitVec 8) : (s.emitDiag k c v).out = s.out := rfl
@[simp] theorem emitDiag_results (s : State) (k : DiagKind) (c : BitVec 4) (v : BitVec 8) : (s.emitDiag k c v).results = s.results := rfl
@[simp] theorem emitDiag_diags (s : State) (k : DiagKind) (c : BitVec 4) (v : BitVec 8) : (s.emitDiag k c v).diags = s.diags ++ [⟨k, s.chan, c, v⟩] := rfl
@[simp] theorem emitDiag_player (s : State) (k : DiagKind) (c : BitVec 4) (v : BitVec 8) : (s.emitDiag k c v).player = s.player := rfl
@[simp] theorem emitDiag_memByte (s : State) (k : DiagKind) (c : BitVec 4) (v : BitVec 8) (x : Nat) : (s.emitDiag k c v).memByte x = s.memByte x := rfl
@[simp] theorem emitDiag_channel (s : State) (k : DiagKind) (c : BitVec 4) (v : BitVec 8) : (s.emitDiag k c v).channel = s.channel := rfl

end Sys2Proof.Machine.State
end

