-- ==== Sys2Proof/Laws/Channels.lean ====
section
/-! SUPPORT. The four channel records: read after write, other channels, and the map over all four. -/

namespace Sys2Proof.Machine

/-- A statement about every channel number is four statements. -/
theorem forall_fin4 {p : Fin 4 → Prop} : (∀ i, p i) ↔ p 0 ∧ p 1 ∧ p 2 ∧ p 3 :=
  ⟨fun h => ⟨h 0, h 1, h 2, h 3⟩, fun ⟨h0, h1, h2, h3⟩ i => by
    match i with
    | 0 => exact h0
    | 1 => exact h1
    | 2 => exact h2
    | 3 => exact h3⟩

namespace Channels

@[simp] theorem get_zero (cs : Channels) : cs.get 0 = cs.c0 := rfl
@[simp] theorem get_one (cs : Channels) : cs.get 1 = cs.c1 := rfl
@[simp] theorem get_two (cs : Channels) : cs.get 2 = cs.c2 := rfl
@[simp] theorem get_three (cs : Channels) : cs.get 3 = cs.c3 := rfl

@[simp] theorem get_set_same (cs : Channels) (i : Fin 4) (c : Channel) : (cs.set i c).get i = c := by
  revert i
  exact forall_fin4.mpr ⟨rfl, rfl, rfl, rfl⟩

theorem get_set_other (cs : Channels) (i j : Fin 4) (c : Channel) (h : j ≠ i) : (cs.set i c).get j = cs.get j := by
  revert j
  revert i
  refine forall_fin4.mpr ⟨?_, ?_, ?_, ?_⟩ <;> refine forall_fin4.mpr ⟨?_, ?_, ?_, ?_⟩ <;> intro h <;>
    first | rfl | exact absurd rfl h

@[simp] theorem get_map (cs : Channels) (f : Channel → Channel) (i : Fin 4) : (cs.map f).get i = f (cs.get i) := by
  revert i
  exact forall_fin4.mpr ⟨rfl, rfl, rfl, rfl⟩

@[simp] theorem set_set (cs : Channels) (i : Fin 4) (c d : Channel) : (cs.set i c).set i d = cs.set i d := by
  revert i
  exact forall_fin4.mpr ⟨rfl, rfl, rfl, rfl⟩

/-- Two channel files with the same channels are the same. -/
theorem ext_get {cs ds : Channels} (h : ∀ i, cs.get i = ds.get i) : cs = ds := by
  have h0 : cs.c0 = ds.c0 := h 0
  have h1 : cs.c1 = ds.c1 := h 1
  have h2 : cs.c2 = ds.c2 := h 2
  have h3 : cs.c3 = ds.c3 := h 3
  cases cs
  cases ds
  simp_all

end Channels

namespace State

@[simp] theorem setChannel_channel (s : State) (c : Channel) : (s.setChannel c).channel = c :=
  Channels.get_set_same _ _ _

@[simp] theorem setChannel_setChannel (s : State) (c d : Channel) : (s.setChannel c).setChannel d = s.setChannel d := by
  simp [setChannel]

end State

end Sys2Proof.Machine
end

