-- ==== Sys2Proof/Laws/Encoding.lean ====
section
/-! SUPPORT. Row words as numbers, and the fields of a packed row word read back. -/

namespace Sys2Proof

/-- A concatenation as a number. -/
theorem toNat_append_eq {n m : Nat} (x : BitVec n) (y : BitVec m) : (x ++ y).toNat = x.toNat * 2 ^ m + y.toNat := by
  rw [BitVec.toNat_append, ← Nat.shiftLeft_add_eq_or_of_lt y.isLt, Nat.shiftLeft_eq]

/-- A packed row word as a number (30_encoding.md R60: `(II[4] << 28) | (PPP << 16) | (II[3:0] << 12) | (C << 8) | VV`). -/
theorem toNat_packRow (p : BitVec 12) (k : BitVec 5) (c : BitVec 4) (v : BitVec 8) :
    (packRow p k c v).toNat =
      (((k.toNat / 16 * 4096 + p.toNat) * 16 + k.toNat % 16) * 16 + c.toNat) * 256 + v.toNat := by
  have hk := k.isLt
  simp only [packRow, toNat_append_eq, BitVec.extractLsb'_toNat, Nat.shiftRight_eq_div_pow, BitVec.toNat_ofNat]
  omega

theorem toNat_rowPeriod (w : Word) : (rowPeriod w).toNat = w.toNat / 2 ^ 16 % 4096 := by
  simp only [rowPeriod, BitVec.extractLsb'_toNat, Nat.shiftRight_eq_div_pow]

theorem toNat_rowInst (w : Word) : (rowInst w).toNat = w.toNat / 2 ^ 28 % 2 * 16 + w.toNat / 2 ^ 12 % 16 := by
  simp only [rowInst, toNat_append_eq, BitVec.extractLsb'_toNat, Nat.shiftRight_eq_div_pow]
  norm_num

theorem toNat_rowCommand (w : Word) : (rowCommand w).toNat = w.toNat / 2 ^ 8 % 16 := by
  simp only [rowCommand, BitVec.extractLsb'_toNat, Nat.shiftRight_eq_div_pow]

theorem toNat_rowValue (w : Word) : (rowValue w).toNat = w.toNat % 256 := by
  simp [rowValue, BitVec.extractLsb'_toNat]

theorem toNat_wordOfBytes (b0 b1 b2 b3 : Byte) :
    (wordOfBytes b0 b1 b2 b3).toNat = ((b0.toNat * 256 + b1.toNat) * 256 + b2.toNat) * 256 + b3.toNat := by
  simp only [wordOfBytes, toNat_append_eq]
  norm_num

@[simp] theorem rowPeriod_packRow (p : BitVec 12) (k : BitVec 5) (c : BitVec 4) (v : BitVec 8) :
    rowPeriod (packRow p k c v) = p :=
  BitVec.eq_of_toNat_eq (by rw [toNat_rowPeriod, toNat_packRow]; omega)

@[simp] theorem rowInst_packRow (p : BitVec 12) (k : BitVec 5) (c : BitVec 4) (v : BitVec 8) :
    rowInst (packRow p k c v) = k :=
  BitVec.eq_of_toNat_eq (by rw [toNat_rowInst, toNat_packRow]; omega)

@[simp] theorem rowCommand_packRow (p : BitVec 12) (k : BitVec 5) (c : BitVec 4) (v : BitVec 8) :
    rowCommand (packRow p k c v) = c :=
  BitVec.eq_of_toNat_eq (by rw [toNat_rowCommand, toNat_packRow]; omega)

@[simp] theorem rowValue_packRow (p : BitVec 12) (k : BitVec 5) (c : BitVec 4) (v : BitVec 8) :
    rowValue (packRow p k c v) = v :=
  BitVec.eq_of_toNat_eq (by rw [toNat_rowValue, toNat_packRow]; omega)

/-- The bytes of a word put together again. -/
theorem wordOfBytes_bytesOfWord (w : Word) :
    wordOfBytes (w.extractLsb' 24 8) (w.extractLsb' 16 8) (w.extractLsb' 8 8) (w.extractLsb' 0 8) = w :=
  BitVec.eq_of_toNat_eq (by
    rw [toNat_wordOfBytes]
    simp only [BitVec.extractLsb'_toNat, Nat.shiftRight_eq_div_pow]
    omega)
theorem decodeBytes_bytesOfWord (w : Word) (rest : List Byte) :
    decodeBytes (bytesOfWord w ++ rest) = .ok (decodeWord w, rest) := by
  simp only [bytesOfWord, List.cons_append, List.nil_append, decodeBytes, wordOfBytes_bytesOfWord]

/-- The operands of a decoded instruction are the fields of its word. -/
theorem instrOfCommand_operands (c : BitVec 4) (p : BitVec 12) (k : BitVec 5) (v : BitVec 8) :
    (instrOfCommand c p k v).period = p ∧ (instrOfCommand c p k v).inst = k ∧ (instrOfCommand c p k v).val = v := by
  unfold instrOfCommand
  split <;> exact ⟨rfl, rfl, rfl⟩

end Sys2Proof
end

