-- ==== Sys2Proof/Laws/Memory.lean ====
section
/-! SUPPORT. The module buffer: read after write, the canonical form is kept by every memory operation, and what a loaded
buffer reads as. -/

namespace Sys2Proof.Machine.Memory

/-! ### Reading -/

theorem read_inside (m : Memory) (a : Nat) (h : a < m.len) : m.read a = some (find m.cells a) := if_pos h

theorem read_outside (m : Memory) (a : Nat) (h : m.len ≤ a) : m.read a = none := if_neg (Nat.not_lt.mpr h)

theorem read_some_lt {m : Memory} {a : Nat} {b : Byte} (h : m.read a = some b) : a < m.len := by
  by_contra hn
  rw [read_outside m a (Nat.not_lt.mp hn)] at h
  cases h

/-- Below the first listed address nothing is listed. -/
theorem find_below {lo len a : Nat} {cells : List Host.Cell} (hw : cellsWf lo len cells = true) (ha : a < lo) :
    find cells a = unlisted := by
  induction cells generalizing lo with
  | nil => rfl
  | cons c rest ih =>
    obtain ⟨k, b⟩ := c
    simp only [cellsWf, Bool.and_eq_true, decide_eq_true_eq] at hw
    rw [find, if_neg (by omega)]
    exact ih hw.2 (by omega)

/-! ### The canonical form -/

theorem cellsWf_mono {lo lo' len len' : Nat} {cells : List Host.Cell} (hlo : lo' ≤ lo) (hlen : len ≤ len')
    (hw : cellsWf lo len cells = true) : cellsWf lo' len' cells = true := by
  induction cells generalizing lo lo' with
  | nil => rfl
  | cons c rest ih =>
    obtain ⟨k, b⟩ := c
    simp only [cellsWf, Bool.and_eq_true, decide_eq_true_eq] at hw ⊢
    exact ⟨⟨⟨by omega, by omega⟩, hw.1.2⟩, ih (Nat.le_refl _) hw.2⟩

theorem insert_wf {lo len k : Nat} {v : Byte} {cells : List Host.Cell} (hlo : lo ≤ k) (hk : k < len)
    (hw : cellsWf lo len cells = true) : cellsWf lo len (insert cells k v) = true := by
  induction cells generalizing lo with
  | nil =>
    unfold insert
    split
    · rfl
    · simp [cellsWf, *]
  | cons c rest ih =>
    obtain ⟨a, b⟩ := c
    simp only [cellsWf, Bool.and_eq_true, decide_eq_true_eq] at hw
    unfold insert
    split
    · simp only [cellsWf, Bool.and_eq_true, decide_eq_true_eq]
      exact ⟨hw.1, ih (by omega) hw.2⟩
    · split
      · split
        · exact cellsWf_mono (by omega) (Nat.le_refl _) hw.2
        · simp only [cellsWf, Bool.and_eq_true, decide_eq_true_eq]
          exact ⟨⟨⟨hlo, hk⟩, by assumption⟩, cellsWf_mono (by omega) (Nat.le_refl _) hw.2⟩
      · split
        · simp only [cellsWf, Bool.and_eq_true, decide_eq_true_eq]
          exact hw
        · simp only [cellsWf, Bool.and_eq_true, decide_eq_true_eq]
          exact ⟨⟨⟨hlo, hk⟩, by assumption⟩, ⟨⟨by omega, hw.1.1.2⟩, hw.1.2⟩, hw.2⟩

/-- Placing a byte keeps the canonical form. -/
theorem place_wf (m : Memory) (a : Nat) (v : Byte) (hw : m.wf = true) : (m.place a v).wf = true :=
  insert_wf (Nat.zero_le _) (by simp [place]) (cellsWf_mono (Nat.le_refl _) (Nat.le_max_left _ _) hw)

/-- Placing bytes keeps the canonical form. -/
theorem placeBytes_wf (m : Memory) (a : Nat) (bytes : List Byte) (hw : m.wf = true) :
    (m.placeBytes a bytes).wf = true := by
  induction bytes generalizing m a with
  | nil => exact hw
  | cons b rest ih => exact ih _ _ (place_wf m a b hw)

theorem cellsFrom_wf (lo : Nat) (bytes : List Byte) : cellsWf lo (lo + bytes.length) (cellsFrom lo bytes) = true := by
  induction bytes generalizing lo with
  | nil => rfl
  | cons b rest ih =>
    have hr : cellsWf (lo + 1) (lo + (b :: rest).length) (cellsFrom (lo + 1) rest) = true :=
      cellsWf_mono (Nat.le_refl _) (by simp; omega) (ih (lo + 1))
    unfold cellsFrom
    split
    · exact cellsWf_mono (by omega) (Nat.le_refl _) hr
    · simp only [cellsWf, Bool.and_eq_true, decide_eq_true_eq]
      exact ⟨⟨⟨Nat.le_refl _, by simp⟩, by assumption⟩, hr⟩

/-- A loaded buffer is in canonical form. -/
theorem ofBytes_wf (bytes : List Byte) : (ofBytes bytes).wf = true := by
  simpa [ofBytes, wf] using cellsFrom_wf 0 bytes

/-- The buffer held at power-up is in canonical form. -/
theorem reset_wf : State.reset.player.buf.wf = true := rfl

/-! ### Read after write -/

theorem find_insert_same {lo len k : Nat} {v : Byte} {cells : List Host.Cell} (hw : cellsWf lo len cells = true) :
    find (insert cells k v) k = v := by
  induction cells generalizing lo with
  | nil =>
    unfold insert
    split
    · simp [find, *]
    · simp [find]
  | cons c rest ih =>
    obtain ⟨a, b⟩ := c
    simp only [cellsWf, Bool.and_eq_true, decide_eq_true_eq] at hw
    unfold insert
    split
    · rw [find, if_neg (by omega)]
      exact ih hw.2
    · split
      · split
        · rw [find_below hw.2 (by omega)]
          exact (by assumption : v = unlisted).symm
        · simp [find]
      · split
        · rw [find, if_neg (by omega), find_below hw.2 (by omega)]
          exact (by assumption : v = unlisted).symm
        · simp [find]

theorem find_insert_other {lo len k a : Nat} {v : Byte} {cells : List Host.Cell} (hw : cellsWf lo len cells = true)
    (h : a ≠ k) : find (insert cells k v) a = find cells a := by
  induction cells generalizing lo with
  | nil =>
    unfold insert
    split
    · rfl
    · simp [find, Ne.symm h]
  | cons c rest ih =>
    obtain ⟨x, b⟩ := c
    simp only [cellsWf, Bool.and_eq_true, decide_eq_true_eq] at hw
    unfold insert
    split
    · simp only [find]
      rw [ih hw.2]
    · split
      · subst x
        split
        · rw [find, if_neg (Ne.symm h)]
        · rw [find, find, if_neg (Ne.symm h), if_neg (Ne.symm h)]
      · split
        · rfl
        · rw [find, if_neg (Ne.symm h)]

/-- A placed byte reads back. -/
theorem read_place_same (m : Memory) (a : Nat) (v : Byte) (hw : m.wf = true) : (m.place a v).read a = some v := by
  rw [read_inside _ _ (by simp [place])]
  exact congrArg some (find_insert_same hw)

/-- Placing a byte changes no other address of the buffer. -/
theorem read_place_other (m : Memory) (a k : Nat) (v : Byte) (hw : m.wf = true) (h : a ≠ k) (ha : a < m.len) :
    (m.place k v).read a = m.read a := by
  rw [read_inside _ _ (by simp [place, ha]), read_inside _ _ ha]
  exact congrArg some (find_insert_other hw h)

/-! ### A loaded buffer -/

theorem find_cellsFrom (lo k : Nat) (bytes : List Byte) :
    find (cellsFrom lo bytes) (lo + k) = (bytes[k]?).getD unlisted := by
  induction bytes generalizing lo k with
  | nil => simp [cellsFrom, find]
  | cons b rest ih =>
    unfold cellsFrom
    cases k with
    | zero =>
      split
      · rw [find_below (cellsFrom_wf (lo + 1) rest) (by omega)]
        simp [*]
      · simp [find]
    | succ k =>
      have hk : lo + (k + 1) = (lo + 1) + k := by omega
      split
      · rw [hk, ih]
        simp
      · rw [find, if_neg (by omega), hk, ih]
        simp

/-- A loaded buffer reads as the bytes it was loaded from, and as nothing past them. -/
theorem read_ofBytes (bytes : List Byte) (a : Nat) : (ofBytes bytes).read a = bytes[a]? := by
  by_cases h : a < bytes.length
  · rw [read_inside _ _ h]
    have hf := find_cellsFrom 0 a bytes
    rw [Nat.zero_add] at hf
    simp [ofBytes, hf, List.getElem?_eq_getElem h]
  · rw [read_outside _ _ (Nat.not_lt.mp h), List.getElem?_eq_none (Nat.not_lt.mp h)]

end Sys2Proof.Machine.Memory
end

