-- ==== Sys2Proof/Laws/PerInstr.lean ====
section
/-! SUPPORT. A fact of every instruction as syntax: the command nibble of its encoding is its command number. -/

namespace Sys2Proof.Laws.CommandNibble

/-- Bits 11..8 of the encoding are the command number (30_encoding.md R53, R56). -/
def Statement (i : Instr) : Prop := rowCommand (encode i) = i.command

theorem arpeggio (p : BitVec 12) (k : BitVec 5) (v : BitVec 8) : Statement (.arpeggio p k v) :=
  rowCommand_packRow p k 0x0#4 v
theorem portaUp (p : BitVec 12) (k : BitVec 5) (v : BitVec 8) : Statement (.portaUp p k v) :=
  rowCommand_packRow p k 0x1#4 v
theorem portaDown (p : BitVec 12) (k : BitVec 5) (v : BitVec 8) : Statement (.portaDown p k v) :=
  rowCommand_packRow p k 0x2#4 v
theorem tonePorta (p : BitVec 12) (k : BitVec 5) (v : BitVec 8) : Statement (.tonePorta p k v) :=
  rowCommand_packRow p k 0x3#4 v
theorem vibrato (p : BitVec 12) (k : BitVec 5) (v : BitVec 8) : Statement (.vibrato p k v) :=
  rowCommand_packRow p k 0x4#4 v
theorem tonePortaVolslide (p : BitVec 12) (k : BitVec 5) (v : BitVec 8) : Statement (.tonePortaVolslide p k v) :=
  rowCommand_packRow p k 0x5#4 v
theorem vibratoVolslide (p : BitVec 12) (k : BitVec 5) (v : BitVec 8) : Statement (.vibratoVolslide p k v) :=
  rowCommand_packRow p k 0x6#4 v
theorem tremolo (p : BitVec 12) (k : BitVec 5) (v : BitVec 8) : Statement (.tremolo p k v) :=
  rowCommand_packRow p k 0x7#4 v
theorem unassigned8 (p : BitVec 12) (k : BitVec 5) (v : BitVec 8) : Statement (.unassigned8 p k v) :=
  rowCommand_packRow p k 0x8#4 v
theorem sampleOffset (p : BitVec 12) (k : BitVec 5) (v : BitVec 8) : Statement (.sampleOffset p k v) :=
  rowCommand_packRow p k 0x9#4 v
theorem volumeSlide (p : BitVec 12) (k : BitVec 5) (v : BitVec 8) : Statement (.volumeSlide p k v) :=
  rowCommand_packRow p k 0xA#4 v
theorem positionJump (p : BitVec 12) (k : BitVec 5) (v : BitVec 8) : Statement (.positionJump p k v) :=
  rowCommand_packRow p k 0xB#4 v
theorem setVolume (p : BitVec 12) (k : BitVec 5) (v : BitVec 8) : Statement (.setVolume p k v) :=
  rowCommand_packRow p k 0xC#4 v
theorem patternBreak (p : BitVec 12) (k : BitVec 5) (v : BitVec 8) : Statement (.patternBreak p k v) :=
  rowCommand_packRow p k 0xD#4 v
theorem extended (p : BitVec 12) (k : BitVec 5) (v : BitVec 8) : Statement (.extended p k v) :=
  rowCommand_packRow p k 0xE#4 v
theorem setSpeedTempo (p : BitVec 12) (k : BitVec 5) (v : BitVec 8) : Statement (.setSpeedTempo p k v) :=
  rowCommand_packRow p k 0xF#4 v

end Sys2Proof.Laws.CommandNibble
end

