-- ==== Sys2Proof/Laws/Reads.lean ====
section
/-! SUPPORT. Reads of the module buffer: what a read that answers says, and when reads answer. -/

namespace Sys2Proof.Machine

theorem memRead_eq_ok {m : Memory} {a : Nat} {b : Byte} : memRead m a = .ok b ↔ m.read a = some b := by
  unfold memRead
  cases m.read a <;> simp

theorem memRead_inside {m : Memory} {a : Nat} (h : a < m.len) : memRead m a = .ok (Memory.find m.cells a) :=
  memRead_eq_ok.mpr (m.read_inside a h)

theorem memRead_outside {m : Memory} {a : Nat} (h : m.len ≤ a) : memRead m a = .error (.memReadOutside a) := by
  simp [memRead, m.read_outside a h]

/-- A run of bytes inside the buffer reads as the bytes there. -/
theorem memReadBytes_inside {m : Memory} {a n : Nat} (h : a + n ≤ m.len) :
    memReadBytes m a n = .ok ((List.range' a n).map (Memory.find m.cells)) := by
  induction n generalizing a with
  | zero => rfl
  | succ n ih =>
    simp only [memReadBytes, memRead_inside (show a < m.len by omega), ih (show a + 1 + n ≤ m.len by omega)]
    rfl

theorem memReadBytes_length {m : Memory} {a n : Nat} {bs : List Byte} (h : memReadBytes m a n = .ok bs) :
    bs.length = n := by
  induction n generalizing a bs with
  | zero =>
    cases h
    rfl
  | succ n ih =>
    unfold memReadBytes at h
    cases hb : memRead m a with
    | error f =>
      rw [hb] at h
      cases h
    | ok b =>
      cases hr : memReadBytes m (a + 1) n with
      | error f =>
        rw [hb, hr] at h
        cases h
      | ok rest =>
        rw [hb, hr] at h
        cases h
        simp [ih hr]

theorem be16_inside {m : Memory} {a : Nat} (h : a + 1 < m.len) :
    be16 m a = .ok ((Memory.find m.cells a).toNat * 256 + (Memory.find m.cells (a + 1)).toNat) := by
  simp only [be16, memRead_inside (show a < m.len by omega), memRead_inside h]
  rfl

/-- A fetched row word is the four bytes at its address. -/
theorem fetchRowWord_eq_ok {m : Memory} {a : Nat} {w : Word} :
    fetchRowWord m a = .ok w ↔
      ∃ b0 b1 b2 b3, m.read a = some b0 ∧ m.read (a + 1) = some b1 ∧ m.read (a + 2) = some b2 ∧
        m.read (a + 3) = some b3 ∧ w = wordOfBytes b0 b1 b2 b3 := by
  constructor
  · intro h
    unfold fetchRowWord at h
    cases h0 : memRead m a with
    | error f =>
      rw [h0] at h
      cases h
    | ok b0 =>
      cases h1 : memRead m (a + 1) with
      | error f =>
        rw [h0, h1] at h
        cases h
      | ok b1 =>
        cases h2 : memRead m (a + 2) with
        | error f =>
          rw [h0, h1, h2] at h
          cases h
        | ok b2 =>
          cases h3 : memRead m (a + 3) with
          | error f =>
            rw [h0, h1, h2, h3] at h
            cases h
          | ok b3 =>
            rw [h0, h1, h2, h3] at h
            cases h
            exact ⟨b0, b1, b2, b3, memRead_eq_ok.mp h0, memRead_eq_ok.mp h1, memRead_eq_ok.mp h2,
              memRead_eq_ok.mp h3, rfl⟩
  · rintro ⟨b0, b1, b2, b3, h0, h1, h2, h3, rfl⟩
    simp only [fetchRowWord, memRead_eq_ok.mpr h0, memRead_eq_ok.mpr h1, memRead_eq_ok.mpr h2, memRead_eq_ok.mpr h3]
    rfl

/-- A row word inside the buffer is fetched. -/
theorem fetchRowWord_inside {m : Memory} {a : Nat} (h : a + 4 ≤ m.len) : ∃ w, fetchRowWord m a = .ok w := by
  exact ⟨_, fetchRowWord_eq_ok.mpr ⟨_, _, _, _, m.read_inside a (by omega), m.read_inside (a + 1) (by omega),
    m.read_inside (a + 2) (by omega), m.read_inside (a + 3) (by omega), rfl⟩⟩

end Sys2Proof.Machine
end

