-- ==== Sys2Proof/Laws/RowWord.lean ====
section
/-! SUPPORT. What the shared operations of a row word do: the frame of each named update, and the note part as
`NoteApplied` says it. -/

namespace Sys2Proof.Machine

/-! ### Frames compose -/

theorem RowFrame.trans {s t u : State} (h : RowFrame s t) (k : RowFrame t u) : RowFrame s u where
  params          := k.params.trans h.params
  cfgLoop         := k.cfgLoop.trans h.cfgLoop
  cfgSupportTempo := k.cfgSupportTempo.trans h.cfgSupportTempo
  handle          := k.handle.trans h.handle
  parked          := k.parked.trans h.parked
  nextHandle      := k.nextHandle.trans h.nextHandle
  phase           := k.phase.trans h.phase
  chan            := k.chan.trans h.chan
  rowBase         := k.rowBase.trans h.rowBase
  queue           := k.queue.trans h.queue
  out             := k.out.trans h.out
  results         := k.results.trans h.results
  bufLen          := k.bufLen.trans h.bufLen
  bytes           := fun a => (k.bytes a).trans (h.bytes a)
  view            := k.view.trans h.view
  samples         := k.samples.trans h.samples
  finished        := k.finished.trans h.finished
  channels        := fun j hj => (k.channels j (by rw [h.chan]; exact hj)).trans (h.channels j hj)

theorem RowFrame.refl (s : State) : RowFrame s s := by
  constructor <;> intros <;> rfl

theorem setChannel_frame (s : State) (c : Channel) : RowFrame s (s.setChannel c) := by
  constructor <;> first | rfl | skip
  · exact fun _ => rfl
  · exact fun j hj => Channels.get_set_other _ _ _ _ hj

theorem setPc_frame (s : State) (a b : Nat) : RowFrame s (s.setPc a b) := by
  constructor <;> intros <;> rfl

theorem markFlow_frame (s : State) (m : Bool) : RowFrame s (s.markFlow m) := by
  constructor <;> intros <;> rfl

theorem setSpeed_frame (s : State) (v : BitVec 8) : RowFrame s (s.setSpeed v) := by
  constructor <;> intros <;> rfl

theorem setTempo_frame (s : State) (v : BitVec 8) : RowFrame s (s.setTempo v) := by
  constructor <;> intros <;> rfl

theorem emitDiag_frame (s : State) (k : DiagKind) (c : BitVec 4) (v : BitVec 8) : RowFrame s (s.emitDiag k c v) := by
  constructor <;> intros <;> rfl

theorem noteStage_frame (p : BitVec 12) (k : BitVec 5) (s : State) : RowFrame s (noteStage p k s) :=
  setChannel_frame s _

/-! ### What the note part leaves -/

@[simp] theorem noteStage_channel (p : BitVec 12) (k : BitVec 5) (s : State) :
    (noteStage p k s).channel = rowNote s.params s.player.view p k s.channel :=
  State.setChannel_channel _ _

theorem noteStage_samePc (p : BitVec 12) (k : BitVec 5) (s : State) : SamePc s (noteStage p k s) :=
  ⟨rfl, rfl, rfl, rfl⟩

theorem noteStage_sameTiming (p : BitVec 12) (k : BitVec 5) (s : State) : SameTiming s (noteStage p k s) :=
  ⟨rfl, rfl, rfl, rfl⟩

@[simp] theorem noteStage_diags (p : BitVec 12) (k : BitVec 5) (s : State) : (noteStage p k s).diags = s.diags := rfl

theorem isNote_eq_true {v : View} {p : BitVec 12} {k : BitVec 5} : isNote v p k = true ↔ p ≠ 0 ∧ k.toNat ≤ v.ninst := by
  simp [isNote]

/-- The slot reset and the note part of a row word do what 41_sequencer.md R93 to R96 say. -/
theorem rowNote_applied (s : State) (p : BitVec 12) (k : BitVec 5) :
    NoteApplied s p k (rowNote s.params s.player.view p k s.channel) := by
  by_cases hn : isNote s.player.view p k = true
  · obtain ⟨hp, hk⟩ := isNote_eq_true.mp hn
    simp only [rowNote, if_pos hn]
    exact
      { slot := ⟨rfl, rfl⟩
        silent := fun h => h.elim (fun h => absurd h hp) (fun h => absurd h (by omega))
        keep := fun _ h => by simp [noteOn, noteInst, noteVolume, resetSlot, h]
        switch := fun _ h _ => by
          have h' : ¬ k = 0#5 := h
          simp [noteOn, noteInst, noteVolume, h']
        start := fun _ _ => by
          refine ⟨?_, rfl, rfl, rfl, rfl, rfl, rfl, rfl⟩
          simp [noteOn, noteActive] }
  · have hn' : ¬ (p ≠ 0 ∧ k.toNat ≤ s.player.view.ninst) := fun h => hn (isNote_eq_true.mpr h)
    simp only [rowNote, if_neg hn]
    exact
      { slot := ⟨rfl, rfl⟩
        silent := fun _ => rfl
        keep := fun hp h => absurd ⟨hp, by simp [h]⟩ hn'
        switch := fun hp _ hk => absurd ⟨hp, hk⟩ hn'
        start := fun hp hk => absurd ⟨hp, hk⟩ hn' }

end Sys2Proof.Machine
end

