-- ==== Sys2Proof/Laws/Synth.lean ====
section
/-! SUPPORT. The synthesizer, the mixer and the frame step: what each shared operation can answer, said once. -/

namespace Sys2Proof.Machine

theorem posIndex_eq (pos : BitVec 32) : posIndex pos = pos.toNat / 4096 := by
  have h := pos.isLt
  simp only [posIndex, BitVec.extractLsb'_toNat, Nat.shiftRight_eq_div_pow]
  omega

theorem posFraction_eq (pos : BitVec 32) : posFraction pos = pos.toNat % 4096 := by
  simp [posFraction, BitVec.extractLsb'_toNat]

/-- The arithmetic shift as a floor division. -/
theorem sar_eq (a : Int) (n : Nat) : sar a n = a / 2 ^ n := by
  unfold sar
  exact Int.fdiv_eq_ediv_of_nonneg _ (by positivity)

/-- The two signed divisions by a positive number. -/
theorem divS_eq (P : Params) (a b : Int) (hb : 0 ≤ b) :
    divS P a b = match P.signedDiv with | .trunc => a.tdiv b | .floor => a / b := by
  unfold divS
  cases P.signedDiv
  · rfl
  · exact Int.fdiv_eq_ediv_of_nonneg _ hb

/-- A sample read answers exactly inside the instrument and the buffer. -/
theorem readSample_eq_ok {m : Memory} {ins : Instrument} {j : Nat} {b : Byte} :
    readSample m ins j = .ok b ↔ j < ins.length ∧ m.read (ins.start + j) = some b := by
  unfold readSample
  split
  · rw [memRead_eq_ok]
    simp [*]
  · simp [*]

/-- Everything `synth` can answer: an inactive channel as it stands, or a value and the channel after its advance. -/
theorem synth_cases {P : Params} {m : Memory} {v : View} {c c' : Channel} {x : Int}
    (h : synth P m v c = .ok (x, c')) :
    (c.active = false ∧ x = 0 ∧ c' = c) ∨
    (c.active = true ∧ sampleValue P m (v.instrument c.inst) c = .ok x ∧ c' = afterSample P c) := by
  unfold synth at h
  by_cases ha : c.active = true
  · rw [if_pos ha] at h
    cases hx : sampleValue P m (v.instrument c.inst) c with
    | error f =>
      rw [hx] at h
      cases h
    | ok y =>
      rw [hx] at h
      cases h
      exact .inr ⟨ha, rfl, rfl⟩
  · rw [if_neg ha] at h
    cases h
    exact .inl ⟨by simpa using ha, rfl, rfl⟩

/-- A sample value answers from the two bytes at the clamped indices. -/
theorem sampleValue_cases {P : Params} {m : Memory} {ins : Instrument} {c : Channel} {x : Int}
    (h : sampleValue P m ins c = .ok x) :
    ∃ b1 b2, readSample m ins (min (posIndex c.pos) (ins.length - 1)) = .ok b1 ∧
      readSample m ins (min (posIndex c.pos + 1) (ins.length - 1)) = .ok b2 ∧
      x = scaleVolume P (interpolate (widen b1) (widen b2) (posFraction c.pos)) c.volume := by
  unfold sampleValue at h
  cases h1 : readSample m ins (min (posIndex c.pos) (ins.length - 1)) with
  | error f =>
    rw [h1] at h
    cases h
  | ok b1 =>
    cases h2 : readSample m ins (min (posIndex c.pos + 1) (ins.length - 1)) with
    | error f =>
      rw [h1, h2] at h
      cases h
    | ok b2 =>
      rw [h1, h2] at h
      cases h
      exact ⟨b1, b2, rfl, rfl, rfl⟩

/-- The four calls of `synth` in a frame are independent (43_synthesizer.md R151). -/
theorem synthAll_eq_ok {P : Params} {m : Memory} {v : View} {cs ds : Channels} {x : Lanes} :
    synthAll P m v cs = .ok (x, ds) ↔
      synth P m v cs.c0 = .ok (x.s0, ds.c0) ∧ synth P m v cs.c1 = .ok (x.s1, ds.c1) ∧
      synth P m v cs.c2 = .ok (x.s2, ds.c2) ∧ synth P m v cs.c3 = .ok (x.s3, ds.c3) := by
  constructor
  · intro h
    unfold synthAll at h
    cases h0 : synth P m v cs.c0 with
    | error f =>
      rw [h0] at h
      cases h
    | ok r0 =>
      cases h1 : synth P m v cs.c1 with
      | error f =>
        rw [h0, h1] at h
        cases h
      | ok r1 =>
        cases h2 : synth P m v cs.c2 with
        | error f =>
          rw [h0, h1, h2] at h
          cases h
        | ok r2 =>
          cases h3 : synth P m v cs.c3 with
          | error f =>
            rw [h0, h1, h2, h3] at h
            cases h
          | ok r3 =>
            rw [h0, h1, h2, h3] at h
            cases h
            exact ⟨rfl, rfl, rfl, rfl⟩
  · rintro ⟨h0, h1, h2, h3⟩
    simp only [synthAll, h0, h1, h2, h3]
    rfl

/-- What an advance never touches. -/
theorem afterSample_keeps (P : Params) (c : Channel) :
    afterSample P c =
      { c with active := (afterSample P c).active, loopState := (afterSample P c).loopState
               pos := (afterSample P c).pos } := by
  unfold afterSample endOfSample wrapPos advancePos
  dsimp only
  split <;> split <;> (try split) <;> (try split) <;> rfl

/-- Everything a rendered frame can be: one mixed frame more, and the channels after synthesis. -/
theorem renderFrame_cases {mode : MixMode} {s t : State} (h : renderFrame mode s = .ok t) :
    ∃ x cs, synthAll s.params s.player.buf s.player.view s.player.ch = .ok (x, cs) ∧
      t = { s with out := s.out ++ mix s.params mode x, player := { s.player with ch := cs } } := by
  unfold renderFrame at h
  cases hs : synthAll s.params s.player.buf s.player.view s.player.ch with
  | error f =>
    rw [hs] at h
    cases h
  | ok r =>
    rw [hs] at h
    cases h
    exact ⟨r.1, r.2, rfl, rfl⟩

/-- Everything the start of a row event can be. -/
theorem beginRow_cases {job : RenderJob} {s t : State} (h : beginRow job s = .ok t) :
    ∃ pat, s.player.view.seq[s.player.seqPos]? = some pat ∧
      t = { s with
        phase := .row job, chan := 0, flowTaken := false, flowMarker := false
        rowBase := rowWordAddress s.player.view pat.toNat s.player.rowPos 0
        player := { s.player with tickCounter := s.player.speed } } := by
  unfold beginRow rowAddress at h
  cases hp : s.player.view.seq[s.player.seqPos]? with
  | none =>
    rw [hp] at h
    cases h
  | some pat =>
    rw [hp] at h
    cases h
    exact ⟨pat, rfl, rfl⟩

/-- Everything a tick can be: an intermediate tick, or the start of a row event. -/
theorem advanceTick_cases {job : RenderJob} {s t : State} (h : advanceTick job s = .ok t) :
    (1 < s.player.tickCounter.toNat ∧
      t = { s with player := { s.player with
        ch := s.player.ch.map (perTick s.params), tickCounter := s.player.tickCounter - 1 } }) ∨
    (s.player.tickCounter.toNat ≤ 1 ∧ beginRow job s = .ok t) := by
  unfold advanceTick at h
  split at h
  · cases h
    exact .inl ⟨by assumption, rfl⟩
  · exact .inr ⟨by omega, h⟩

/-- Everything the tick timer can do: count down, or reload and run a tick. -/
theorem tickTimer_cases {job : RenderJob} {s t : State} (h : tickTimer job s = .ok t) :
    (s.player.samplesUntilTick - 1 ≠ 0 ∧
      t = { s with player := { s.player with samplesUntilTick := s.player.samplesUntilTick - 1 } }) ∨
    (s.player.samplesUntilTick - 1 = 0 ∧
      advanceTick job { s with player := { s.player with samplesUntilTick := s.player.spt } } = .ok t) := by
  unfold tickTimer at h
  split at h
  · exact .inr ⟨by assumption, h⟩
  · cases h
    exact .inl ⟨by assumption, rfl⟩

/-- Everything a frame step can be: the frozen frame of a silenced player, or a rendered frame and the tick timer. -/
theorem frameStep_cases {job : RenderJob} {s t : State} (h : frameStep job s = .ok t) :
    (silenced s = true ∧ t = emitFrame (zeroFrame job.mode) s) ∨
    (silenced s = false ∧ ∃ u, renderFrame job.mode s = .ok u ∧ tickTimer job u = .ok t) := by
  unfold frameStep at h
  split at h
  · cases h
    exact .inl ⟨by assumption, rfl⟩
  · cases hr : renderFrame job.mode s with
    | error f =>
      rw [hr] at h
      cases h
    | ok u =>
      rw [hr] at h
      exact .inr ⟨by simpa using (by assumption : ¬ silenced s = true), u, rfl, h⟩

end Sys2Proof.Machine
end

