-- ==== Sys2Proof/Laws/Step.lean ====
section
/-! SUPPORT. Everything a step can be, said once, how runs compose, and what selecting a player does. -/

namespace Sys2Proof.Machine

/-- Everything that gives a next state inside a row event: the fetched word was executed and the event went on. -/
theorem rowStep_cases {job : RenderJob} {s t : State} (h : rowStep job s = .next t) :
    ∃ w u, fetchRowWord s.player.buf (fetchAddress s) = .ok w ∧ exec (decodeWord w) s = .next u ∧
      t = nextRowWord job u := by
  unfold rowStep at h
  cases hw : fetchRowWord s.player.buf (fetchAddress s) with
  | error f =>
    rw [hw] at h
    cases h
  | ok w =>
    rw [hw] at h
    cases he : exec (decodeWord w) s with
    | fault f =>
      simp only [he] at h
      cases h
    | refused r =>
      simp only [he] at h
      cases h
    | next u =>
      simp only [he] at h
      cases h
      exact ⟨w, u, rfl, he, rfl⟩

/-- Everything a step of a `render` can be: its end, or one frame step with one frame less to do. -/
theorem renderStep_cases {job : RenderJob} {s t : State} (h : renderStep job s = .ok t) :
    (job.left = 0 ∧ t = finishRender s) ∨
    (∃ n, job.left = n + 1 ∧
      frameStep { job with left := n } { s with phase := .frame { job with left := n } } = .ok t) := by
  unfold renderStep at h
  cases hl : job.left with
  | zero =>
    rw [hl] at h
    cases h
    exact .inl ⟨rfl, rfl⟩
  | succ n =>
    rw [hl] at h
    exact .inr ⟨n, rfl, h⟩

/-- Everything a step that gives a next state can be, by phase. -/
theorem step_cases {s t : State} (h : step s = .next t) :
    (s.phase = .idle ∧ s.queue = [] ∧ t = s) ∨
    (s.phase = .idle ∧ ∃ op rest, s.queue = op :: rest ∧ beginOp op { s with queue := rest } = .next t) ∨
    (∃ job, s.phase = .frame job ∧ renderStep job s = .ok t) ∨
    (∃ job, s.phase = .row job ∧ rowStep job s = .next t) := by
  unfold step at h
  cases hp : s.phase with
  | idle =>
    rw [hp] at h
    simp only [hostStep] at h
    cases hq : s.queue with
    | nil =>
      rw [hq] at h
      cases h
      exact .inl ⟨rfl, rfl, rfl⟩
    | cons op rest =>
      rw [hq] at h
      exact .inr (.inl ⟨rfl, op, rest, rfl, by rw [← hp]; exact h⟩)
  | frame job =>
    rw [hp] at h
    cases hr : renderStep job s with
    | error f =>
      simp only [hr] at h
      cases h
    | ok u =>
      simp only [hr] at h
      cases h
      exact .inr (.inr (.inl ⟨job, rfl, hr⟩))
  | row job =>
    rw [hp] at h
    exact .inr (.inr (.inr ⟨job, rfl, h⟩))

/-! ### Runs -/

theorem run_one {s t : State} (h : step s = .next t) : Host.Core.run core 1 s = .next t := by
  simp only [Host.Core.run]
  rw [show core.step s = step s from rfl, h]

theorem run_add {a b : Nat} {s t : State} (h : Host.Core.run core a s = .next t) :
    Host.Core.run core (a + b) s = Host.Core.run core b t := by
  induction a generalizing s with
  | zero =>
    cases h
    rw [Nat.zero_add]
  | succ a ih =>
    rw [Nat.succ_add]
    simp only [Host.Core.run] at h ⊢
    cases hs : core.step s with
    | next u =>
      rw [hs] at h
      exact ih h
    | fault f =>
      rw [hs] at h
      cases h
    | refused r =>
      rw [hs] at h
      cases h

/-! ### Players by number -/

theorem findPlayer_of_not_mem {h : Nat} {l : List (Nat × Player)} (hl : h ∉ l.map Prod.fst) : findPlayer h l = none := by
  induction l with
  | nil => rfl
  | cons q rest ih =>
    obtain ⟨k, q⟩ := q
    simp only [List.map_cons, List.mem_cons, not_or] at hl
    rw [findPlayer, if_neg (Ne.symm hl.1)]
    exact ih hl.2

theorem findPlayer_insertPlayer_same (h : Nat) (p : Player) (l : List (Nat × Player)) (hl : h ∉ l.map Prod.fst) :
    findPlayer h (insertPlayer h p l) = some p := by
  induction l with
  | nil => simp [insertPlayer, findPlayer]
  | cons q rest ih =>
    obtain ⟨k, q⟩ := q
    simp only [List.map_cons, List.mem_cons, not_or] at hl
    unfold insertPlayer
    split
    · simp [findPlayer]
    · rw [findPlayer, if_neg (Ne.symm hl.1)]
      exact ih hl.2

theorem findPlayer_insertPlayer_other (g h : Nat) (p : Player) (l : List (Nat × Player)) (hg : g ≠ h) :
    findPlayer g (insertPlayer h p l) = findPlayer g l := by
  induction l with
  | nil => simp [insertPlayer, findPlayer, Ne.symm hg]
  | cons q rest ih =>
    obtain ⟨k, q⟩ := q
    unfold insertPlayer
    split
    · rw [findPlayer, if_neg (Ne.symm hg)]
    · rw [findPlayer, findPlayer, ih]

theorem findPlayer_removePlayer_other (g h : Nat) (l : List (Nat × Player)) (hg : g ≠ h) :
    findPlayer g (removePlayer h l) = findPlayer g l := by
  induction l with
  | nil => rfl
  | cons q rest ih =>
    obtain ⟨k, q⟩ := q
    unfold removePlayer
    split
    · rw [findPlayer, if_neg (by omega)]
    · rw [findPlayer, findPlayer, ih]

/-- Selecting a player answers exactly where there is one. -/
theorem select_eq_none {s : State} {h : Nat} : s.select h = none ↔ s.playerOf h = none := by
  unfold State.select State.playerOf
  split
  · simp
  · cases findPlayer h s.parked <;> simp

/-- The selected player is the one of that number, and is now current. -/
theorem select_cases {s t : State} {h : Nat} (hs : s.select h = some t) :
    t.handle = some h ∧ s.playerOf h = some t.player ∧ t.params = s.params ∧ t.phase = s.phase ∧
      t.results = s.results ∧ t.nextHandle = s.nextHandle ∧
      ((s.handle = some h ∧ t = s) ∨
       (s.handle ≠ some h ∧ ∃ p, findPlayer h s.parked = some p ∧
        t = { s with player := p, handle := some h, parked := removePlayer h s.parkCurrent })) := by
  unfold State.select at hs
  by_cases hh : s.handle = some h
  · rw [if_pos hh] at hs
    cases hs
    exact ⟨hh, by simp [State.playerOf, hh], rfl, rfl, rfl, rfl, .inl ⟨hh, rfl⟩⟩
  · rw [if_neg hh] at hs
    cases hf : findPlayer h s.parked with
    | none =>
      rw [hf] at hs
      cases hs
    | some p =>
      rw [hf] at hs
      cases hs
      exact ⟨rfl, by simp [State.playerOf, hh, hf], rfl, rfl, rfl, rfl, .inr ⟨hh, p, rfl, rfl⟩⟩

/-- Selecting a player that exists answers a state in which it is current. -/
theorem select_of_playerOf {s : State} {h : Nat} {p : Player} (hp : s.playerOf h = some p) :
    ∃ t, s.select h = some t ∧ t.player = p ∧ t.handle = some h := by
  cases hs : s.select h with
  | none =>
    rw [select_eq_none.mp hs] at hp
    cases hp
  | some t =>
    obtain ⟨hh, ht, -⟩ := select_cases hs
    exact ⟨t, rfl, Option.some.inj (ht.symm.trans hp), hh⟩

/-- Parking the current player loses none. -/
theorem findPlayer_parkCurrent {s : State} (hi : Inv s) (h : Nat) : findPlayer h s.parkCurrent = s.playerOf h := by
  unfold State.parkCurrent State.playerOf
  cases hh : s.handle with
  | none => simp
  | some g =>
    by_cases hg : h = g
    · subst hg
      simp [findPlayer_insertPlayer_same h s.player s.parked (hi.current h hh).2]
    · simp only [findPlayer_insertPlayer_other h g s.player s.parked hg]
      rw [if_neg fun e => hg (Option.some.inj e).symm]

/-- Selecting a player changes no player. -/
theorem select_playerOf {s t : State} {g : Nat} (hi : Inv s) (hs : s.select g = some t) (h : Nat) :
    t.playerOf h = s.playerOf h := by
  obtain ⟨ht, hp, -, -, -, -, ⟨-, rfl⟩ | ⟨-, p, -, rfl⟩⟩ := select_cases hs
  · rfl
  · by_cases hg : h = g
    · subst hg
      rw [hp]
      simp [State.playerOf]
    · rw [State.playerOf, if_neg fun e => hg (Option.some.inj e).symm, findPlayer_removePlayer_other h g _ hg,
        findPlayer_parkCurrent hi]

end Sys2Proof.Machine
end

