-- ==== Sys2Proof/Tests/Slice0.lean ====
section
/-! SUPPORT. Tests of single operations and steps, with the expected results of spec/95_test_vectors.md and the worked
examples in the rules, the smoke of the well-formedness checks, and a witness for the hypotheses of each statement. -/

namespace Sys2Proof.Tests

open Sys2Proof Sys2Proof.Machine

/-! ### Decoding and encoding: words written out from the layout of 30_encoding.md R53 -/

/-- V-C1: `01 AC 1C 20`. -/
theorem test_decode_setVolume : decodeBytes [0x01, 0xAC, 0x1C, 0x20] = .ok (.setVolume 428 1 0x20, []) := by decide

/-- V-C2: `13 58 F2 FF`. -/
theorem test_decode_portaDown : decodeBytes [0x13, 0x58, 0xF2, 0xFF] = .ok (.portaDown 856 31 0xFF, []) := by decide

/-- V-C3: bits 31..29 are ignored. -/
theorem test_decode_ignored_bits : decodeBytes [0xE0, 0, 0, 0] = .ok (.arpeggio 0 0 0, []) := by decide

/-- V-C4: the largest period. -/
theorem test_decode_largest_period : decodeBytes [0x0F, 0xFF, 0, 0] = .ok (.arpeggio 4095 0 0, []) := by decide

/-- V-C5: `00 00 5A 0F`, with two bytes behind it that are handed back. -/
theorem test_decode_volumeSlide :
    decodeBytes [0x00, 0x00, 0x5A, 0x0F, 0x12, 0x34] = .ok (.volumeSlide 0 5 0x0F, [0x12, 0x34]) := by decide

/-- V-C6: `10 71 0D 32`. -/
theorem test_decode_patternBreak : decodeBytes [0x10, 0x71, 0x0D, 0x32] = .ok (.patternBreak 113 16 0x32, []) := by decide

/-- V-C7: encode `071 31 F06`. -/
theorem test_encode_setSpeedTempo : encodeBytes (.setSpeedTempo 0x071 31 0x06) = [0x10, 0x71, 0xFF, 0x06] := by decide

theorem test_decode_portaUp : decodeWord 0b000_0_000000000000_0011_0001_00000101#32 = .portaUp 0 3 5 := by decide
theorem test_decode_tonePorta : decodeWord 0b000_1_000000000001_0000_0011_10000000#32 = .tonePorta 1 16 0x80 := by decide
theorem test_decode_vibrato : decodeWord 0b010_0_100000000000_1000_0100_00000001#32 = .vibrato 0x800 8 1 := by decide
theorem test_decode_tonePortaVolslide :
    decodeWord 0b000_0_000000000000_0000_0101_11110000#32 = .tonePortaVolslide 0 0 0xF0 := by decide
theorem test_decode_vibratoVolslide :
    decodeWord 0b000_0_000000000000_0001_0110_00001111#32 = .vibratoVolslide 0 1 0x0F := by decide
theorem test_decode_tremolo : decodeWord 0b001_0_000000010000_0010_0111_00010010#32 = .tremolo 0x10 2 0x12 := by decide
theorem test_decode_unassigned8 : decodeWord 0b000_1_000000000000_1111_1000_00010010#32 = .unassigned8 0 31 0x12 := by decide
theorem test_decode_sampleOffset : decodeWord 0b000_0_111100000000_0100_1001_00010010#32 = .sampleOffset 0xF00 4 0x12 := by decide
theorem test_decode_positionJump : decodeWord 0b000_0_000000000000_0000_1011_00000010#32 = .positionJump 0 0 2 := by decide
theorem test_decode_extended : decodeWord 0b100_0_000000000000_0000_1110_00000001#32 = .extended 0 0 1 := by decide

/-- A byte string shorter than a row word is refused by name. -/
theorem test_decode_truncated : decodeBytes [0x01, 0xAC, 0x1C] = .error (.truncated 3) := by decide

/-- The opcode table's numbering: bit 0 is the lowest bit of the last byte (R53). -/
theorem test_decodeTableWord : decodeTableWord 32 0x01AC1C20 = some (.setVolume 428 1 0x20) := by decide

/-- The notation of V-C1, `1AC 01 C20`, and of V-C2, `358 31 2FF` (R60). -/
theorem test_rowText :
    rowText (.setVolume 428 1 0x20) = ['1', 'A', 'C', ' ', '0', '1', ' ', 'C', '2', '0'] ∧
    rowText (.portaDown 856 31 0xFF) = ['3', '5', '8', ' ', '3', '1', ' ', '2', 'F', 'F'] := by decide

/-! ### Well-formedness: each check with a term it refuses -/

/-- The rate range of 00_scope.md R4, from below and from above. -/
theorem test_params_wf :
    Params.wf Params.default = true ∧
    Params.wf { Params.default with outputRate := 3999 } = false ∧
    Params.wf { Params.default with outputRate := 192001 } = false := by decide

/-- The canonical form refuses falling addresses, a repeated address, a listed zero, and an address past the end. -/
theorem test_memory_wf :
    Memory.wf ⟨8, [(2, 1), (5, 1)]⟩ = true ∧
    Memory.wf ⟨8, [(5, 1), (2, 1)]⟩ = false ∧
    Memory.wf ⟨8, [(2, 1), (2, 1)]⟩ = false ∧
    Memory.wf ⟨8, [(2, 0)]⟩ = false ∧
    Memory.wf ⟨8, [(8, 1)]⟩ = false := by decide

/-- No row word is illegal (30_encoding.md R58): the instruction check has nothing to refuse, with the widest fields and
with the unassigned command too. -/
theorem test_instr_wf : Instr.wf (.unassigned8 4095 31 0xFF) = true ∧ Instr.wf (.extended 0 0 0) = true := by decide

/-! ### Memory -/

/-- Placing a byte lists it; placing the byte an unlisted address reads as removes it. -/
theorem test_place :
    (Memory.place ⟨8, [(5, 1)]⟩ 2 7) = ⟨8, [(2, 7), (5, 1)]⟩ ∧
    (Memory.place ⟨8, [(2, 7), (5, 1)]⟩ 2 0) = ⟨8, [(5, 1)]⟩ := by decide

/-- `BE16` puts the byte at the lower address first (20_memory.md R31). -/
theorem test_be16 : be16 ⟨4, [(1, 0x12), (2, 0x34)]⟩ 1 = .ok 0x1234 := by decide

/-- A read at the length of the buffer is a fault (00_scope.md R7). -/
theorem test_memRead_outside : memRead ⟨4, []⟩ 4 = .error (.memReadOutside 4) := by decide

/-! ### A player to test with -/

/-- A 15-instrument buffer of 0x668 bytes: empty rows, and sixteen sample bytes. -/
def demoBuf : Memory :=
  ⟨0x668, [(0x658, 0x10), (0x659, 0x20), (0x65A, 0x30), (0x65B, 0x40), (0x65D, 0x20), (0x65E, 0x40), (0x65F, 0x60),
    (0x660, 0x7F), (0x661, 0x60), (0x662, 0x40), (0x663, 0x20)]⟩

/-- Its view: instrument 1 with 4 bytes and volume 40, instrument 2 empty, instrument 3 with 8 bytes and the loop
4..8. -/
def demoView : View where
  ninst       := 15
  title       := List.replicate 20 0
  seqLen      := 4
  seq         := List.replicate 128 0
  patternBase := 0x258
  sampleStart := 0x658
  insts       :=
    ⟨0x658, 4, 40, false, 0, 0⟩ :: ⟨0x65C, 0, 0, false, 0, 0⟩ :: ⟨0x65C, 8, 48, true, 4, 8⟩ ::
      List.replicate 12 ⟨0x664, 0, 0, false, 0, 0⟩

/-- A fresh player on it. -/
def demoPlayer : Player := freshPlayer Params.default demoBuf demoView

/-- The same player after it has finished. -/
def donePlayer : Player := { demoPlayer with finished := true }

/-- Between operations, with one operation pending. -/
def idleWith (p : Player) (op : HostOp) : State :=
  { State.reset with player := p, handle := some 0, nextHandle := 1, queue := [op] }

/-- In a `render`, with frames left. -/
def frameWith (p : Player) (left : Nat) : State :=
  { State.reset with player := p, handle := some 0, nextHandle := 1, phase := .frame ⟨left, .mono⟩ }

/-- In the row event of row 0, with the row word of a channel next. -/
def rowWith (p : Player) (i : Fin 4) : State :=
  { State.reset with
    player := p, handle := some 0, nextHandle := 1, phase := .row ⟨0, .mono⟩, rowBase := 0x258, chan := i }

/-- The row event at a channel whose row word is given. -/
def rowWord (i : Fin 4) (w : Nat) : State := (rowWith demoPlayer i).withFetchWord 32 w

/-- Something of the next state. -/
def onNext {α : Type} (o : Host.Outcome State Fault Refusal) (f : State → α) : Option α :=
  match o with
  | .next t    => some (f t)
  | .fault _   => none
  | .refused _ => none

/-- The program counter and the latch. -/
def pcOf (s : State) : Nat × Nat × Bool := (s.player.seqPos, s.player.rowPos, s.player.finished)

/-! ### Row words -/

/-- V-N1: a note with instrument 1. -/
theorem test_note_on :
    onNext (exec (.arpeggio 428 1 0) (rowWith demoPlayer 0)) (fun t =>
      (t.channel.active, t.channel.inst.toNat, t.channel.volume.toNat, t.channel.period.toNat, t.channel.inc.toNat,
        t.channel.lengthFx.toNat)) = some (true, 1, 40, 428, 771, 16384) := by decide

/-- V-N2: instrument 0 on a fresh channel. -/
theorem test_note_without_instrument :
    onNext (exec (.arpeggio 428 0 0) (rowWith demoPlayer 0)) (fun t =>
      (t.channel.active, t.channel.inst.toNat, t.channel.volume.toNat, t.channel.period.toNat, t.channel.inc.toNat)) =
    some (false, 0, 0, 428, 771) := by decide

/-- V-N3: an empty instrument. -/
theorem test_note_empty_instrument :
    onNext (exec (.arpeggio 428 2 0) (rowWith demoPlayer 0)) (fun t => (t.channel.active, t.channel.inst.toNat)) =
    some (false, 2) := by decide

/-- V-N4, V-N5: no note-on leaves the channel as it was. -/
theorem test_no_note_on :
    onNext (exec (.arpeggio 428 16 0) (rowWith demoPlayer 0)) (fun t => t.channel) = some Channel.reset ∧
    onNext (exec (.arpeggio 0 1 0) (rowWith demoPlayer 0)) (fun t => t.channel) = some Channel.reset := by decide

/-- V-U1, V-U2: arpeggio is silent with value 0 only. -/
theorem test_arpeggio :
    onNext (exec (.arpeggio 0 0 0) (rowWith demoPlayer 0)) (fun t => t.diags) = some [] ∧
    onNext (exec (.arpeggio 0 0 0x37) (rowWith demoPlayer 0)) (fun t => t.diags) =
      some [⟨.unsupportedEffect, 0, 0x0, 0x37⟩] := by decide

/-- V-U3: commands 0x3 to 0x9 on channel 1. -/
theorem test_unsupported :
    onNext (exec (.tonePorta 0 0 0x12) (rowWith demoPlayer 1)) (fun t => t.diags) = some [⟨.unsupportedEffect, 1, 0x3, 0x12⟩] ∧
    onNext (exec (.vibrato 0 0 0x12) (rowWith demoPlayer 1)) (fun t => t.diags) = some [⟨.unsupportedEffect, 1, 0x4, 0x12⟩] ∧
    onNext (exec (.tonePortaVolslide 0 0 0x12) (rowWith demoPlayer 1)) (fun t => t.diags) =
      some [⟨.unsupportedEffect, 1, 0x5, 0x12⟩] ∧
    onNext (exec (.vibratoVolslide 0 0 0x12) (rowWith demoPlayer 1)) (fun t => t.diags) =
      some [⟨.unsupportedEffect, 1, 0x6, 0x12⟩] ∧
    onNext (exec (.tremolo 0 0 0x12) (rowWith demoPlayer 1)) (fun t => t.diags) = some [⟨.unsupportedEffect, 1, 0x7, 0x12⟩] ∧
    onNext (exec (.unassigned8 0 0 0x12) (rowWith demoPlayer 1)) (fun t => t.diags) =
      some [⟨.unsupportedEffect, 1, 0x8, 0x12⟩] ∧
    onNext (exec (.sampleOffset 0 0 0x12) (rowWith demoPlayer 1)) (fun t => t.diags) =
      some [⟨.unsupportedEffect, 1, 0x9, 0x12⟩] := by decide

/-- V-U4: the extended command. -/
theorem test_extended :
    onNext (exec (.extended 0 0 0x01) (rowWith demoPlayer 0)) (fun t => t.diags) =
    some [⟨.unsupportedEffect, 0, 0xE, 0x01⟩] := by decide

/-- V-P1, V-P2 at the row event: the slot is armed and the period is the note's. -/
theorem test_porta_arms :
    onNext (exec (.portaUp 428 1 0x03) (rowWith demoPlayer 0)) (fun t =>
      (t.channel.eff, t.channel.effParam.toNat, t.channel.period.toNat)) = some (.portaUp, 3, 428) ∧
    onNext (exec (.portaDown 428 1 0x10) (rowWith demoPlayer 0)) (fun t =>
      (t.channel.eff, t.channel.effParam.toNat, t.channel.period.toNat)) = some (.portaDown, 16, 428) := by decide

/-- V-E3, V-E4, V-E5, V-E6: volume slides from 40 under INT8. -/
theorem test_volumeSlide :
    onNext (exec (.volumeSlide 428 1 0x05) (rowWith demoPlayer 0)) (fun t => t.channel.volume.toNat) = some 45 ∧
    onNext (exec (.volumeSlide 428 1 0x30) (rowWith demoPlayer 0)) (fun t => t.channel.volume.toNat) = some 64 ∧
    onNext (exec (.volumeSlide 428 1 0xF0) (rowWith demoPlayer 0)) (fun t => t.channel.volume.toNat) = some 24 ∧
    onNext (exec (.volumeSlide 428 1 0x80) (rowWith demoPlayer 0)) (fun t => t.channel.volume.toNat) = some 0 := by decide

/-- V-E7, V-E8: the deltas under NIBBLE. -/
theorem test_slideDelta_nibble :
    slideDelta { Params.default with volSlideMode := .nibble } 0xF0 = 15 ∧
    slideDelta { Params.default with volSlideMode := .nibble } 0x0A = -10 := by decide

/-- V-E1, V-E2: set volume over the instrument's default, and clamped on an inactive channel. -/
theorem test_setVolume :
    onNext (exec (.setVolume 428 1 0x20) (rowWith demoPlayer 0)) (fun t => t.channel.volume.toNat) = some 32 ∧
    onNext (exec (.setVolume 0 0 0x7F) (rowWith demoPlayer 0)) (fun t => (t.channel.volume.toNat, t.channel.active)) =
      some (64, false) := by decide

/-- V-S3, V-S6: speed 3, and value 0 ignored. -/
theorem test_setSpeed :
    onNext (exec (.setSpeedTempo 0 0 0x03) (rowWith demoPlayer 0)) (fun t =>
      (t.player.speed.toNat, t.player.tickCounter.toNat)) = some (3, 3) ∧
    onNext (exec (.setSpeedTempo 0 0 0x00) (rowWith demoPlayer 0)) (fun t => (t.player.speed.toNat, t.diags)) =
      some (6, [⟨.speedIgnored, 0, 0xF, 0x00⟩]) := by decide

/-- V-S7: tempo 32 and 255. -/
theorem test_setTempo :
    onNext (exec (.setSpeedTempo 0 0 0x20) (rowWith demoPlayer 0)) (fun t => (t.player.tempo.toNat, t.player.spt.toNat)) =
      some (32, 3445) ∧
    onNext (exec (.setSpeedTempo 0 0 0xFF) (rowWith demoPlayer 0)) (fun t => (t.player.tempo.toNat, t.player.spt.toNat)) =
      some (255, 432) := by decide

/-! ### Row events: channel 3 ends the event -/

/-- V-S1: an empty row. -/
theorem test_empty_row_ends : onNext (step (rowWord 3 0x00000000)) pcOf = some (0, 1, false) := by decide

/-- V-S10, V-S8: a jump to 2, and a jump to 0 that loops silently. -/
theorem test_positionJump :
    onNext (step (rowWord 3 0x00000B02)) pcOf = some (2, 0, false) ∧
    onNext (step (rowWord 3 0x00000B00)) pcOf = some (0, 0, false) := by decide

/-- V-S9, V-S11: with `cfg.LOOP` off both a jump to 0 and a jump past the end finish the song. -/
theorem test_song_end :
    onNext (step { rowWord 3 0x00000B00 with cfgLoop := false }) pcOf = some (0, 0, true) ∧
    onNext (step { rowWord 3 0x00000B07 with cfgLoop := false }) pcOf = some (0, 0, true) := by decide

/-- V-S12, V-S14: a break to row 32, and one to row 64 that is ignored with a diagnostic. -/
theorem test_patternBreak :
    onNext (step (rowWord 3 0x00000D32)) pcOf = some (1, 32, false) ∧
    onNext (step (rowWord 3 0x00000D64)) (fun t => (pcOf t, t.diags)) =
      some ((0, 1, false), [⟨.breakRowOutOfRange, 3, 0xD, 0x64⟩]) := by decide

/-- V-S13: a break decodes BCD digits above 9 as they stand, and reaches row 63. -/
theorem test_breakRow : breakRow 0x1A = 20 ∧ breakRow 0x63 = 63 ∧ breakRow 0xFF = 165 := by decide

/-- V-S20: row 63 under TARGET_PLUS_ONE wraps to row 0 of the position after. -/
theorem test_patternBreak_plus_one :
    onNext (step { rowWord 3 0x00000D63 with params := { Params.default with breakRowMode := .targetPlusOne } }) pcOf =
    some (2, 0, false) := by decide

/-- V-S21: the last row of a pattern. -/
theorem test_last_row :
    onNext (step { rowWord 3 0 with player := { (rowWord 3 0).player with rowPos := 63 } }) pcOf = some (1, 0, false) := by
  decide

/-- A word placed after power-up runs first: `1AC 00 C20` names no instrument, so only its volume is heard of. -/
theorem test_withFetchWord :
    onNext (step (State.reset.withFetchWord 32 0x01AC0C20)) (fun t =>
      (t.player.ch.c0.volume.toNat, t.player.ch.c0.period.toNat, t.chan.val)) = some (32, 428, 1) := by decide

/-! ### Ticks -/

/-- A channel with a period and an armed slot. -/
def sliding (period : BitVec 12) (eff : Effect) (param : BitVec 8) : Channel :=
  { Channel.reset with period := period, eff := eff, effParam := param }

/-- Period and increment of a channel. -/
def pitch (c : Channel) : Nat × Nat := (c.period.toNat, c.inc.toNat)

/-- V-P1, V-P3: one tick of a slide up, and its clamp. -/
theorem test_slide_up :
    pitch (perTick Params.default (sliding 428 .portaUp 0x03)) = (425, 777) ∧
    pitch (perTick Params.default (sliding 200 .portaUp 0xFF)) = (113, 2922) := by decide

/-- V-P2, V-P4: one tick of a slide down, and its clamp. -/
theorem test_slide_down :
    pitch (perTick Params.default (sliding 428 .portaDown 0x10)) = (444, 743) ∧
    pitch (perTick Params.default (sliding 601 .portaDown 0xFF)) = (856, 385) := by decide

/-- V-P5: parameter 0 still clamps; V-P6: the other direction. -/
theorem test_slide_clamp_and_direction :
    pitch (perTick Params.default (sliding 900 .portaUp 0)) = (856, 385) ∧
    pitch (perTick { Params.default with portaDir := .upIncreases } (sliding 428 .portaUp 0x03)) = (431, 766) := by decide

/-! ### Formulas (S1, S2 and the table of section 2.3) -/

theorem test_phaseInc :
    phaseInc Params.default 428 = 771 ∧ phaseInc { Params.default with outputRate := 4000 } 1 = 3641344 ∧
    phaseInc { Params.default with outputRate := 192000 } 4095 = 18 := by decide

theorem test_samplesPerTick :
    samplesPerTick Params.default 125 = 882 ∧ samplesPerTick { Params.default with outputRate := 11025 } 125 = 220 ∧
    samplesPerTick { Params.default with outputRate := 192000 } 32 = 15000 := by decide

/-! ### Synthesis: one call on an instrument of its own -/

/-- A buffer whose first bytes are samples. -/
def samplesBuf (bytes : List Byte) : Memory := Memory.ofBytes bytes

/-- A view with that one instrument. -/
def oneInst (length : Nat) (loop : Bool) (loopStart loopEnd : Nat) : View :=
  { View.powerUp with insts := [⟨0, length, 64, loop, loopStart, loopEnd⟩] }

/-- An active channel on it. -/
def voice (length : Nat) (volume : BitVec 7) (pos inc : BitVec 32) (ls : LoopState) (loopStart loopEnd : Nat) : Channel where
  active      := true
  inst        := 1
  volume      := volume
  period      := 428
  eff         := .none
  effParam    := 0
  pos         := pos
  inc         := inc
  lengthFx    := toFx length
  loopState   := ls
  loopStartFx := toFx loopStart
  loopEndFx   := toFx loopEnd

/-- Value, position, `active` and loop state after one call. -/
def heard (r : Except Fault (Int × Channel)) : Option (Int × Nat × Bool × LoopState) :=
  match r with
  | .ok (x, c) => some (x, c.pos.toNat, c.active, c.loopState)
  | .error _   => none

/-- V-Y4: the two extremes. -/
theorem test_synth_extremes :
    heard (synth Params.default (samplesBuf [0x80, 0x7F]) (oneInst 2 false 0 0) (voice 2 64 0 4096 .notLooping 0 0)) =
      some (-32768, 4096, true, .notLooping) ∧
    heard (synth Params.default (samplesBuf [0x80, 0x7F]) (oneInst 2 false 0 0) (voice 2 64 4096 4096 .notLooping 0 0)) =
      some (32512, 8192, true, .notLooping) := by decide

/-- V-Y6: the position equal to the length plays once more, then the channel ends. -/
theorem test_synth_end :
    heard (synth Params.default (samplesBuf [0x10, 0x20]) (oneInst 2 false 0 0) (voice 2 64 8192 4096 .notLooping 0 0)) =
    some (8192, 12288, false, .notLooping) := by decide

/-- V-Y7: a negative value under the two roundings. -/
theorem test_synth_rounding :
    heard (synth Params.default (samplesBuf [0xFF, 0x00]) (oneInst 2 false 0 0) (voice 2 1 1000 0 .notLooping 0 0)) =
      some (-3, 1000, true, .notLooping) ∧
    heard (synth { Params.default with signedDiv := .floor } (samplesBuf [0xFF, 0x00]) (oneInst 2 false 0 0)
      (voice 2 1 1000 0 .notLooping 0 0)) = some (-4, 1000, true, .notLooping) := by decide

/-- V-Y10, V-Y11: the end of a full pass of a looping sample, under RESET and under SUBTRACT. -/
theorem test_synth_loop :
    heard (synth Params.default (samplesBuf [1, 2, 3, 4, 5, 6]) (oneInst 6 true 2 6) (voice 6 64 24576 6144 .looping 2 6)) =
      some (1536, 8192, true, .loopTail) ∧
    heard (synth { Params.default with loopWrap := .subtract } (samplesBuf [1, 2, 3, 4, 5, 6]) (oneInst 6 true 2 6)
      (voice 6 64 24576 6144 .looping 2 6)) = some (1536, 14336, true, .loopTail) := by decide

/-- V-Y13: two subtractions in one wrap. -/
theorem test_synth_subtract_twice :
    heard (synth { Params.default with loopWrap := .subtract } (samplesBuf [1, 2, 3, 4, 5, 6, 7, 8]) (oneInst 8 true 0 4)
      (voice 8 64 30720 6144 .looping 0 4)) = some (2048, 4096, true, .loopTail) := by decide

/-! ### Mixer -/

/-- V-M1, V-M4: the three modes under TRUNC. -/
theorem test_mix_trunc :
    mixValues Params.default .mono ⟨4096, 0, -1024, 1⟩ = [768] ∧
    mixValues Params.default .stereoHard ⟨4096, 0, -1024, 1⟩ = [2048, -512] ∧
    mixValues Params.default .stereoSoft ⟨4096, 0, -1024, 1⟩ = [1408, 128] ∧
    mixValues Params.default .stereoHard ⟨-3, 0, 0, 0⟩ = [-1, 0] := by decide

/-- V-M6: all three modes under FLOOR. -/
theorem test_mix_floor :
    mixValues { Params.default with signedDiv := .floor } .mono ⟨-5, -7, 0, 0⟩ = [-3] ∧
    mixValues { Params.default with signedDiv := .floor } .stereoHard ⟨-5, -7, 0, 0⟩ = [-3, -4] ∧
    mixValues { Params.default with signedDiv := .floor } .stereoSoft ⟨-5, -7, 0, 0⟩ = [-3, -4] := by decide

/-- V-M7, V-M8: the extremes fit. -/
theorem test_mix_extremes :
    (mix Params.default .stereoSoft ⟨-32768, -32768, -32768, -32768⟩).map BitVec.toInt = [-32768, -32768] ∧
    (mix Params.default .mono ⟨32512, 32512, 32512, 32512⟩).map BitVec.toInt = [32512] := by decide

/-- The two byte orders of a serialised sample (20_memory.md R32). -/
theorem test_serialise : serialise .little [0x1234] = [0x34, 0x12] ∧ serialise .big [0x1234] = [0x12, 0x34] := by decide

/-! ### Module decoder -/

/-- V-D1: one byte short of the header. -/
theorem test_decode_short : decodeModule ⟨0x257, []⟩ = .ok (.error .shortHeader) := by decide

/-- V-D2, V-D3: the pattern the all-zero sequence names does not fit. -/
theorem test_decode_patterns :
    decodeModule ⟨0x258, []⟩ = .ok (.error .patternsBeyondBuffer) ∧
    decodeModule ⟨0x657, []⟩ = .ok (.error .patternsBeyondBuffer) := by decide +kernel

/-- V-D4: the smallest module. -/
theorem test_decode_smallest : decodeModule ⟨0x658, []⟩ = .ok (.ok View.powerUp) := by decide +kernel

/-- The head of a view, where a module decodes. -/
def viewHead (r : Except Fault (Except Malformed View)) : Option (Nat × Nat × Nat × Nat) :=
  match r with
  | .ok (.ok v) => some (v.ninst, v.seqLen, v.patternBase, v.sampleStart)
  | _           => none

/-- V-D6, V-D7: the tag selects the layout; "M.k." does not match. -/
theorem test_decode_tag :
    viewHead (decodeModule ⟨0x83C, [(0x438, 0x4D), (0x439, 0x2E), (0x43A, 0x4B), (0x43B, 0x2E)]⟩) =
      some (31, 1, 0x43C, 0x83C) ∧
    viewHead (decodeModule ⟨0x83C, [(0x438, 0x4D), (0x439, 0x2E), (0x43A, 0x6B), (0x43B, 0x2E)]⟩) =
      some (15, 1, 0x258, 0x658) := by decide +kernel

/-- V-D8: the clamp of the sequence length byte. -/
theorem test_clampSeqLen : [0, 1, 128, 129, 255].map clampSeqLen = [1, 1, 128, 128, 128] := by decide

/-- V-D9, V-D10: an entry past the sequence length does not count, one inside does. -/
theorem test_decode_sequence :
    viewHead (decodeModule ⟨0x658, [(0x1D6, 1), (0x1D9, 9)]⟩) = some (15, 1, 0x258, 0x658) ∧
    decodeModule ⟨0x658, [(0x1D6, 2), (0x1D9, 9)]⟩ = .ok (.error .patternsBeyondBuffer) := by decide +kernel

/-- V-D11: the default volume byte. -/
theorem test_defaultVolume :
    [0x40, 0x41, 0x7F, 0x85, 0xC8].map (fun b => (defaultVolume b).toNat) = [64, 64, 64, 5, 64] := by decide

/-- The first two instruments placed from raw headers of 200 and 6 bytes. -/
def placed (bufLen loopAt loopRaw : Nat) : List Instrument :=
  placeInstruments bufLen 0x658 [⟨200, 0, loopAt, loopRaw⟩, ⟨6, 0, 0, 0⟩]

/-- V-D12, V-D14, V-D15: no loop, a loop, a loop end cut at the length. -/
theorem test_place_loops :
    placed (0x658 + 300) 0 1 = [⟨0x658, 200, 0, false, 0, 0⟩, ⟨0x720, 6, 0, false, 0, 0⟩] ∧
    placed (0x658 + 300) 20 2 = [⟨0x658, 200, 0, true, 20, 24⟩, ⟨0x720, 6, 0, false, 0, 0⟩] ∧
    placed (0x658 + 300) 20 100 = [⟨0x658, 200, 0, true, 20, 200⟩, ⟨0x720, 6, 0, false, 0, 0⟩] := by decide

/-- V-D16, V-D17, V-D18: an instrument cut at the buffer end; the next starts at the raw length. -/
theorem test_place_cut :
    placed (0x658 + 150) 0 50 = [⟨0x658, 150, 0, true, 0, 100⟩, ⟨0x720, 0, 0, false, 0, 0⟩] ∧
    placed (0x658 + 150) 160 4 = [⟨0x658, 150, 0, false, 0, 0⟩, ⟨0x720, 0, 0, false, 0, 0⟩] ∧
    placed 0x658 0 50 = [⟨0x658, 0, 0, false, 0, 0⟩, ⟨0x720, 0, 0, false, 0, 0⟩] := by decide

/-! ### Host operations -/

/-- V-H2: a position at or past the length changes nothing; a smaller one is set with row 0. -/
theorem test_setSequencePosition :
    onNext (step (idleWith demoPlayer (.setSequencePosition 0 4))) pcOf = some (0, 0, false) ∧
    onNext (step (idleWith demoPlayer (.setSequencePosition 0 3))) pcOf = some (3, 0, false) := by decide

/-- `get_sequence_length` answers the length (R182). -/
theorem test_getSequenceLength :
    onNext (step (idleWith demoPlayer (.getSequenceLength 0))) (fun t => t.results) = some [.sequenceLength 4] := by decide

/-- `set_option` with 0 turns an option off, with another value on, and ignores an unknown option (R181). -/
theorem test_setOption :
    onNext (step (idleWith demoPlayer (.setOption .loop 0))) (fun t => (t.cfgLoop, t.cfgSupportTempo)) = some (false, true) ∧
    onNext (step (idleWith demoPlayer (.setOption .supportTempo 0))) (fun t => (t.cfgLoop, t.cfgSupportTempo)) =
      some (true, false) ∧
    onNext (step { idleWith demoPlayer (.setOption .loop (-1)) with cfgLoop := false }) (fun t => t.cfgLoop) = some true ∧
    onNext (step (idleWith demoPlayer (.setOption (.other 2) 0))) (fun t => (t.cfgLoop, t.cfgSupportTempo)) =
      some (true, true) := by decide

/-- V-H4: a `render` of no frames returns true and writes nothing. -/
theorem test_render_zero :
    onNext (step (frameWith demoPlayer 0)) (fun t => (t.results, t.phase)) = some ([.rendered true []], .idle) := by decide

/-- R224: the first frame is silent and starts row 0; the counter holds 882. -/
theorem test_first_frame :
    onNext (step (frameWith demoPlayer 1)) (fun t =>
      (t.out.map BitVec.toInt, t.phase, t.player.samplesUntilTick.toNat, t.player.tickCounter.toNat)) =
    some ([0], .row ⟨0, .mono⟩, 882, 6) := by decide

/-! ### Witnesses: states and operands that meet the hypotheses of each statement -/

theorem demo_view_ok : ViewOk demoBuf demoView where
  memory      := by decide
  variant     := .inl (by decide)
  title       := by decide
  seqLen      := by decide
  slots       := by decide
  patterns    := by decide
  instCount   := by decide
  instruments := by
    intro ins h
    simp only [demoView, List.mem_cons, List.mem_replicate] at h
    rcases h with rfl | rfl | rfl | ⟨_, rfl⟩ <;> constructor <;> decide

theorem reset_channel_ok : ChannelOk demoView Channel.reset := by
  constructor <;> decide

/-- An active channel on instrument 3, in its loop at the first byte past the length. -/
def loopingVoice : Channel := voice 8 48 32768 3641344 .looping 4 8

theorem looping_voice_ok : ChannelOk demoView { loopingVoice with inst := 3 } := by
  constructor <;> decide

theorem demo_player_ok (fin : Bool) : PlayerOk Params.default { demoPlayer with finished := fin } where
  view     := demo_view_ok
  speed    := (by decide : 1 ≤ demoPlayer.speed.toNat ∧ demoPlayer.speed.toNat ≤ 31)
  tempo    := (by decide : 32 ≤ demoPlayer.tempo.toNat)
  spt      := (by decide : demoPlayer.spt.toNat = samplesPerTick Params.default demoPlayer.tempo.toNat)
  ticks    := (by decide : 1 ≤ demoPlayer.tickCounter.toNat ∧ demoPlayer.tickCounter.toNat ≤ 31)
  samples  := (by decide : 1 ≤ demoPlayer.samplesUntilTick.toNat ∧ demoPlayer.samplesUntilTick.toNat ≤ 15000)
  channels := forall_fin4.mpr ⟨reset_channel_ok, reset_channel_ok, reset_channel_ok, reset_channel_ok⟩

theorem demo_pc_ok (fin : Bool) : PcOk { demoPlayer with finished := fin } :=
  ⟨(by decide : 0 < 4), (by decide : 0 < 64)⟩

/-- Between operations, finished or not, with any operation pending. -/
theorem witness_inv_idle (fin : Bool) (op : HostOp) : Inv (idleWith { demoPlayer with finished := fin } op) := by
  constructor <;> try exact fun _ => ⟨rfl, rfl, rfl, rfl⟩
  · rfl
  · exact fun _ => demo_player_ok fin
  · exact fun _ _ => demo_pc_ok fin
  · intro h; cases h
  · intro h; exact absurd rfl h
  · exact fun _ => rfl
  · intro q h; cases h
  · exact List.Pairwise.nil
  · intro q h; cases h
  · intro h hh
    cases hh
    exact ⟨Nat.zero_lt_one, List.not_mem_nil⟩

/-- Inside a `render`, finished or not. -/
theorem witness_inv_frame (fin : Bool) (n : Nat) : Inv (frameWith { demoPlayer with finished := fin } n) := by
  constructor <;> try exact fun _ => ⟨rfl, rfl, rfl, rfl⟩
  · rfl
  · exact fun _ => demo_player_ok fin
  · exact fun _ _ => demo_pc_ok fin
  · intro h; cases h
  · exact fun _ => rfl
  · intro h; cases h
  · intro q h; cases h
  · exact List.Pairwise.nil
  · intro q h; cases h
  · intro h hh
    cases hh
    exact ⟨Nat.zero_lt_one, List.not_mem_nil⟩

/-- Inside a row event, at any channel. -/
theorem witness_inv_row (i : Fin 4) : Inv (rowWith demoPlayer i) := by
  constructor
  · rfl
  · exact fun _ => demo_player_ok false
  · intro _ h; cases h
  · exact fun _ => ⟨(by decide : 0x258 + 16 ≤ 0x668), (by decide : 0 < 64), Nat.zero_le _⟩
  · exact fun _ => rfl
  · intro h; cases h
  · intro h; cases h
  · intro q h; cases h
  · exact List.Pairwise.nil
  · intro q h; cases h
  · intro h hh
    cases hh
    exact ⟨Nat.zero_lt_one, List.not_mem_nil⟩

/-- Two players: number 1 is current, number 0 is parked and finished; the pending operation is about number 1. -/
def twoPlayers : State :=
  { State.reset with
    player := demoPlayer, handle := some 1, parked := [(0, donePlayer)], nextHandle := 2
    queue := [.setSequencePosition 1 2] }

theorem two_players_inv : Inv twoPlayers := by
  constructor <;> try exact fun _ => ⟨rfl, rfl, rfl, rfl⟩
  · rfl
  · exact fun _ => demo_player_ok false
  · exact fun _ _ => demo_pc_ok false
  · intro h; cases h
  · intro h; exact absurd rfl h
  · exact fun _ => rfl
  · intro q h
    simp only [twoPlayers, List.mem_singleton] at h
    subst h
    exact ⟨demo_player_ok true, demo_pc_ok true⟩
  · exact List.pairwise_singleton _ _
  · intro q h
    simp only [twoPlayers, List.mem_singleton] at h
    subst h
    exact (by decide : 0 < 2)
  · intro h hh
    cases hh
    exact ⟨by decide, by decide⟩

/-- DecodeOfEncodeGivesTheInstruction. -/
theorem witness_wf : Instr.wf (.positionJump 4095 31 0xFF) = true := rfl

/-- MemReadFaultsExactlyOutsideTheBuffer, each clause at its boundary. -/
theorem witness_memRead :
    0x667 < demoBuf.len ∧ demoBuf.len ≤ 0x668 ∧ demoBuf.read 0x658 = some 0x10 ∧ demoBuf.read (0x658 + 1) = some 0x20 := by
  decide

/-- UnsupportedCommandsOnlyReport. -/
theorem witness_reportsOnly : reportsOnly (.tonePorta 0 0 0) = true ∧ reportsOnly (.extended 4095 31 0xFF) = true := by
  decide

/-- PatternBreakNamesItsRowOrReports, both clauses at the boundary: 0x63 is row 63, 0x64 is row 64. -/
theorem witness_patternBreak :
    (0x63#8).toNat / 16 * 10 + (0x63#8).toNat % 16 ≤ 63 ∧ 63 < (0x64#8).toNat / 16 * 10 + (0x64#8).toNat % 16 := by decide

/-- SetSpeedTempoReadsItsValue: a boundary value of each clause; 31 falls under the last one with `SPEED_MAX` 30. -/
theorem witness_setSpeedTempo :
    (1 ≤ (0x01#8).toNat ∧ (0x1F#8).toNat ≤ 31) ∧
    (32 ≤ (0x20#8).toNat ∧ (rowWith demoPlayer 0).cfgSupportTempo = true) ∧
    (32 ≤ (0xFF#8).toNat ∧ State.cfgSupportTempo { rowWith demoPlayer 0 with cfgSupportTempo := false } = false) ∧
    (0x00#8).toNat = 0 ∧ (30 < (0x1F#8).toNat ∧ (0x1F#8).toNat < 32) := by decide

/-- StepRunsTheDecodedRowWord, at the first and the last channel. -/
theorem witness_row_step (i : Fin 4) (h : i = 0 ∨ i = 3) :
    (rowWord i 0x01AC1C20).phase = .row ⟨0, .mono⟩ ∧
    (rowWord i 0x01AC1C20).memByte (0x258 + 4 * i.val) = some 0x01 ∧
    (rowWord i 0x01AC1C20).memByte (0x258 + 4 * i.val + 1) = some 0xAC ∧
    (rowWord i 0x01AC1C20).memByte (0x258 + 4 * i.val + 2) = some 0x1C ∧
    (rowWord i 0x01AC1C20).memByte (0x258 + 4 * i.val + 3) = some 0x20 ∧
    decodeWord (wordOfBytes 0x01 0xAC 0x1C 0x20) = .setVolume 428 1 0x20 ∧
    ∃ t, exec (.setVolume 428 1 0x20) (rowWord i 0x01AC1C20) = .next t := by
  rcases h with rfl | rfl <;>
    exact ⟨by decide, by decide, by decide, by decide, by decide, by decide, _, rfl⟩

/-- PlacedWordRunsFirstAfterReset, at both ends of the range. -/
theorem witness_word_range : 0 < 2 ^ 32 ∧ 0xFFFFFFFF < 2 ^ 32 := by decide

/-- RowEndResolvesTheProgramCounter: a song end by the marker, one by the length (the last row of the last position), and
no song end. -/
theorem witness_row_end :
    State.flowMarker { rowWith demoPlayer 3 with flowMarker := true } = true ∧
    demoView.seqLen ≤ (if 63 < 63 + 1 then 3 + 1 else 3) ∧
    ¬ (false = true ∨ demoView.seqLen ≤ (if 63 < 62 + 1 then 3 + 1 else 3)) := by decide

/-- EmptyRowAdvancesToTheNextRow. -/
theorem witness_empty_row :
    (rowWith demoPlayer 0).phase = .row ⟨0, .mono⟩ ∧ (rowWith demoPlayer 0).chan = 0 ∧
    (rowWith demoPlayer 0).flowTaken = false ∧ (rowWith demoPlayer 0).flowMarker = false ∧
    (∀ k, k < 16 → (rowWith demoPlayer 0).memByte ((rowWith demoPlayer 0).rowBase + k) = some 0#8) ∧
    (rowWith demoPlayer 0).player.rowPos < 63 ∧ (rowWith demoPlayer 0).player.seqPos < demoView.seqLen := by decide

/-- RowEventLocatesItsRowOnce. -/
theorem witness_row_event : demoPlayer.tickCounter.toNat ≤ 1 ∧ demoView.seq[demoPlayer.seqPos]? = some 0 := by decide

/-- IntermediateTickSlidesArmedChannels: the tick counter at its boundary 2, with every kind of slot among the
channels. -/
theorem witness_intermediate_tick :
    let ch : Channels := ⟨sliding 428 .portaUp 3, sliding 428 .portaDown 3, Channel.reset, Channel.reset⟩
    let s : State := { frameWith demoPlayer 1 with player := { demoPlayer with tickCounter := 2, ch := ch } }
    1 < s.player.tickCounter.toNat ∧ (s.player.ch.get 0).eff = .portaUp ∧ (s.player.ch.get 1).eff = .portaDown ∧
      (s.player.ch.get 2).eff = .none := by decide

/-- ProgramCounterMovesOnlyAsItsRulesSay: the two clauses inside a `render`; and between operations a step about player 1
that leaves player 0, and one that is no `set_sequence_position`. -/
theorem witness_pc_moves :
    (∃ t, step (frameWith demoPlayer 1) = .next t) ∧
    (∃ t w, step (rowWith demoPlayer 0) = .next t ∧
      fetchRowWord (rowWith demoPlayer 0).player.buf (fetchAddress (rowWith demoPlayer 0)) = .ok w ∧
      (decodeWord w).command ≠ 0xB#4 ∧ (decodeWord w).command ≠ 0xD#4) ∧ (rowWith demoPlayer 0).chan ≠ 3 ∧
    (Inv twoPlayers ∧ twoPlayers.phase = .idle ∧ twoPlayers.playerOf 0 = some donePlayer ∧
      (∀ position, twoPlayers.queue.head? ≠ some (.setSequencePosition 0 position)) ∧
      ∃ t, step twoPlayers = .next t ∧ t.playerOf 0 = some donePlayer) ∧
    (Inv (idleWith demoPlayer (.getSequenceLength 0)) ∧
      (∀ position, (idleWith demoPlayer (.getSequenceLength 0)).queue.head? ≠ some (.setSequencePosition 0 position)) ∧
      ∃ t, step (idleWith demoPlayer (.getSequenceLength 0)) = .next t ∧ t.playerOf 0 = some demoPlayer) :=
  ⟨⟨_, rfl⟩, ⟨_, 0, rfl, by decide, by decide, by decide⟩, by decide,
    ⟨two_players_inv, rfl, by decide, (fun _ h => by cases h), _, rfl, rfl⟩,
    ⟨witness_inv_idle false _, (fun _ h => by cases h), _, rfl, rfl⟩⟩

/-- FrameWithoutTickOnlyRendersAndCounts, with the frame counter at 2, next to the tick. -/
theorem witness_frame_without_tick :
    let s : State := frameWith { demoPlayer with samplesUntilTick := 2 } 1
    s.phase = .frame ⟨0 + 1, .mono⟩ ∧ silenced s = false ∧ s.player.samplesUntilTick ≠ 1 ∧
    synth s.params s.player.buf s.player.view s.player.ch.c0 = .ok (0, Channel.reset) ∧
    synth s.params s.player.buf s.player.view s.player.ch.c1 = .ok (0, Channel.reset) ∧
    synth s.params s.player.buf s.player.view s.player.ch.c2 = .ok (0, Channel.reset) ∧
    synth s.params s.player.buf s.player.view s.player.ch.c3 = .ok (0, Channel.reset) := by decide

/-- TickComesAfterOutputAndReload. -/
theorem witness_frame_with_tick :
    let s : State := frameWith demoPlayer 1
    s.phase = .frame ⟨0 + 1, .mono⟩ ∧ silenced s = false ∧ s.player.samplesUntilTick = 1 ∧
    synthAll s.params s.player.buf s.player.view s.player.ch = .ok (⟨0, 0, 0, 0⟩, Channels.reset) := by decide

/-- SilencedFrameEmitsZerosAndFreezes. -/
theorem witness_silenced :
    let s : State := { frameWith donePlayer 1 with params := { Params.default with postFinish := .silence } }
    s.phase = .frame ⟨0 + 1, .mono⟩ ∧ s.player.finished = true ∧ s.params.postFinish = .silence := by decide

/-- FirstFrameIsSilentAndStartsRowZero. -/
theorem witness_first_frame :
    (frameWith demoPlayer 1).player = freshPlayer (frameWith demoPlayer 1).params demoBuf demoView ∧
    (frameWith demoPlayer 1).phase = .frame ⟨0 + 1, .mono⟩ ∧ demoView.seq[0]? = some 0 := by decide

/-- InactiveChannelIsSilentAndStill. -/
theorem witness_inactive : Channel.reset.active = false := rfl

/-- ActiveChannelInterpolatesAndScales and SampleReadsStayInTheInstrument: inside the instrument and at its clamped
end. -/
theorem witness_active :
    let ins := demoView.instrument 1
    (voice 4 40 771 771 .notLooping 0 0).active = true ∧ 0 < ins.length ∧
    demoBuf.read (ins.start + min (771 / 4096) (ins.length - 1)) = some 0x10 ∧
    demoBuf.read (ins.start + min (771 / 4096 + 1) (ins.length - 1)) = some 0x20 ∧
    demoBuf.read (ins.start + min (16384 / 4096) (ins.length - 1)) = some 0x40 ∧
    demoBuf.read (ins.start + min (16384 / 4096 + 1) (ins.length - 1)) = some 0x40 := by decide

/-- SampleReadsStayInTheInstrument: two buffers that differ outside instrument 1 only. -/
theorem witness_same_samples :
    (∀ a, (demoView.instrument 1).start ≤ a → a < (demoView.instrument 1).start + (demoView.instrument 1).length →
      (demoBuf.place 0 1).read a = demoBuf.read a) ∧ (demoBuf.place 0 1).read 0 ≠ demoBuf.read 0 := by
  refine ⟨fun a h1 h2 => ?_, by decide⟩
  obtain ⟨k, rfl⟩ := Nat.exists_eq_add_of_le h1
  have hk : k < 4 := by
    have : (demoView.instrument 1).length = 4 := rfl
    omega
  match k, hk with
  | 0, _ => decide
  | 1, _ => decide
  | 2, _ => decide
  | 3, _ => decide

/-- InterpolationLiesBetweenTheSamples, at both ends of the fraction. -/
theorem witness_fraction : 0 < 4096 ∧ 4095 < 4096 := by decide

/-- SynthesizedValueIsInRange and SynthesisKeepsTheChannelBounded: a looping channel whose sum passes the length; the
volume at its boundary. -/
theorem witness_synth :
    ViewOk demoBuf demoView ∧ ChannelOk demoView { loopingVoice with inst := 3 } ∧
    (∃ x c, synth Params.default demoBuf demoView { loopingVoice with inst := 3 } = .ok (x, c) ∧
      c.loopState = .loopTail) ∧ (64#7).toNat ≤ 64 :=
  ⟨demo_view_ok, looping_voice_ok, ⟨_, _, rfl, by decide⟩, by decide⟩

/-- SynthesisKeepsTheChannelBounded, the two other clauses: a channel without a loop that ends, and one still in its
first pass. -/
theorem witness_synth_clauses :
    heard (synth Params.default demoBuf demoView (voice 4 40 16384 771 .notLooping 0 0)) =
      some (10240, 17155, false, .notLooping) ∧
    heard (synth Params.default demoBuf demoView { voice 8 48 28672 4096 .looping 4 8 with inst := 3 }) =
      some (6144, 32768, true, .looping) := by decide

/-- AdvanceEndsLoopsOrWraps: each clause at its boundary, the sum equal to the bound and one past it. Both readings of the
wrap are in test_synth_loop. -/
theorem witness_advance :
    (voice 8 48 32767 1 .looping 4 8).active = true ∧
    (voice 8 48 32767 1 .looping 4 8).pos.toNat + (voice 8 48 32767 1 .looping 4 8).inc.toNat = 32768 ∧
    (voice 8 48 32767 2 .looping 4 8).pos.toNat + (voice 8 48 32767 2 .looping 4 8).inc.toNat = 32769 ∧
    (voice 8 48 0 0 .looping 4 8).lengthFx.toNat = 32768 ∧ (voice 8 48 0 0 .looping 4 8).loopEndFx.toNat = 32768 := by
  decide

/-- SubtractWrapIsTheLoopsResult: the worked wrap of V-Y13. -/
theorem witness_subtract : 0 < 16384 ∧ 16384 < 36864 ∧ subtractWrap 36864 0 16384 = 4096 := by decide

/-- MixerOutputsFitSixteenBits, at both bounds. -/
theorem witness_lanes :
    (-32768 ≤ (-32768 : Int) ∧ (-32768 : Int) ≤ 32512) ∧ (-32768 ≤ (32512 : Int) ∧ (32512 : Int) ≤ 32512) := by decide

/-- IncrementAndTickLengthStayInRange, at both ends of each range. -/
theorem witness_rates :
    Params.wf { Params.default with outputRate := 4000 } = true ∧
    Params.wf { Params.default with outputRate := 192000 } = true ∧ 1 ≤ 1 ∧ 4095 ≤ 4095 ∧ 32 ≤ 32 ∧ 255 ≤ 255 := by decide

/-- SetOptionWritesOnlyItsOption, SequenceLengthIsAnswered, SetSequencePositionMovesOnlyTheProgramCounter and the first
half of RenderBeginsEmptyAndAnswersNotFinished: a player that is current, the operation at the head of the queue. -/
theorem witness_host_operation (op : HostOp) :
    (idleWith demoPlayer op).phase = .idle ∧ (idleWith demoPlayer op).playerOf 0 = some demoPlayer ∧
    (idleWith demoPlayer op).queue = op :: [] ∧ Inv (idleWith demoPlayer op) :=
  ⟨rfl, rfl, rfl, witness_inv_idle false op⟩

/-- The same three operations on the parked player 0, while player 1 is current: player 0 becomes current and player 1
stays as it was. -/
theorem witness_parked_operation :
    twoPlayers.phase = .idle ∧ twoPlayers.playerOf 0 = some donePlayer ∧ twoPlayers.handle = some 1 ∧
    onNext (step { twoPlayers with queue := [.getSequenceLength 0] }) (fun t => (t.results, t.playerOf 1)) =
      some ([.sequenceLength 4], some demoPlayer) ∧
    onNext (step { twoPlayers with queue := [.setSequencePosition 0 3] }) (fun t => (t.handle, pcOf t, t.playerOf 1)) =
      some (some 0, (3, 0, true), some demoPlayer) ∧
    onNext (step { twoPlayers with queue := [.render 0 2 .mono 2] }) (fun t => (t.handle, t.phase, t.playerOf 1)) =
      some (some 0, .frame ⟨2, .mono⟩, some demoPlayer) := by decide

/-- RenderBeginsEmptyAndAnswersNotFinished: just enough room, and a `render` at its end. -/
theorem witness_room : 3 * frameWidth .stereoHard ≤ 6 ∧ (frameWith demoPlayer 0).phase = .frame ⟨0, .mono⟩ := by decide

/-- InitializeSetsEveryResetValue, DecodedViewIsWellFormed and DecodedViewHoldsTheHeaderFields: the smallest module. -/
theorem witness_module_decodes :
    decodeModule (Memory.ofBytes (List.replicate 0x658 0)) = .ok (.ok View.powerUp) := by decide +kernel

/-- A module with the tag, and a first instrument of 8 bytes that loops over its second half. -/
def taggedModule : List Byte :=
  List.replicate 0x2B 0 ++ [4, 0, 48, 0, 2, 0, 2] ++ List.replicate 0x406 0 ++ [0x4D, 0x2E, 0x4B, 0x2E] ++
    List.replicate 0x400 0 ++ List.replicate 8 1

/-- DecodedViewHoldsTheHeaderFields, with the 31-instrument layout and a loop. -/
theorem witness_tagged_module_decodes :
    (match decodeModule (Memory.ofBytes taggedModule) with
      | .ok (.ok v) => some (v.ninst, v.patternBase, v.sampleStart, v.insts[0]?)
      | _ => none) = some (31, 0x43C, 0x83C, some ⟨0x83C, 8, 48, true, 4, 8⟩) := by decide +kernel

/-- FailedInitializeChangesNothing, with each tag. -/
theorem witness_module_fails :
    decodeModule (Memory.ofBytes []) = .ok (.error .shortHeader) ∧
    decodeModule (Memory.ofBytes (List.replicate 0x258 0)) = .ok (.error .patternsBeyondBuffer) := by decide +kernel

/-- OperationsNeedAPlayer: number 7 names no player. -/
theorem witness_no_player :
    (idleWith demoPlayer (.render 7 1 .mono 1)).phase = .idle ∧ opPlayer (.render 7 1 .mono 1) = some 7 ∧
    (idleWith demoPlayer (.render 7 1 .mono 1)).playerOf 7 = none := by decide

/-- BrokenHostDutiesAreRefused: one sample too little, and a disturbed buffer. -/
theorem witness_broken_duties :
    (idleWith demoPlayer (.render 0 3 .stereoSoft 5)).playerOf 0 = some demoPlayer ∧ 5 < 3 * frameWidth .stereoSoft ∧
    (idleWith demoPlayer (.disturbBuffer 0)).playerOf 0 = some demoPlayer := by decide

/-- EveryStepKeepsTheInvariant, NoStepFaultsFromTheInvariant: states of the invariant in every phase, each with a next
state. -/
theorem witness_steps :
    (Inv (idleWith demoPlayer (.discard 0)) ∧ ∃ t, step (idleWith demoPlayer (.discard 0)) = .next t) ∧
    (Inv (frameWith demoPlayer 1) ∧ ∃ t, step (frameWith demoPlayer 1) = .next t) ∧
    (Inv (rowWith demoPlayer 3) ∧ ∃ t, step (rowWith demoPlayer 3) = .next t) :=
  ⟨⟨witness_inv_idle false _, _, rfl⟩, ⟨witness_inv_frame false 1, _, rfl⟩, ⟨witness_inv_row 3, _, rfl⟩⟩

/-- EveryRenderCompletes, with no frame and with frames to do. -/
theorem witness_render :
    (Inv (frameWith demoPlayer 0) ∧ (frameWith demoPlayer 0).phase = .frame ⟨0, .mono⟩) ∧
    (Inv (frameWith demoPlayer 2) ∧ (frameWith demoPlayer 2).phase = .frame ⟨2, .mono⟩) :=
  ⟨⟨witness_inv_frame false 0, rfl⟩, ⟨witness_inv_frame false 2, rfl⟩⟩

/-- FinishedIsALatch, OtherPlayersAreUntouched and ViewAndBufferNeverChange: the parked player 0 is finished, the step is
about player 1. -/
theorem witness_two_players :
    Inv twoPlayers ∧ (∃ t, step twoPlayers = .next t ∧ t.playerOf 0 = some donePlayer) ∧
    twoPlayers.playerOf 0 = some donePlayer ∧ donePlayer.finished = true ∧ actingPlayer twoPlayers ≠ some 0 :=
  ⟨two_players_inv, ⟨_, rfl, rfl⟩, by decide, rfl, by decide⟩

/-- OnlySetOptionWritesTheConfiguration: a step inside a `render`, and the begin of an operation that is no
`set_option`. -/
theorem witness_configuration :
    (frameWith demoPlayer 1).phase ≠ .idle ∧
    (∀ o value, (idleWith demoPlayer (.discard 0)).queue.head? ≠ some (.setOption o value)) :=
  ⟨by decide, fun _ _ h => by cases h⟩

/-- SplittingARenderChangesNoSample: the step clause, inside a `render` and in a row event; and a player with room for both
calls and for the one, each with just enough. -/
theorem witness_split_render :
    ((frameWith demoPlayer 1).phase ≠ .idle ∧ ∀ mode, (frameWith demoPlayer 1).phase ≠ .frame ⟨0, mode⟩) ∧
    ((rowWith demoPlayer 0).phase ≠ .idle ∧ ∀ mode, (rowWith demoPlayer 0).phase ≠ .frame ⟨0, mode⟩) ∧
    (Inv twoPlayers ∧ twoPlayers.phase = .idle ∧ twoPlayers.playerOf 0 = some donePlayer) ∧
    1 * frameWidth .stereoSoft ≤ 2 ∧ 2 * frameWidth .stereoSoft ≤ 4 ∧ (1 + 2) * frameWidth .stereoSoft ≤ 6 :=
  ⟨⟨by decide, fun _ h => by cases h⟩, ⟨by decide, fun _ h => by cases h⟩,
    ⟨two_players_inv, rfl, by decide⟩, by decide, by decide, by decide⟩

end Sys2Proof.Tests
end

section
/-! The module buffer's reads (00_scope.md R7, 20_memory.md R30, R31). -/
namespace Sys2Proof.Machine

/-- `BE16` weighs the byte at the lower address by 256 (20_memory.md R31). -/
theorem be16_of_reads {m : Memory} {a : Nat} {hi lo : Byte} (hhi : m.read a = some hi)
    (hlo : m.read (a + 1) = some lo) : be16 m a = .ok (256 * hi.toNat + lo.toNat) := by
  rw [Nat.mul_comm, be16, memRead_eq_ok.mpr hhi, memRead_eq_ok.mpr hlo]
  rfl

/-- Settles O5: the two sides of the buffer's end are `memRead_inside` and `memRead_outside`. -/
theorem memReadFaultsExactlyOutsideTheBuffer : Obligations.MemReadFaultsExactlyOutsideTheBuffer := by
  intro m a
  refine ⟨fun inside => ?_, memRead_outside, fun hi lo => be16_of_reads⟩
  exact ⟨_, memRead_inside inside⟩

end Sys2Proof.Machine
end

section
/-! A view that decodes has the ranges of 10_state.md R21 and R22: what each reader of 40_decoder.md answers, then the
view assembled from it. -/
namespace Sys2Proof.Machine

/-- A computation in two parts answers exactly when both parts do. -/
theorem except_bind_eq_ok {ε α β : Type} {x : Except ε α} {f : α → Except ε β} {r : β} :
    (x >>= f) = .ok r ↔ ∃ a, x = .ok a ∧ f a = .ok r := by
  constructor
  · intro h
    cases x with
    | error e => cases h
    | ok a => exact ⟨a, rfl, h⟩
  · rintro ⟨a, rfl, h⟩
    exact h

/-! ### Instrument headers -/

theorem be16_le {m : Memory} {a n : Nat} (h : be16 m a = .ok n) : n ≤ 65535 := by
  simp only [be16, except_bind_eq_ok] at h
  obtain ⟨hi, -, lo, -, hn⟩ := h
  cases hn
  omega

theorem defaultVolume_le (b : Byte) : (defaultVolume b).toNat ≤ 64 := by
  simp only [defaultVolume, BitVec.toNat_ofNat]
  omega

/-- The ranges of what an instrument header gives (40_decoder.md R75). -/
structure RawHeader.Bounded (r : RawHeader) : Prop where
  length : r.length ≤ 131070
  volume : r.volume.toNat ≤ 64

theorem readHeader_bounded {m : Memory} {a : Nat} {r : RawHeader} (h : readHeader m a = .ok r) : r.Bounded := by
  simp only [readHeader, except_bind_eq_ok] at h
  obtain ⟨len, hlen, vol, -, ls, -, ll, -, hr⟩ := h
  cases hr
  have := be16_le hlen
  exact ⟨by dsimp only; omega, defaultVolume_le vol⟩

theorem readHeaders_bounded {m : Memory} {a n : Nat} {rs : List RawHeader} (h : readHeaders m a n = .ok rs) :
    rs.length = n ∧ ∀ r ∈ rs, r.Bounded := by
  induction n generalizing a rs with
  | zero =>
    cases h
    exact ⟨rfl, fun r hr => nomatch hr⟩
  | succ n ih =>
    simp only [readHeaders, except_bind_eq_ok] at h
    obtain ⟨r, hr, rest, hrest, hrs⟩ := h
    cases hrs
    obtain ⟨hlen, hall⟩ := ih hrest
    exact ⟨congrArg (· + 1) hlen, List.forall_mem_cons.mpr ⟨readHeader_bounded hr, hall⟩⟩

/-! ### Placed instruments -/

/-- Cutting at the buffer end and taking the loop only inside the length keeps an instrument in range (40_decoder.md
R79, R80). -/
theorem placeInstrument_ok {bufLen cur : Nat} {r : RawHeader} (hr : r.Bounded) :
    InstrumentOk bufLen (placeInstrument bufLen cur r) := by
  have hlen := hr.length
  simp only [placeInstrument]
  split
  · exact ⟨by dsimp only; omega, by dsimp only; omega, hr.volume, fun h => nomatch h⟩
  · exact ⟨by dsimp only; omega, by dsimp only; omega, hr.volume, fun _ => by dsimp only; omega⟩

theorem placeInstruments_length (bufLen cur : Nat) (rs : List RawHeader) :
    (placeInstruments bufLen cur rs).length = rs.length := by
  induction rs generalizing cur with
  | nil => rfl
  | cons r rest ih => exact congrArg (· + 1) (ih _)

theorem placeInstruments_ok {bufLen cur : Nat} {rs : List RawHeader} (hrs : ∀ r ∈ rs, r.Bounded) :
    ∀ ins ∈ placeInstruments bufLen cur rs, InstrumentOk bufLen ins := by
  induction rs generalizing cur with
  | nil => exact fun ins h => nomatch h
  | cons r rest ih =>
    obtain ⟨hr, hrest⟩ := List.forall_mem_cons.mp hrs
    exact List.forall_mem_cons.mpr ⟨placeInstrument_ok hr, ih hrest⟩

/-! ### The sequence and the patterns -/

theorem clampSeqLen_range (b : Byte) : 1 ≤ clampSeqLen b ∧ clampSeqLen b ≤ 128 := by
  unfold clampSeqLen
  omega

theorem le_maxPattern {b : Byte} {bs : List Byte} (h : b ∈ bs) : b.toNat ≤ maxPattern bs := by
  induction bs with
  | nil => cases h
  | cons c rest ih =>
    simp only [maxPattern]
    rcases List.mem_cons.mp h with rfl | hb
    · exact Nat.le_max_left _ _
    · exact (ih hb).trans (Nat.le_max_right _ _)

/-- Every used pattern ends at the sample start or before (40_decoder.md R78). -/
theorem pattern_end_le_sampleStartOf {l : Layout} {seq : List Byte} {n : Nat} {pat : Byte} (h : pat ∈ seq.take n) :
    l.patternBase + 1024 * (pat.toNat + 1) ≤ sampleStartOf l seq n := by
  have := le_maxPattern h
  unfold sampleStartOf
  omega

/-! ### The decoder -/

theorem selectLayout_cases {m : Memory} {l : Layout} (h : selectLayout m = .ok l) : l = layout15 ∨ l = layout31 := by
  unfold selectLayout at h
  split at h
  · obtain ⟨tag, -, hl⟩ := except_bind_eq_ok.mp h
    cases hl
    split
    · exact .inr rfl
    · exact .inl rfl
  · cases h
    exact .inl rfl

/-- Everything a module that decodes has answered to its readers, and the view built from it. -/
theorem decodeModule_cases {m : Memory} {v : View} (h : decodeModule m = .ok (.ok v)) :
    ∃ l title headers lenByte seq,
      selectLayout m = .ok l ∧ memReadBytes m 0 20 = .ok title ∧ readHeaders m 0x14 l.ninst = .ok headers ∧
      memRead m l.seqLenOff = .ok lenByte ∧ memReadBytes m l.seqOff 128 = .ok seq ∧
      sampleStartOf l seq (clampSeqLen lenByte) ≤ m.len ∧
      v = buildView m.len l title seq (clampSeqLen lenByte) (sampleStartOf l seq (clampSeqLen lenByte)) headers := by
  unfold decodeModule at h
  split at h
  · cases h
  · obtain ⟨l, hl, h⟩ := except_bind_eq_ok.mp h
    simp only [decodeWith, except_bind_eq_ok] at h
    obtain ⟨title, htitle, headers, hheaders, lenByte, hlen, seq, hseq, h⟩ := h
    split at h
    · cases h
    · cases h
      exact ⟨l, title, headers, lenByte, seq, hl, htitle, hheaders, hlen, hseq, Nat.not_lt.mp ‹_›, rfl⟩

theorem decodeModule_viewOk {m : Memory} {v : View} (hm : m.wf = true) (h : decodeModule m = .ok (.ok v)) :
    ViewOk m v := by
  obtain ⟨l, title, headers, lenByte, seq, hl, htitle, hheaders, -, hseq, hfit, rfl⟩ := decodeModule_cases h
  obtain ⟨hcount, hbounded⟩ := readHeaders_bounded hheaders
  exact
    { memory      := hm
      variant     := by rcases selectLayout_cases hl with rfl | rfl <;> simp [buildView, layout15, layout31]
      title       := memReadBytes_length htitle
      seqLen      := clampSeqLen_range lenByte
      slots       := memReadBytes_length hseq
      patterns    := fun _ hpat => (pattern_end_le_sampleStartOf hpat).trans hfit
      instCount   := (placeInstruments_length _ _ _).trans hcount
      instruments := placeInstruments_ok hbounded }

/-- Settles O46: a loaded buffer is in canonical form, and every reader of the decoder keeps its range. -/
theorem decodedViewIsWellFormed : Obligations.DecodedViewIsWellFormed :=
  fun bytes _ h => decodeModule_viewOk (Memory.ofBytes_wf bytes) h

end Sys2Proof.Machine
end

section
/-! Synthesis keeps a channel within the bounds of 10_state.md R24 (43_synthesizer.md R146 to R150). -/
namespace Sys2Proof.Machine

/-! ### The instruments of a view, and the fixed-point bounds a channel copies from them -/

theorem toNat_toFx {n : Nat} (h : n ≤ 131070) : (toFx n).toNat = n * 4096 := by
  simp only [toFx, BitVec.toNat_ofNat]
  omega

theorem instrument_none_ok (bufLen : Nat) : InstrumentOk bufLen Instrument.none :=
  ⟨.inl rfl, Nat.zero_le _, Nat.zero_le _, fun h => nomatch h⟩

/-- Every instrument number a view is asked for gives an instrument in range (10_state.md R22). -/
theorem ViewOk.instrument_ok {m : Memory} {v : View} (hv : ViewOk m v) (k : BitVec 5) :
    InstrumentOk m.len (v.instrument k) := by
  unfold View.instrument
  split
  · exact instrument_none_ok _
  · cases hk : v.insts[k.toNat - 1]? with
    | none => exact instrument_none_ok _
    | some ins => exact hv.instruments ins (List.mem_of_getElem? hk)

section
variable {m : Memory} {v : View} {c : Channel}

theorem ChannelOk.lengthFx_le (hc : ChannelOk v c) (hv : ViewOk m v) : c.lengthFx.toNat ≤ 536862720 := by
  have hsize := (hv.instrument_ok c.inst).size
  rw [hc.lengthFx, toNat_toFx hsize]
  omega

/-- A channel with a loop has it inside its instrument, and not empty (40_decoder.md R80). -/
theorem ChannelOk.loop_bounds (hc : ChannelOk v c) (hv : ViewOk m v) (hl : c.loopState ≠ .notLooping) :
    c.loopStartFx.toNat < c.loopEndFx.toNat ∧ c.loopEndFx.toNat ≤ c.lengthFx.toNat := by
  have hins := hv.instrument_ok c.inst
  have hsize := hins.size
  have hloop : (v.instrument c.inst).hasLoop = true := by
    cases h : (v.instrument c.inst).hasLoop with
    | false => exact absurd (hc.loops.mpr h) hl
    | true => rfl
  obtain ⟨hlt, hle⟩ := hins.loop hloop
  rw [hc.lengthFx, hc.loopStart, hc.loopEnd, toNat_toFx (by omega), toNat_toFx (by omega), toNat_toFx hsize]
  omega

theorem ChannelOk.pos_le (hc : ChannelOk v c) (hv : ViewOk m v) : c.pos.toNat ≤ c.lengthFx.toNat + 3641344 := by
  have hpos := hc.pos
  cases hl : c.loopState with
  | notLooping =>
    simp only [posBound, hl] at hpos
    split at hpos <;> omega
  | looping =>
    simp only [posBound, hl] at hpos
    omega
  | loopTail =>
    have hloop := hc.loop_bounds hv (by simp [hl])
    simp only [posBound, hl] at hpos
    omega

/-- The sum of an advance fits its 32 bits (43_synthesizer.md R150). -/
theorem ChannelOk.advance_fits (hc : ChannelOk v c) (hv : ViewOk m v) : c.pos.toNat + c.inc.toNat < 2 ^ 32 := by
  have hlen := hc.lengthFx_le hv
  have hpos := hc.pos_le hv
  have hinc := hc.inc
  omega

end

/-! ### The advance and the wrap -/

theorem advancePos_pos {c : Channel} (h : c.pos.toNat + c.inc.toNat < 2 ^ 32) :
    (advancePos c).pos.toNat = c.pos.toNat + c.inc.toNat := by
  simp only [advancePos, BitVec.toNat_ofNat]
  exact Nat.mod_eq_of_lt h

theorem subtractWrap_le {pos loopStart loopEnd : Nat} (hspan : loopStart < loopEnd) :
    subtractWrap pos loopStart loopEnd ≤ loopEnd := by
  unfold subtractWrap
  have hdiv := Nat.div_add_mod (pos - loopEnd + (loopEnd - loopStart) - 1) (loopEnd - loopStart)
  have hmod := Nat.mod_lt (pos - loopEnd + (loopEnd - loopStart) - 1) (Nat.sub_pos_of_lt hspan)
  dsimp only
  omega

/-- Under both readings of the wrap the position comes back to the loop end or below (43_synthesizer.md R149). -/
theorem wrapPos_pos_le (P : Params) {c : Channel} (hspan : c.loopStartFx.toNat < c.loopEndFx.toNat) :
    (wrapPos P c).pos.toNat ≤ c.loopEndFx.toNat := by
  unfold wrapPos
  cases P.loopWrap with
  | reset => exact Nat.le_of_lt hspan
  | subtract =>
    simp only [BitVec.toNat_ofNat]
    exact (Nat.mod_le _ _).trans (subtractWrap_le hspan)

theorem wrapPos_loopState (P : Params) (c : Channel) : (wrapPos P c).loopState = c.loopState := by
  unfold wrapPos
  cases P.loopWrap <;> rfl

/-- A channel in its loop is at the loop end or below once the wrap has been asked for. -/
theorem wrap_of_loopTail (P : Params) {c : Channel} (hl : c.loopState = .loopTail)
    (hspan : c.loopStartFx.toNat < c.loopEndFx.toNat) :
    (if pastLoopEnd c then wrapPos P c else c).loopState = .loopTail ∧
      (if pastLoopEnd c then wrapPos P c else c).pos.toNat ≤ c.loopEndFx.toNat := by
  by_cases hpast : c.loopEndFx.toNat < c.pos.toNat
  · have hw : pastLoopEnd c = true := by simp [pastLoopEnd, hl, hpast]
    rw [if_pos hw]
    exact ⟨(wrapPos_loopState P c).trans hl, wrapPos_pos_le P hspan⟩
  · have hw : ¬ pastLoopEnd c = true := by simp [pastLoopEnd, hpast]
    rw [if_neg hw]
    exact ⟨hl, Nat.not_lt.mp hpast⟩

/-- Outside the loop no wrap is asked for. -/
theorem wrap_of_not_loopTail (P : Params) {c : Channel} (hl : c.loopState ≠ .loopTail) :
    (if pastLoopEnd c then wrapPos P c else c) = c :=
  if_neg (by simp [pastLoopEnd, hl])

theorem pastEnd_advancePos {c : Channel} (hfits : c.pos.toNat + c.inc.toNat < 2 ^ 32) :
    pastEnd (advancePos c) = true ↔ c.lengthFx.toNat < c.pos.toNat + c.inc.toNat := by
  rw [pastEnd, decide_eq_true_eq, advancePos_pos hfits]
  rfl

/-- Everything an advance can leave, by loop state: a channel without a loop plays on or ends, one in its first pass
stays at or below the length, and one in its loop at or below the loop end. -/
theorem afterSample_cases (P : Params) {c : Channel} (hfits : c.pos.toNat + c.inc.toNat < 2 ^ 32)
    (hspan : c.loopState ≠ .notLooping → c.loopStartFx.toNat < c.loopEndFx.toNat) :
    (c.loopState = .notLooping ∧ (afterSample P c).loopState = .notLooping ∧
      (afterSample P c).pos.toNat = c.pos.toNat + c.inc.toNat ∧
      ((afterSample P c).active = true → c.pos.toNat + c.inc.toNat ≤ c.lengthFx.toNat)) ∨
    (c.loopState = .looping ∧ (afterSample P c).loopState = .looping ∧
      (afterSample P c).pos.toNat ≤ c.lengthFx.toNat) ∨
    (c.loopState ≠ .notLooping ∧ (afterSample P c).loopState = .loopTail ∧
      (afterSample P c).pos.toNat ≤ c.loopEndFx.toNat) := by
  have hq := advancePos_pos hfits
  have hend := pastEnd_advancePos hfits
  have hsame : (advancePos c).loopState = c.loopState := rfl
  simp only [afterSample, endOfSample, hsame]
  cases hl : c.loopState with
  | notLooping =>
    left
    split
    · rw [wrap_of_not_loopTail P (by simp)]
      exact ⟨rfl, rfl, hq, nofun⟩
    · rw [wrap_of_not_loopTail P (by simp [hsame, hl])]
      exact ⟨rfl, hl, hq, fun _ => Nat.not_lt.mp (mt hend.mpr ‹_›)⟩
  | looping =>
    right
    split
    · right
      exact ⟨nofun, wrap_of_loopTail P rfl (hspan (by simp [hl]))⟩
    · left
      rw [wrap_of_not_loopTail P (by simp [hsame, hl])]
      exact ⟨rfl, hl, hq.trans_le (Nat.not_lt.mp (mt hend.mpr ‹_›))⟩
  | loopTail =>
    right
    right
    split
    · exact ⟨nofun, wrap_of_loopTail P rfl (hspan (by simp [hl]))⟩
    · exact ⟨nofun, wrap_of_loopTail P hl (hspan (by simp [hl]))⟩

/-! ### The invariant of a channel -/

/-- A channel whose sample has been played keeps the registers a note-on set, so only its loop state and position are
new. -/
theorem ChannelOk.of_advance {P : Params} {v : View} {c : Channel} (hc : ChannelOk v c) (hactive : c.active = true)
    (hloops : (afterSample P c).loopState = .notLooping ↔ c.loopState = .notLooping)
    (hpos : (afterSample P c).pos.toNat ≤ posBound (afterSample P c)) : ChannelOk v (afterSample P c) := by
  rw [afterSample_keeps] at hloops hpos ⊢
  exact
    { inst      := hc.inst
      volume    := hc.volume
      inc       := hc.inc
      lengthFx  := hc.lengthFx
      loopStart := hc.loopStart
      loopEnd   := hc.loopEnd
      loops     := hloops.trans hc.loops
      active    := fun _ => hc.active hactive
      pos       := hpos }

theorem afterSample_lengthFx (P : Params) (c : Channel) : (afterSample P c).lengthFx = c.lengthFx := by
  rw [afterSample_keeps]

theorem afterSample_loopEndFx (P : Params) (c : Channel) : (afterSample P c).loopEndFx = c.loopEndFx := by
  rw [afterSample_keeps]

theorem afterSample_ok {P : Params} {m : Memory} {v : View} {c : Channel} (hv : ViewOk m v) (hc : ChannelOk v c)
    (hactive : c.active = true) : ChannelOk v (afterSample P c) := by
  obtain ⟨hl, hl', hpos, hplays⟩ | ⟨hl, hl', hpos⟩ | ⟨hl, hl', hpos⟩ :=
    afterSample_cases P (hc.advance_fits hv) (fun hl => (hc.loop_bounds hv hl).1)
  · refine hc.of_advance hactive (by simp [hl, hl']) ?_
    have hbound := hc.pos
    have hinc := hc.inc
    simp only [posBound, hl, hactive, if_true] at hbound
    simp only [posBound, hl', afterSample_lengthFx]
    split
    · exact hpos.trans_le (hplays ‹_›)
    · omega
  · exact hc.of_advance hactive (by simp [hl, hl']) (by simpa only [posBound, hl', afterSample_lengthFx])
  · exact hc.of_advance hactive (by simp [hl, hl']) (by simpa only [posBound, hl', afterSample_loopEndFx])

theorem synth_ok {P : Params} {m : Memory} {v : View} {c c' : Channel} {x : Int} (hv : ViewOk m v)
    (hc : ChannelOk v c) (h : synth P m v c = .ok (x, c')) : ChannelOk v c' := by
  obtain ⟨-, -, rfl⟩ | ⟨hactive, -, rfl⟩ := synth_cases h
  · exact hc
  · exact afterSample_ok hv hc hactive

/-- The position an active channel without a loop reaches in one frame. -/
theorem synth_pos_le_of_notLooping {P : Params} {m : Memory} {v : View} {c c' : Channel} {x : Int} (hv : ViewOk m v)
    (hc : ChannelOk v c) (h : synth P m v c = .ok (x, c')) (hactive : c.active = true)
    (hl' : c'.loopState = .notLooping) : c'.pos.toNat ≤ c'.lengthFx.toNat + c.inc.toNat := by
  obtain ⟨hidle, -, -⟩ | ⟨-, -, rfl⟩ := synth_cases h
  · simp [hactive] at hidle
  · obtain ⟨hl, -, hpos, -⟩ | ⟨-, hl, -⟩ | ⟨-, hl, -⟩ :=
      afterSample_cases P (hc.advance_fits hv) (fun hl => (hc.loop_bounds hv hl).1)
    · have hbound := hc.pos
      simp only [posBound, hl, hactive, if_true] at hbound
      rw [afterSample_lengthFx]
      omega
    · rw [hl] at hl'
      cases hl'
    · rw [hl] at hl'
      cases hl'

/-- Settles O31: the advance by cases of the loop state, the position bounds read off the kept invariant. -/
theorem synthesisKeepsTheChannelBounded : Obligations.SynthesisKeepsTheChannelBounded := by
  intro P m v c c' x hv hc h
  have hc' := synth_ok hv hc h
  refine ⟨hc.advance_fits hv, hc', synth_pos_le_of_notLooping hv hc h, fun hl => ?_, fun hl => ?_⟩
  · simpa only [posBound, hl] using hc'.pos
  · simpa only [posBound, hl] using hc'.pos

end Sys2Proof.Machine
end

section
/-! What the steps of the block leave unchanged: everything a row word, the end of a row event, a frame and a host
operation can do, said once, and the frame of a step inside a `render` (10_state.md R11, R16, R21). -/
namespace Sys2Proof.Machine

/-! ### Row words -/

/-- Everything the command of a row word can do after the note part (42_effects.md R110 to R126). -/
inductive CommandEffect (s : State) : State → Prop where
  | nothing : CommandEffect s s
  | report (kind : DiagKind) (command : BitVec 4) (val : BitVec 8) : CommandEffect s (s.emitDiag kind command val)
  | arm (eff : Effect) (val : BitVec 8) : CommandEffect s (armSlot eff val s)
  | volume (v : Int) : CommandEffect s (writeVolume v s)
  | flow (seq row : Nat) (marker : Bool) (hrow : row < 64) (hseq : seq ≤ 255 ∨ seq = s.player.seqPos + 1) :
      CommandEffect s ((s.setPc seq row).markFlow marker)
  | speed (v : BitVec 8) (hlow : 1 ≤ v.toNat) (hhigh : v.toNat ≤ speedLimit s.params) :
      CommandEffect s (s.setSpeed v)
  | tempo (v : BitVec 8) (hlow : 32 ≤ v.toNat) : CommandEffect s (s.setTempo v)

theorem arpeggioEffect_effect (val : BitVec 8) (s : State) : CommandEffect s (arpeggioEffect val s) := by
  unfold arpeggioEffect
  split
  · exact .nothing
  · exact .report _ _ _

theorem positionJumpEffect_effect (val : BitVec 8) (s : State) : CommandEffect s (positionJumpEffect val s) :=
  .flow _ _ _ (by decide) (.inl (by omega))

theorem patternBreakEffect_effect (val : BitVec 8) (s : State) : CommandEffect s (patternBreakEffect val s) := by
  unfold patternBreakEffect
  split
  · exact .report _ _ _
  · exact .flow _ _ _ (by omega) (.inr rfl)

theorem setSpeedTempoEffect_effect (val : BitVec 8) (s : State) : CommandEffect s (setSpeedTempoEffect val s) := by
  unfold setSpeedTempoEffect
  split
  · next h => exact .speed val h.1 h.2
  · split
    · next h =>
      split
      · exact .tempo val h
      · exact .report _ _ _
    · exact .report _ _ _

/-- A row word is its note part, then one of the effects of a command. -/
theorem exec_effect {i : Instr} {s t : State} (h : exec i s = .next t) :
    CommandEffect (noteStage i.period i.inst s) t := by
  cases i <;> cases h
  case arpeggio => exact arpeggioEffect_effect _ _
  case portaUp => exact .arm _ _
  case portaDown => exact .arm _ _
  case volumeSlide => exact .volume _
  case setVolume => exact .volume _
  case positionJump => exact positionJumpEffect_effect _ _
  case patternBreak => exact patternBreakEffect_effect _ _
  case setSpeedTempo => exact setSpeedTempoEffect_effect _ _
  all_goals exact .report _ _ _

theorem CommandEffect.rowFrame {s t : State} (h : CommandEffect s t) : RowFrame s t := by
  cases h with
  | nothing => exact RowFrame.refl s
  | report kind command val => exact emitDiag_frame s kind command val
  | arm eff val => exact setChannel_frame s _
  | volume v => exact setChannel_frame s _
  | flow seq row marker => exact (setPc_frame s seq row).trans (markFlow_frame _ marker)
  | speed v => exact setSpeed_frame s v
  | tempo v => exact setTempo_frame s v

theorem CommandEffect.buf {s t : State} (h : CommandEffect s t) : t.player.buf = s.player.buf := by
  cases h <;> rfl

/-! ### The end of a row event -/

theorem resolveRow_cases (s : State) : ∃ seq row, resolveRow s = s.setPc seq row ∧ row < 64 := by
  by_cases h : 63 < if incrementsRow s then s.player.rowPos + 1 else s.player.rowPos
  · exact ⟨_, 0, if_pos h, by decide⟩
  · exact ⟨_, _, if_neg h, by omega⟩

/-- The song end check either ends the song or leaves a position below the sequence length (41_sequencer.md R98). -/
theorem songEndCheck_cases (s : State) :
    songEndCheck s = { s with player := { s.player with seqPos := 0, finished := finishedAfterEnd s } } ∨
    (songEndCheck s = s ∧ s.player.seqPos < s.player.view.seqLen) := by
  unfold songEndCheck
  split
  · exact .inl rfl
  · next h =>
    simp only [songEnds, Bool.or_eq_true, decide_eq_true_eq, not_or, Nat.not_le] at h
    exact .inr ⟨rfl, h.2⟩

/-- Everything the end of a row event can be: a row below 64, the position 0 or below the sequence length, the latch as
it was or as a song end sets it. -/
theorem endRow_cases (job : RenderJob) (s : State) :
    ∃ seq row fin, row < 64 ∧ (seq = 0 ∨ seq < s.player.view.seqLen) ∧
      (fin = s.player.finished ∨ fin = finishedAfterEnd s) ∧
      endRow job s = { s with
        phase := .frame job, chan := 0, rowBase := 0, flowTaken := false, flowMarker := false
        player := { s.player with seqPos := seq, rowPos := row, finished := fin } } := by
  obtain ⟨seq, row, hr, hrow⟩ := resolveRow_cases s
  rw [endRow, hr]
  obtain hend | ⟨hgo, hseq⟩ := songEndCheck_cases (s.setPc seq row)
  · rw [hend]
    exact ⟨0, row, _, hrow, .inl rfl, .inr rfl, rfl⟩
  · rw [hgo]
    exact ⟨seq, row, _, hrow, .inr hseq, .inl rfl, rfl⟩

/-! ### Host operations -/

/-- Everything the begin of a host operation that is not refused can do (45_host_interface.md R180 to R188). -/
inductive OpEffect (s : State) : HostOp → State → Prop where
  | malformed (bytes : List Byte) (tag : Malformed) : OpEffect s (.initializePlayer bytes) (s.answer (.malformed tag))
  | install (bytes : List Byte) (v : View) (hv : decodeModule (Memory.ofBytes bytes) = .ok (.ok v)) :
      OpEffect s (.initializePlayer bytes) (installPlayer (freshPlayer s.params (Memory.ofBytes bytes) v) s)
  | option (o : HostOption) (value : Int) : OpEffect s (.setOption o value) (setOption o value s)
  | length (h : Nat) (u : State) (hu : s.select h = some u) : OpEffect s (.getSequenceLength h) (getSequenceLength u)
  | position (h position : Nat) (u : State) (hu : s.select h = some u) :
      OpEffect s (.setSequencePosition h position) (setSequencePosition position u)
  | render (h frames : Nat) (mode : MixMode) (room : Nat) (u : State) (hu : s.select h = some u) :
      OpEffect s (.render h frames mode room) (beginRender frames mode u)
  | discard (h : Nat) (u : State) (hu : s.select h = some u) : OpEffect s (.discard h) (discardCurrent u)

theorem runInitialize_effect {bytes : List Byte} {s t : State} (h : runInitialize bytes s = .ok t) :
    OpEffect s (.initializePlayer bytes) t := by
  simp only [runInitialize, except_bind_eq_ok] at h
  obtain ⟨r, hr, h⟩ := h
  cases r with
  | error tag =>
    cases h
    exact .malformed bytes tag
  | ok v =>
    cases h
    exact .install bytes v hr

theorem onPlayer_cases {h : Nat} {s t : State} {f : State → Host.Outcome State Fault Refusal}
    (hf : onPlayer h s f = .next t) : ∃ u, s.select h = some u ∧ f u = .next t := by
  unfold onPlayer at hf
  split at hf
  · exact ⟨_, by assumption, hf⟩
  · cases hf

theorem beginOp_effect {op : HostOp} {s t : State} (h : beginOp op s = .next t) : OpEffect s op t := by
  cases op with
  | initializePlayer bytes =>
    simp only [beginOp] at h
    split at h
    · cases h
      exact runInitialize_effect ‹_›
    · cases h
  | setOption o value =>
    cases h
    exact .option o value
  | getSequenceLength g =>
    obtain ⟨u, hu, h⟩ := onPlayer_cases h
    cases h
    exact .length g u hu
  | setSequencePosition g position =>
    obtain ⟨u, hu, h⟩ := onPlayer_cases h
    cases h
    exact .position g position u hu
  | render g frames mode room =>
    obtain ⟨u, hu, h⟩ := onPlayer_cases h
    split at h
    · cases h
      exact .render g frames mode room u hu
    · cases h
  | discard g =>
    obtain ⟨u, hu, h⟩ := onPlayer_cases h
    cases h
    exact .discard g u hu
  | disturbBuffer g =>
    obtain ⟨u, -, h⟩ := onPlayer_cases h
    cases h

/-! ### The frame of a step inside a `render` -/

/-- What no step inside a `render` changes: the configuration, the other players, and of the current player its view and
buffer; its latch is not cleared, and with LOOP on not set (10_state.md R11, R16, R21). -/
structure InsideRender (s t : State) : Prop where
  params          : t.params = s.params
  cfgLoop         : t.cfgLoop = s.cfgLoop
  cfgSupportTempo : t.cfgSupportTempo = s.cfgSupportTempo
  handle          : t.handle = s.handle
  parked          : t.parked = s.parked
  nextHandle      : t.nextHandle = s.nextHandle
  view            : t.player.view = s.player.view
  buf             : t.player.buf = s.player.buf
  latch           : s.player.finished = true → t.player.finished = true
  loopOn          : s.cfgLoop = true → t.player.finished = s.player.finished

/-- The registers of the `render` in progress, and of the player all but its view, buffer and latch, may be written. -/
theorem InsideRender.update {s : State} {p : Player} {phase : Phase} {chan : Fin 4} {rowBase : Nat}
    {flowTaken flowMarker : Bool} {out : List Sample} {results : List HostResult} (hview : p.view = s.player.view)
    (hbuf : p.buf = s.player.buf) (hfin : p.finished = s.player.finished) :
    InsideRender s { s with
      player := p, phase := phase, chan := chan, rowBase := rowBase, flowTaken := flowTaken, flowMarker := flowMarker
      out := out, results := results } :=
  ⟨rfl, rfl, rfl, rfl, rfl, rfl, hview, hbuf, hfin.trans, fun _ => hfin⟩

theorem InsideRender.trans {s t u : State} (h : InsideRender s t) (k : InsideRender t u) : InsideRender s u where
  params          := k.params.trans h.params
  cfgLoop         := k.cfgLoop.trans h.cfgLoop
  cfgSupportTempo := k.cfgSupportTempo.trans h.cfgSupportTempo
  handle          := k.handle.trans h.handle
  parked          := k.parked.trans h.parked
  nextHandle      := k.nextHandle.trans h.nextHandle
  view            := k.view.trans h.view
  buf             := k.buf.trans h.buf
  latch           := fun hs => k.latch (h.latch hs)
  loopOn          := fun hs => (k.loopOn (h.cfgLoop.trans hs)).trans (h.loopOn hs)

theorem RowFrame.insideRender {s t : State} (h : RowFrame s t) (hbuf : t.player.buf = s.player.buf) :
    InsideRender s t where
  params          := h.params
  cfgLoop         := h.cfgLoop
  cfgSupportTempo := h.cfgSupportTempo
  handle          := h.handle
  parked          := h.parked
  nextHandle      := h.nextHandle
  view            := h.view
  buf             := hbuf
  latch           := h.finished.trans
  loopOn          := fun _ => h.finished

theorem exec_insideRender {i : Instr} {s t : State} (h : exec i s = .next t) : InsideRender s t :=
  ((noteStage_frame i.period i.inst s).trans (exec_effect h).rowFrame).insideRender (exec_effect h).buf

theorem endRow_insideRender (job : RenderJob) (s : State) : InsideRender s (endRow job s) := by
  obtain ⟨seq, row, fin, -, -, hfin, he⟩ := endRow_cases job s
  rw [he]
  have hfin' : fin = s.player.finished ∨ fin = (s.player.finished || !s.cfgLoop) := hfin
  refine ⟨rfl, rfl, rfl, rfl, rfl, rfl, rfl, rfl, fun hs => ?_, fun hs => ?_⟩
  · rcases hfin' with rfl | rfl <;> simp [hs]
  · rcases hfin' with rfl | rfl <;> simp [hs]

theorem nextRowWord_insideRender (job : RenderJob) (s : State) : InsideRender s (nextRowWord job s) := by
  unfold nextRowWord
  split
  · exact endRow_insideRender job s
  · exact .update rfl rfl rfl

theorem rowStep_insideRender {job : RenderJob} {s t : State} (h : rowStep job s = .next t) : InsideRender s t := by
  obtain ⟨w, u, -, hexec, rfl⟩ := rowStep_cases h
  exact (exec_insideRender hexec).trans (nextRowWord_insideRender job u)

theorem tickTimer_insideRender {job : RenderJob} {s t : State} (h : tickTimer job s = .ok t) : InsideRender s t := by
  obtain ⟨-, rfl⟩ | ⟨-, h⟩ := tickTimer_cases h
  · exact .update rfl rfl rfl
  · obtain ⟨-, rfl⟩ | ⟨-, h⟩ := advanceTick_cases h
    · exact .update rfl rfl rfl
    · obtain ⟨pat, -, rfl⟩ := beginRow_cases h
      exact .update rfl rfl rfl

theorem frameStep_insideRender {job : RenderJob} {s t : State} (h : frameStep job s = .ok t) : InsideRender s t := by
  obtain ⟨-, rfl⟩ | ⟨-, u, hr, ht⟩ := frameStep_cases h
  · exact .update rfl rfl rfl
  · obtain ⟨x, cs, -, rfl⟩ := renderFrame_cases hr
    refine .trans ?_ (tickTimer_insideRender ht)
    exact .update rfl rfl rfl

theorem renderStep_insideRender {job : RenderJob} {s t : State} (h : renderStep job s = .ok t) : InsideRender s t := by
  obtain ⟨-, rfl⟩ | ⟨n, -, hf⟩ := renderStep_cases h
  · exact .update rfl rfl rfl
  · refine .trans ?_ (frameStep_insideRender hf)
    exact .update rfl rfl rfl

/-- Everything a step can be, seen from outside: nothing, the begin of a host operation, or a step inside a `render`. -/
theorem step_effect {s t : State} (h : step s = .next t) :
    (s.phase = .idle ∧ t = s) ∨
    (s.phase = .idle ∧ ∃ op rest, s.queue = op :: rest ∧ OpEffect { s with queue := rest } op t) ∨
    (s.phase ≠ .idle ∧ InsideRender s t) := by
  obtain ⟨hp, -, rfl⟩ | ⟨hp, op, rest, hq, h⟩ | ⟨job, hp, h⟩ | ⟨job, hp, h⟩ := step_cases h
  · exact .inl ⟨hp, rfl⟩
  · exact .inr (.inl ⟨hp, op, rest, hq, beginOp_effect h⟩)
  · exact .inr (.inr ⟨by simp [hp], renderStep_insideRender h⟩)
  · exact .inr (.inr ⟨by simp [hp], rowStep_insideRender h⟩)

/-! ### The configuration -/

/-- The parameters and the options of one state are those of another. -/
structure SameConfig (s t : State) : Prop where
  params          : t.params = s.params
  cfgLoop         : t.cfgLoop = s.cfgLoop
  cfgSupportTempo : t.cfgSupportTempo = s.cfgSupportTempo

theorem select_sameConfig {s u : State} {h : Nat} (hu : s.select h = some u) : SameConfig s u := by
  obtain ⟨-, -, -, -, -, -, ⟨-, rfl⟩ | ⟨-, p, -, rfl⟩⟩ := select_cases hu <;> exact ⟨rfl, rfl, rfl⟩

theorem setSequencePosition_sameConfig (position : Nat) (s : State) :
    SameConfig s (setSequencePosition position s) := by
  unfold setSequencePosition
  split <;> exact ⟨rfl, rfl, rfl⟩

theorem setOption_params (o : HostOption) (value : Int) (s : State) : (setOption o value s).params = s.params := by
  cases o <;> rfl

/-- Of the host operations only `set_option` can change the configuration, and of it only the options. -/
theorem OpEffect.config {s t : State} {op : HostOp} (h : OpEffect s op t) :
    SameConfig s t ∨ (∃ o value, op = .setOption o value) ∧ t.params = s.params := by
  cases h with
  | malformed bytes tag => exact .inl ⟨rfl, rfl, rfl⟩
  | install bytes v => exact .inl ⟨rfl, rfl, rfl⟩
  | option o value => exact .inr ⟨⟨o, value, rfl⟩, setOption_params o value s⟩
  | length g u hu =>
    obtain ⟨hP, hl, ht⟩ := select_sameConfig hu
    exact .inl ⟨hP, hl, ht⟩
  | position g position u hu =>
    obtain ⟨hP, hl, ht⟩ := select_sameConfig hu
    obtain ⟨kP, kl, kt⟩ := setSequencePosition_sameConfig position u
    exact .inl ⟨kP.trans hP, kl.trans hl, kt.trans ht⟩
  | render g frames mode room u hu =>
    obtain ⟨hP, hl, ht⟩ := select_sameConfig hu
    exact .inl ⟨hP, hl, ht⟩
  | discard g u hu =>
    obtain ⟨hP, hl, ht⟩ := select_sameConfig hu
    exact .inl ⟨hP, hl, ht⟩

/-- Settles O58, by the three kinds of step. -/
theorem onlySetOptionWritesTheConfiguration : Obligations.OnlySetOptionWritesTheConfiguration := by
  intro s t h
  obtain ⟨-, rfl⟩ | ⟨hp, op, rest, hq, he⟩ | ⟨-, hf⟩ := step_effect h
  · exact ⟨rfl, fun _ => ⟨rfl, rfl⟩⟩
  · obtain hc | ⟨⟨o, value, rfl⟩, hparams⟩ := he.config
    · exact ⟨hc.params, fun _ => ⟨hc.cfgLoop, hc.cfgSupportTempo⟩⟩
    · refine ⟨hparams, fun hno => ?_⟩
      obtain hbusy | hno := hno
      · exact absurd hp hbusy
      · exact absurd (by simp [hq]) (hno o value)
  · exact ⟨hf.params, fun _ => ⟨hf.cfgLoop, hf.cfgSupportTempo⟩⟩

end Sys2Proof.Machine
end

section
/-! The bounds of 10_state.md R12 to R20 on a player and its channels: what each operation of a row word and of a frame
keeps. -/
namespace Sys2Proof.Machine

/-! ### Rates -/

theorem params_wf_iff {P : Params} : P.wf = true ↔ 4000 ≤ P.outputRate ∧ P.outputRate ≤ 192000 := by
  simp [Params.wf]

/-- 43_synthesizer.md R140: the largest increment is that of period 1 at the lowest rate. -/
theorem phaseInc_le {P : Params} (hP : P.wf = true) (p : Nat) : phaseInc P p ≤ 3641344 := by
  have hrate : phaseK / P.outputRate ≤ phaseK / 4000 := Nat.div_le_div_left (params_wf_iff.mp hP).1 (by decide)
  exact (Nat.div_le_self _ p).trans hrate

/-- 44_mixer.md R166: the tick length over the admitted rates and tempos. -/
theorem samplesPerTick_range {P : Params} (hP : P.wf = true) {t : Nat} (hlow : 32 ≤ t) (hhigh : t ≤ 255) :
    1 ≤ samplesPerTick P t ∧ samplesPerTick P t ≤ 15000 := by
  obtain ⟨hmin, hmax⟩ := params_wf_iff.mp hP
  have hfloor : 10000 ≤ 125 * P.outputRate / 50 := by omega
  have hceil : 125 * P.outputRate / 50 ≤ 480000 := by omega
  exact ⟨(Nat.le_div_iff_mul_le (by omega)).mpr (by omega), Nat.div_le_of_le_mul (by omega)⟩

theorem toNat_spt {P : Params} (hP : P.wf = true) {t : Nat} (hlow : 32 ≤ t) (hhigh : t ≤ 255) :
    (BitVec.ofNat 32 (samplesPerTick P t)).toNat = samplesPerTick P t := by
  have hrange := samplesPerTick_range hP hlow hhigh
  rw [BitVec.toNat_ofNat]
  omega

theorem toNat_inc_le {P : Params} (hP : P.wf = true) (p : Nat) :
    (BitVec.ofNat 32 (phaseInc P p)).toNat ≤ 3641344 := by
  rw [BitVec.toNat_ofNat]
  exact (Nat.mod_le _ _).trans (phaseInc_le hP p)

theorem speedLimit_range (P : Params) : 30 ≤ speedLimit P ∧ speedLimit P ≤ 31 := by
  unfold speedLimit
  cases P.speedMax <;> decide

theorem clampVolume_le (v : Int) : (clampVolume v).toNat ≤ 64 := by
  simp only [clampVolume, clampInt, BitVec.toNat_ofNat]
  omega

/-! ### A channel -/

section
variable {P : Params} {m : Memory} {v : View} {c : Channel}

theorem ChannelOk.with_slot (hc : ChannelOk v c) (eff : Effect) (param : BitVec 8) :
    ChannelOk v { c with eff := eff, effParam := param } := { hc with }

theorem ChannelOk.with_volume (hc : ChannelOk v c) (x : Int) : ChannelOk v { c with volume := clampVolume x } :=
  { hc with volume := clampVolume_le x }

/-- A portamento moves the pitch alone (42_effects.md R127, R128). -/
theorem slide_ok (hP : P.wf = true) (hc : ChannelOk v c) (up : Bool) : ChannelOk v (slide P up c) :=
  { hc with inc := toNat_inc_le hP _ }

theorem perTick_ok (hP : P.wf = true) (hc : ChannelOk v c) : ChannelOk v (perTick P c) := by
  unfold perTick
  cases c.eff with
  | none => exact hc
  | portaUp => exact slide_ok hP hc true
  | portaDown => exact slide_ok hP hc false

/-- A note-on copies its bounds from the instrument it settles on, and starts at position 0 (41_sequencer.md R95,
R96). -/
theorem noteOn_ok (hP : P.wf = true) (hv : ViewOk m v) (hc : ChannelOk v c) {p : BitVec 12} {k : BitVec 5}
    (hk : k.toNat ≤ v.ninst) : ChannelOk v (noteOn P v p k c) where
  inst := by
    simp only [noteOn, noteInst]
    split
    · exact hc.inst
    · exact hk
  volume := by
    simp only [noteOn, noteVolume]
    split
    · exact hc.volume
    · exact (hv.instrument_ok k).volume
  inc := toNat_inc_le hP _
  lengthFx := rfl
  loopStart := rfl
  loopEnd := rfl
  loops := by
    simp only [noteOn, noteLoopState]
    split <;> simp [*]
  active := fun ha => by
    simp only [noteOn, noteActive, Bool.and_eq_true, decide_eq_true_eq] at ha
    exact ha.2
  pos := Nat.zero_le _

theorem rowNote_ok (hP : P.wf = true) (hv : ViewOk m v) (hc : ChannelOk v c) (p : BitVec 12) (k : BitVec 5) :
    ChannelOk v (rowNote P v p k c) := by
  have hslot : ChannelOk v (resetSlot c) := hc.with_slot .none 0
  unfold rowNote
  split
  · next hn => exact noteOn_ok hP hv hslot (isNote_eq_true.mp hn).2
  · exact hslot

/-- A channel after reset stands on the pseudo-instrument 0 (10_state.md R25). -/
theorem channel_reset_ok : ChannelOk v Channel.reset := by
  have hins : v.instrument Channel.reset.inst = Instrument.none := if_pos rfl
  exact
    { inst      := by simp [Channel.reset]
      volume    := by decide
      inc       := by decide
      lengthFx  := by rw [hins]; rfl
      loopStart := by rw [hins]; rfl
      loopEnd   := by rw [hins]; rfl
      loops     := by rw [hins]; exact iff_of_true rfl rfl
      active    := nofun
      pos       := by decide }

end

/-! ### A player -/

section
variable {P : Params} {p : Player}

theorem PlayerOk.with_channels (hp : PlayerOk P p) {cs : Channels} (hcs : ∀ i, ChannelOk p.view (cs.get i)) :
    PlayerOk P { p with ch := cs } := { hp with channels := hcs }

theorem PlayerOk.with_channel (hp : PlayerOk P p) {c : Channel} (hc : ChannelOk p.view c) (i : Fin 4) :
    PlayerOk P { p with ch := p.ch.set i c } := by
  refine hp.with_channels fun j => ?_
  by_cases hj : j = i
  · rw [hj, Channels.get_set_same]
    exact hc
  · rw [Channels.get_set_other _ _ _ _ hj]
    exact hp.channels j

theorem PlayerOk.with_pc (hp : PlayerOk P p) (seq row : Nat) (fin : Bool) :
    PlayerOk P { p with seqPos := seq, rowPos := row, finished := fin } := { hp with }

theorem PlayerOk.with_speed (hp : PlayerOk P p) {v : BitVec 8} (hlow : 1 ≤ v.toNat)
    (hhigh : v.toNat ≤ speedLimit P) :
    PlayerOk P { p with speed := v, tickCounter := v } :=
  { hp with speed := ⟨hlow, hhigh⟩, ticks := ⟨hlow, hhigh.trans (speedLimit_range P).2⟩ }

theorem PlayerOk.with_tempo (hp : PlayerOk P p) (hP : P.wf = true) {t : BitVec 8} (hlow : 32 ≤ t.toNat) :
    PlayerOk P { p with tempo := t, spt := BitVec.ofNat 32 (samplesPerTick P t.toNat) } :=
  { hp with tempo := hlow, spt := toNat_spt hP hlow (by omega) }

/-- A row event reloads the tick counter from the speed (41_sequencer.md R91). -/
theorem PlayerOk.reload_ticks (hp : PlayerOk P p) : PlayerOk P { p with tickCounter := p.speed } :=
  { hp with ticks := ⟨hp.speed.1, hp.speed.2.trans (speedLimit_range P).2⟩ }

/-- A tick reloads the frame counter from the tick length (44_mixer.md R167). -/
theorem PlayerOk.reload_samples (hp : PlayerOk P p) (hP : P.wf = true) :
    PlayerOk P { p with samplesUntilTick := p.spt } := by
  refine { hp with samples := ?_ }
  have hspt : p.spt.toNat = samplesPerTick P p.tempo.toNat := hp.spt
  dsimp only
  rw [hspt]
  exact samplesPerTick_range hP hp.tempo (by omega)

theorem PlayerOk.count_sample (hp : PlayerOk P p) (hne : p.samplesUntilTick - 1 ≠ 0) :
    PlayerOk P { p with samplesUntilTick := p.samplesUntilTick - 1 } := by
  have hsamples := hp.samples
  refine { hp with samples := ?_ }
  dsimp only
  bv_omega

/-- An intermediate tick counts down and slides the channels (41_sequencer.md R90). -/
theorem PlayerOk.intermediate_tick (hp : PlayerOk P p) (hP : P.wf = true) (hmore : 1 < p.tickCounter.toNat) :
    PlayerOk P { p with ch := p.ch.map (perTick P), tickCounter := p.tickCounter - 1 } := by
  have hticks := hp.ticks
  refine { hp with ticks := ?_, channels := fun i => ?_ }
  · dsimp only
    bv_omega
  · dsimp only
    rw [Channels.get_map]
    exact perTick_ok hP (hp.channels i)

theorem freshPlayer_ok {m : Memory} {v : View} (hP : P.wf = true) (hv : ViewOk m v) :
    PlayerOk P (freshPlayer P m v) where
  view     := hv
  speed    := ⟨by simp [freshPlayer], le_trans (by simp [freshPlayer]) (speedLimit_range P).1⟩
  tempo    := by simp [freshPlayer]
  spt      := toNat_spt hP (by decide) (by decide)
  ticks    := by simp [freshPlayer]
  samples  := by simp [freshPlayer]
  channels := forall_fin4.mpr ⟨channel_reset_ok, channel_reset_ok, channel_reset_ok, channel_reset_ok⟩

theorem freshPlayer_pcOk {m : Memory} {v : View} (hv : ViewOk m v) : PcOk (freshPlayer P m v) :=
  ⟨hv.seqLen.1, by simp [freshPlayer]⟩

/-- Synthesis of a frame keeps all four channels. -/
theorem PlayerOk.synthAll_ok (hp : PlayerOk P p) {cs : Channels} {x : Lanes}
    (h : synthAll P p.buf p.view p.ch = .ok (x, cs)) : PlayerOk P { p with ch := cs } := by
  obtain ⟨h0, h1, h2, h3⟩ := synthAll_eq_ok.mp h
  exact hp.with_channels (forall_fin4.mpr ⟨synth_ok hp.view (hp.channels 0) h0, synth_ok hp.view (hp.channels 1) h1,
    synth_ok hp.view (hp.channels 2) h2, synth_ok hp.view (hp.channels 3) h3⟩)

end

/-! ### A row word -/

theorem noteStage_playerOk {s : State} (hP : s.params.wf = true) (hp : PlayerOk s.params s.player) (p : BitVec 12)
    (k : BitVec 5) : PlayerOk (noteStage p k s).params (noteStage p k s).player :=
  hp.with_channel (rowNote_ok hP hp.view (hp.channels s.chan) p k) s.chan

theorem CommandEffect.playerOk {s t : State} (h : CommandEffect s t) (hP : s.params.wf = true)
    (hp : PlayerOk s.params s.player) : PlayerOk t.params t.player := by
  have hc := hp.channels s.chan
  cases h with
  | nothing => exact hp
  | report kind command val => exact hp
  | arm eff val => exact hp.with_channel (hc.with_slot eff val) s.chan
  | volume v => exact hp.with_channel (hc.with_volume v) s.chan
  | flow seq row marker => exact hp.with_pc seq row _
  | speed v hlow hhigh => exact hp.with_speed hlow hhigh
  | tempo v hlow => exact hp.with_tempo hP hlow

theorem exec_playerOk {i : Instr} {s t : State} (hP : s.params.wf = true) (hp : PlayerOk s.params s.player)
    (h : exec i s = .next t) : PlayerOk t.params t.player :=
  (exec_effect h).playerOk hP (noteStage_playerOk hP hp i.period i.inst)

/-- A command leaves the row below 64, and the position at most one past where it was or at most 255 (10_state.md
R13). -/
theorem CommandEffect.pc_bounds {s t : State} (h : CommandEffect s t) {n : Nat} (hrow : s.player.rowPos < 64)
    (hseq : s.player.seqPos ≤ 255 + n) : t.player.rowPos < 64 ∧ t.player.seqPos ≤ 255 + (n + 1) := by
  cases h with
  | flow seq row marker hr hs => exact ⟨hr, by simp only [State.markFlow_player, State.setPc_player_seqPos]; omega⟩
  | _ => exact ⟨hrow, hseq.trans (by omega)⟩

end Sys2Proof.Machine
end

section
/-! The invariant of the block (10_state.md R24): it holds at power-up, and every step keeps it. -/
namespace Sys2Proof.Machine

/-- Settles O51: at power-up there is no player, and nothing is in progress. -/
theorem invariantHoldsAtReset : Obligations.InvariantHoldsAtReset where
  params  := params_wf_iff.mpr (by decide)
  player  := nofun
  pc      := nofun
  row     := nofun
  busy    := fun h => absurd rfl h
  quiet   := fun _ => ⟨rfl, rfl, rfl, rfl⟩
  silent  := fun _ => rfl
  parked  := fun _ h => nomatch h
  numbers := List.Pairwise.nil
  fresh   := fun _ h => nomatch h
  current := fun _ h => nomatch h

/-! ### Whether a row event is in progress -/

theorem inRow_of_idle {s : State} (hp : s.phase = .idle) : s.inRow = false := by
  simp [State.inRow, hp]

theorem inRow_of_frame {s : State} {job : RenderJob} (hp : s.phase = .frame job) : s.inRow = false := by
  simp [State.inRow, hp]

theorem inRow_of_row {s : State} {job : RenderJob} (hp : s.phase = .row job) : s.inRow = true := by
  simp [State.inRow, hp]

/-- Outside a row event the invariant asks nothing of one. -/
theorem rowOk_of_not_inRow {s t : State} (hrest : s.inRow = false) (hrow : s.inRow = true) : RowOk t := by
  simp [hrest] at hrow

/-! ### The list of parked players -/

theorem mem_of_findPlayer {h : Nat} {p : Player} {l : List (Nat × Player)} (hf : findPlayer h l = some p) :
    (h, p) ∈ l := by
  induction l with
  | nil => cases hf
  | cons q rest ih =>
    obtain ⟨k, q⟩ := q
    unfold findPlayer at hf
    split at hf
    · next hk =>
      cases hf
      subst hk
      exact List.mem_cons_self
    · exact List.mem_cons_of_mem _ (ih hf)

theorem mem_insertPlayer {h : Nat} {p : Player} {q : Nat × Player} {l : List (Nat × Player)} :
    q ∈ insertPlayer h p l ↔ q = (h, p) ∨ q ∈ l := by
  induction l with
  | nil => simp [insertPlayer]
  | cons r rest ih =>
    unfold insertPlayer
    split
    · exact List.mem_cons
    · simp only [List.mem_cons, ih]
      tauto

theorem removePlayer_sublist (h : Nat) (l : List (Nat × Player)) : (removePlayer h l).Sublist l := by
  induction l with
  | nil => exact List.Sublist.refl _
  | cons r rest ih =>
    unfold removePlayer
    split
    · exact List.sublist_cons_self _ _
    · exact ih.cons_cons _

/-- The numbers of parked players rise strictly. -/
def NumbersRise (l : List (Nat × Player)) : Prop := (l.map Prod.fst).Pairwise (· < ·)

theorem numbersRise_cons {r : Nat × Player} {l : List (Nat × Player)} :
    NumbersRise (r :: l) ↔ (∀ q ∈ l, r.1 < q.1) ∧ NumbersRise l := by
  simp [NumbersRise]

theorem insertPlayer_numbersRise {h : Nat} {p : Player} {l : List (Nat × Player)} (hl : NumbersRise l)
    (hnew : h ∉ l.map Prod.fst) : NumbersRise (insertPlayer h p l) := by
  induction l with
  | nil => exact List.pairwise_singleton _ _
  | cons r rest ih =>
    obtain ⟨hr, hrest⟩ := numbersRise_cons.mp hl
    simp only [List.map_cons, List.mem_cons, not_or] at hnew
    unfold insertPlayer
    split
    · next hlt =>
      refine numbersRise_cons.mpr ⟨?_, hl⟩
      exact List.forall_mem_cons.mpr ⟨hlt, fun q hq => hlt.trans (hr q hq)⟩
    · next hle =>
      refine numbersRise_cons.mpr ⟨fun q hq => ?_, ih hrest hnew.2⟩
      obtain rfl | hq := mem_insertPlayer.mp hq
      · have hne := hnew.1
        show r.1 < h
        omega
      · exact hr q hq

theorem removePlayer_numbersRise {h : Nat} {l : List (Nat × Player)} (hl : NumbersRise l) :
    NumbersRise (removePlayer h l) :=
  List.Pairwise.sublist ((removePlayer_sublist h l).map Prod.fst) hl

theorem not_mem_removePlayer {h : Nat} {l : List (Nat × Player)} (hl : NumbersRise l) :
    h ∉ (removePlayer h l).map Prod.fst := by
  induction l with
  | nil => exact List.not_mem_nil
  | cons r rest ih =>
    obtain ⟨hr, hrest⟩ := numbersRise_cons.mp hl
    unfold removePlayer
    split
    · next hk =>
      intro hmem
      obtain ⟨q, hq, hqh⟩ := List.mem_map.mp hmem
      have := hr q hq
      omega
    · next hk =>
      rw [List.map_cons, List.mem_cons, not_or]
      exact ⟨fun e => hk e.symm, ih hrest⟩

/-! ### Players between operations -/

/-- Between operations the current player joins the parked ones as one of them. -/
theorem Inv.parkCurrent {s : State} (hi : Inv s) (hrest : s.inRow = false) :
    (∀ q ∈ s.parkCurrent, PlayerOk s.params q.2 ∧ PcOk q.2) ∧ NumbersRise s.parkCurrent ∧
      ∀ q ∈ s.parkCurrent, q.1 < s.nextHandle := by
  unfold State.parkCurrent
  cases hh : s.handle with
  | none => exact ⟨hi.parked, hi.numbers, hi.fresh⟩
  | some g =>
    obtain ⟨hlt, hnew⟩ := hi.current g hh
    have hsome : s.handle.isSome = true := by simp [hh]
    refine ⟨fun q hq => ?_, insertPlayer_numbersRise hi.numbers hnew, fun q hq => ?_⟩
    · obtain rfl | hq := mem_insertPlayer.mp hq
      · exact ⟨hi.player hsome, hi.pc hsome hrest⟩
      · exact hi.parked q hq
    · obtain rfl | hq := mem_insertPlayer.mp hq
      · exact hlt
      · exact hi.fresh q hq

/-- Another player may become the current one between operations. -/
theorem Inv.switch {s : State} (hi : Inv s) (hp : s.phase = .idle) {p : Player} {h next : Nat}
    {l : List (Nat × Player)} (hplayer : PlayerOk s.params p) (hpc : PcOk p)
    (hparked : ∀ q ∈ l, PlayerOk s.params q.2 ∧ PcOk q.2) (hnumbers : NumbersRise l)
    (hfresh : ∀ q ∈ l, q.1 < next) (hh : h < next) (hnew : h ∉ l.map Prod.fst) (results : List HostResult) :
    Inv { s with player := p, handle := some h, parked := l, nextHandle := next, results := results } where
  params  := hi.params
  player  := fun _ => hplayer
  pc      := fun _ _ => hpc
  row     := rowOk_of_not_inRow (inRow_of_idle hp)
  busy    := fun _ => rfl
  quiet   := hi.quiet
  silent  := hi.silent
  parked  := hparked
  numbers := hnumbers
  fresh   := hfresh
  current := fun g hg => by
    cases hg
    exact ⟨hh, hnew⟩

theorem Inv.select {s u : State} {h : Nat} (hi : Inv s) (hp : s.phase = .idle) (hu : s.select h = some u) : Inv u := by
  obtain ⟨-, -, -, -, -, -, ⟨-, rfl⟩ | ⟨-, p, hf, rfl⟩⟩ := select_cases hu
  · exact hi
  · obtain ⟨hparked, hnumbers, hfresh⟩ := hi.parkCurrent (inRow_of_idle hp)
    have hmem := mem_of_findPlayer hf
    have hsub := (removePlayer_sublist h s.parkCurrent).subset
    obtain ⟨hplayer, hpc⟩ := hi.parked _ hmem
    exact hi.switch hp hplayer hpc (fun q hq => hparked q (hsub hq)) (removePlayer_numbersRise hnumbers)
      (fun q hq => hfresh q (hsub hq)) (hi.fresh _ hmem) (not_mem_removePlayer hnumbers) s.results

/-- A player in its reset state may join the others under a fresh number (45_host_interface.md R180). -/
theorem Inv.installPlayer {s : State} {m : Memory} {v : View} (hi : Inv s) (hp : s.phase = .idle) (hv : ViewOk m v) :
    Inv (installPlayer (freshPlayer s.params m v) s) := by
  obtain ⟨hparked, hnumbers, hfresh⟩ := hi.parkCurrent (inRow_of_idle hp)
  refine hi.switch hp (freshPlayer_ok hi.params hv) (freshPlayer_pcOk hv) hparked hnumbers
    (fun q hq => (hfresh q hq).trans (Nat.lt_succ_self _)) (Nat.lt_succ_self _) (fun hmem => ?_) _
  obtain ⟨q, hq, hqh⟩ := List.mem_map.mp hmem
  exact absurd (hfresh q hq) (by omega)

/-! ### The begin of a host operation -/

theorem Inv.dequeue {s : State} (hi : Inv s) (hp : s.phase = .idle) (rest : List HostOp) :
    Inv { s with queue := rest } := { hi with row := rowOk_of_not_inRow (inRow_of_idle hp) }

theorem Inv.answer {s : State} (hi : Inv s) (hp : s.phase = .idle) (r : HostResult) : Inv (s.answer r) :=
  { hi with row := rowOk_of_not_inRow (inRow_of_idle hp) }

theorem setOption_inv {s : State} (hi : Inv s) (hp : s.phase = .idle) (o : HostOption) (value : Int) :
    Inv (setOption o value s) := by
  cases o with
  | loop => exact { hi with row := rowOk_of_not_inRow (inRow_of_idle hp) }
  | supportTempo => exact { hi with row := rowOk_of_not_inRow (inRow_of_idle hp) }
  | other n => exact hi

theorem setSequencePosition_inv {s : State} (hi : Inv s) (hp : s.phase = .idle) (position : Nat) :
    Inv (setSequencePosition position s) := by
  unfold setSequencePosition
  split
  · next hlt =>
    exact { hi with
      player := fun hh => (hi.player hh).with_pc position 0 _
      pc := fun _ _ => ⟨hlt, Nat.zero_lt_succ 63⟩
      row := rowOk_of_not_inRow (inRow_of_idle hp) }
  · exact hi

theorem beginRender_inv {s : State} (hi : Inv s) (hp : s.phase = .idle) (hh : s.handle.isSome = true) (frames : Nat)
    (mode : MixMode) : Inv (beginRender frames mode s) :=
  { hi with
    pc := fun _ _ => hi.pc hh (inRow_of_idle hp)
    row := nofun
    busy := fun _ => hh
    quiet := fun _ => hi.quiet (inRow_of_idle hp)
    silent := nofun }

theorem discardCurrent_inv {s : State} (hi : Inv s) (hp : s.phase = .idle) : Inv (discardCurrent s) :=
  { hi with
    player := nofun
    pc := nofun
    row := rowOk_of_not_inRow (inRow_of_idle hp)
    busy := fun hb => absurd hp hb
    current := nofun }

theorem OpEffect.inv {s t : State} {op : HostOp} (h : OpEffect s op t) (hi : Inv s) (hp : s.phase = .idle) : Inv t := by
  cases h with
  | malformed bytes tag => exact hi.answer hp _
  | install bytes v hv => exact hi.installPlayer hp (decodeModule_viewOk (Memory.ofBytes_wf bytes) hv)
  | option o value => exact setOption_inv hi hp o value
  | length g u hu =>
    obtain ⟨-, -, -, hphase, -⟩ := select_cases hu
    exact (hi.select hp hu).answer (hphase.trans hp) _
  | position g position u hu =>
    obtain ⟨-, -, -, hphase, -⟩ := select_cases hu
    exact setSequencePosition_inv (hi.select hp hu) (hphase.trans hp) position
  | render g frames mode room u hu =>
    obtain ⟨hh, -, -, hphase, -⟩ := select_cases hu
    exact beginRender_inv (hi.select hp hu) (hphase.trans hp) (by simp [hh]) frames mode
  | discard g u hu =>
    obtain ⟨-, -, -, hphase, -⟩ := select_cases hu
    exact discardCurrent_inv (hi.select hp hu) (hphase.trans hp)

/-! ### Inside a `render` -/

/-- Inside a `render` only what is said of the current player and of the row event is to be shown again. -/
theorem Inv.inside {s t : State} (hi : Inv s) (hf : InsideRender s t) (hh : s.handle.isSome = true)
    (player : PlayerOk s.params t.player) (pc : t.inRow = false → PcOk t.player) (row : t.inRow = true → RowOk t)
    (quiet : t.inRow = false → t.chan = 0 ∧ t.rowBase = 0 ∧ t.flowTaken = false ∧ t.flowMarker = false)
    (silent : t.phase = .idle → t.out = []) : Inv t where
  params  := by rw [hf.params]; exact hi.params
  player  := fun _ => by rw [hf.params]; exact player
  pc      := fun _ => pc
  row     := row
  busy    := fun _ => by rw [hf.handle]; exact hh
  quiet   := quiet
  silent  := silent
  parked  := by rw [hf.parked, hf.params]; exact hi.parked
  numbers := by rw [hf.parked]; exact hi.numbers
  fresh   := by rw [hf.parked, hf.nextHandle]; exact hi.fresh
  current := by rw [hf.parked, hf.nextHandle, hf.handle]; exact hi.current

section
variable {s : State} {job : RenderJob}

theorem Inv.handle_of_frame (hi : Inv s) (hp : s.phase = .frame job) : s.handle.isSome = true :=
  hi.busy (by simp [hp])

theorem Inv.pc_of_frame (hi : Inv s) (hp : s.phase = .frame job) : PcOk s.player :=
  hi.pc (hi.handle_of_frame hp) (inRow_of_frame hp)

/-- Outside a row event the current player and the output of the `render` may be written. -/
theorem Inv.frame_update (hi : Inv s) (hp : s.phase = .frame job) {p : Player} {out : List Sample}
    (player : PlayerOk s.params p) (pc : PcOk p) : Inv { s with player := p, out := out } :=
  { hi with
    player := fun _ => player
    pc := fun _ _ => pc
    row := rowOk_of_not_inRow (inRow_of_frame hp)
    silent := fun hidle => nomatch hp.symm.trans hidle }

theorem Inv.frames_left (hi : Inv s) (hp : s.phase = .frame job) (job' : RenderJob) :
    Inv { s with phase := .frame job' } :=
  { hi with
    pc := fun _ _ => hi.pc_of_frame hp
    row := nofun
    busy := fun _ => hi.handle_of_frame hp
    quiet := fun _ => hi.quiet (inRow_of_frame hp)
    silent := nofun }

theorem finishRender_inv (hi : Inv s) (hp : s.phase = .frame job) : Inv (finishRender s) :=
  { hi with
    pc := fun hh _ => hi.pc hh (inRow_of_frame hp)
    row := nofun
    busy := fun hb => absurd rfl hb
    quiet := fun _ => hi.quiet (inRow_of_frame hp)
    silent := fun _ => rfl }

end

/-- The row the program counter names lies in the buffer (20_memory.md R39). -/
theorem row_in_buffer {m : Memory} {v : View} {seqPos row : Nat} {pat : Byte} (hv : ViewOk m v)
    (hseq : seqPos < v.seqLen) (hrow : row < 64) (hpat : v.seq[seqPos]? = some pat) :
    rowWordAddress v pat.toNat row 0 + 16 ≤ m.len := by
  have hmem : pat ∈ v.seq.take v.seqLen :=
    List.mem_of_getElem? ((List.getElem?_take_of_lt hseq).trans hpat)
  have hfit := hv.patterns pat hmem
  unfold rowWordAddress
  omega

end Sys2Proof.Machine
end

section
/-! Every step keeps the invariant (10_state.md R24), and what no step does to any player (10_state.md R16, R21). -/
namespace Sys2Proof.Machine

/-! ### A frame step -/

section
variable {s t : State} {job job' : RenderJob}

/-- A row event begins in bounds: the row is in the buffer, the position below 128 (41_sequencer.md R91). -/
theorem beginRow_inv (hi : Inv s) (hp : s.phase = .frame job') (h : beginRow job s = .ok t) : Inv t := by
  have hh := hi.handle_of_frame hp
  have hplayer := hi.player hh
  obtain ⟨hseq, hrow⟩ := hi.pc_of_frame hp
  obtain ⟨pat, hpat, rfl⟩ := beginRow_cases h
  refine hi.inside (.update rfl rfl rfl) hh hplayer.reload_ticks nofun (fun _ => ?_) nofun nofun
  have hlen := hplayer.view.seqLen
  exact ⟨row_in_buffer hplayer.view hseq hrow hpat, hrow, by dsimp only; omega⟩

theorem advanceTick_inv (hi : Inv s) (hp : s.phase = .frame job') (h : advanceTick job s = .ok t) : Inv t := by
  obtain ⟨hmore, rfl⟩ | ⟨-, h⟩ := advanceTick_cases h
  · have hplayer := hi.player (hi.handle_of_frame hp)
    obtain ⟨hseq, hrow⟩ := hi.pc_of_frame hp
    exact hi.frame_update hp (hplayer.intermediate_tick hi.params hmore) ⟨hseq, hrow⟩
  · exact beginRow_inv hi hp h

theorem tickTimer_inv (hi : Inv s) (hp : s.phase = .frame job') (h : tickTimer job s = .ok t) : Inv t := by
  have hplayer := hi.player (hi.handle_of_frame hp)
  obtain ⟨hseq, hrow⟩ := hi.pc_of_frame hp
  obtain ⟨hne, rfl⟩ | ⟨-, h⟩ := tickTimer_cases h
  · exact hi.frame_update hp (hplayer.count_sample hne) ⟨hseq, hrow⟩
  · have hreload := hi.frame_update hp (out := s.out) (hplayer.reload_samples hi.params) ⟨hseq, hrow⟩
    exact advanceTick_inv hreload hp h

theorem renderFrame_inv {mode : MixMode} (hi : Inv s) (hp : s.phase = .frame job') (h : renderFrame mode s = .ok t) :
    Inv t ∧ t.phase = .frame job' := by
  obtain ⟨hseq, hrow⟩ := hi.pc_of_frame hp
  obtain ⟨x, cs, hsynth, rfl⟩ := renderFrame_cases h
  exact ⟨hi.frame_update hp ((hi.player (hi.handle_of_frame hp)).synthAll_ok hsynth) ⟨hseq, hrow⟩, hp⟩

theorem frameStep_inv (hi : Inv s) (hp : s.phase = .frame job') (h : frameStep job s = .ok t) : Inv t := by
  obtain ⟨-, rfl⟩ | ⟨-, u, hr, ht⟩ := frameStep_cases h
  · exact hi.frame_update hp (hi.player (hi.handle_of_frame hp)) (hi.pc_of_frame hp)
  · obtain ⟨hu, hup⟩ := renderFrame_inv hi hp hr
    exact tickTimer_inv hu hup ht

theorem renderStep_inv (hi : Inv s) (hp : s.phase = .frame job') (h : renderStep job s = .ok t) : Inv t := by
  obtain ⟨-, rfl⟩ | ⟨n, -, hf⟩ := renderStep_cases h
  · exact finishRender_inv hi hp
  · exact frameStep_inv (hi.frames_left hp _) rfl hf

end

/-! ### A row word -/

section
variable {s t u : State} {job job' : RenderJob}

theorem exec_rowFrame {i : Instr} (h : exec i s = .next t) : RowFrame s t :=
  (noteStage_frame i.period i.inst s).trans (exec_effect h).rowFrame

/-- What a row word leaves of the bounds of a row event (10_state.md R13). -/
theorem exec_pc_bounds {i : Instr} (hr : RowOk s) (h : exec i s = .next t) :
    t.player.rowPos < 64 ∧ t.player.seqPos ≤ 255 + (t.chan.val + 1) := by
  rw [(exec_rowFrame h).chan]
  exact (exec_effect h).pc_bounds hr.row hr.seq

theorem val_add_one {i : Fin 4} (h : i ≠ 3) : (i + 1).val = i.val + 1 := by
  revert i
  decide

/-- After a row word that is not the last, the row event goes on in bounds. -/
theorem nextRowWord_rowOk {i : Instr} (hr : RowOk s) (h : exec i s = .next u) (hlast : u.chan ≠ 3) :
    RowOk { u with chan := u.chan + 1 } := by
  have hframe := exec_rowFrame h
  obtain ⟨hrow, hseq⟩ := exec_pc_bounds hr h
  refine ⟨?_, hrow, ?_⟩
  · dsimp only
    rw [hframe.rowBase, hframe.bufLen]
    exact hr.inBuffer
  · dsimp only
    rw [val_add_one hlast]
    exact hseq

/-- The end of a row event brings the program counter to rest (41_sequencer.md R97, R98). -/
theorem endRow_player_ok {P : Params} (hu : PlayerOk P u.player) (job : RenderJob) :
    PlayerOk P (endRow job u).player ∧ PcOk (endRow job u).player := by
  obtain ⟨seq, row, fin, hrow, hseq, -, he⟩ := endRow_cases job u
  rw [he]
  have hlen := hu.view.seqLen
  exact ⟨hu.with_pc seq row fin, by dsimp only; omega, hrow⟩

theorem rowStep_inv (hi : Inv s) (hp : s.phase = .row job') (h : rowStep job s = .next t) : Inv t := by
  have hh : s.handle.isSome = true := hi.busy (by simp [hp])
  have hinside := rowStep_insideRender h
  obtain ⟨w, u, -, hexec, rfl⟩ := rowStep_cases h
  have hframe := exec_rowFrame hexec
  have hplayer := exec_playerOk hi.params (hi.player hh) hexec
  rw [hframe.params] at hplayer
  unfold nextRowWord at hinside ⊢
  split
  · rw [if_pos ‹_›] at hinside
    obtain ⟨hend, hpc⟩ := endRow_player_ok hplayer job
    exact hi.inside hinside hh hend (fun _ => hpc) nofun (fun _ => ⟨rfl, rfl, rfl, rfl⟩) nofun
  · next hlast =>
    rw [if_neg hlast] at hinside
    have hphase : u.phase = .row job' := hframe.phase.trans hp
    have hin : State.inRow { u with chan := u.chan + 1 } = true := inRow_of_row hphase
    exact hi.inside hinside hh hplayer (fun hrest => by simp [hin] at hrest)
      (fun _ => nextRowWord_rowOk (hi.row (inRow_of_row hp)) hexec hlast) (fun hrest => by simp [hin] at hrest)
      (fun hidle => nomatch hphase.symm.trans hidle)

end

/-! ### Every step -/

/-- Settles O52, by the phase of the state. -/
theorem everyStepKeepsTheInvariant : Obligations.EveryStepKeepsTheInvariant := by
  intro s t hi h
  obtain ⟨-, -, rfl⟩ | ⟨hp, op, rest, -, h⟩ | ⟨job, hp, h⟩ | ⟨job, hp, h⟩ := step_cases h
  · exact hi
  · exact (beginOp_effect h).inv (hi.dequeue hp rest) hp
  · exact renderStep_inv hi hp h
  · exact rowStep_inv hi hp h

/-! ### Every player -/

/-- What a step keeps of a player: the view and the buffer, and the latch, which it does not clear, nor set with LOOP on
(10_state.md R16, R21). -/
structure PlayerKept (loop : Bool) (p q : Player) : Prop where
  view   : q.view = p.view
  buf    : q.buf = p.buf
  latch  : p.finished = true → q.finished = true
  loopOn : loop = true → q.finished = p.finished

theorem PlayerKept.refl (loop : Bool) (p : Player) : PlayerKept loop p p := ⟨rfl, rfl, id, fun _ => rfl⟩

section
variable {s t : State} {h : Nat} {p q : Player}

theorem playerKept_of_playerOf_eq {loop : Bool} (hts : t.playerOf h = s.playerOf h) (hp : s.playerOf h = some p)
    (hq : t.playerOf h = some q) : PlayerKept loop p q := by
  rw [hts, hp] at hq
  cases hq
  exact .refl loop p

/-- Where only the current player's registers are written, every player is kept if that one is. -/
theorem playerKept_of_current {loop : Bool} (hhandle : t.handle = s.handle) (hparked : t.parked = s.parked)
    (hcurrent : PlayerKept loop s.player t.player) (hp : s.playerOf h = some p) (hq : t.playerOf h = some q) :
    PlayerKept loop p q := by
  unfold State.playerOf at hp hq
  rw [hhandle, hparked] at hq
  split at hp
  · next hh =>
    rw [if_pos hh] at hq
    cases hp
    cases hq
    exact hcurrent
  · next hh =>
    rw [if_neg hh, hp] at hq
    cases hq
    exact .refl loop p

theorem setSequencePosition_playerKept {loop : Bool} (position : Nat) (hp : s.playerOf h = some p)
    (hq : (setSequencePosition position s).playerOf h = some q) : PlayerKept loop p q := by
  unfold setSequencePosition at hq
  split at hq
  · exact playerKept_of_current (s := s) (t := s.setPc position 0) rfl rfl ⟨rfl, rfl, id, fun _ => rfl⟩ hp hq
  · exact playerKept_of_playerOf_eq rfl hp hq

/-- A number that names a player has been given out. -/
theorem Inv.playerOf_lt (hi : Inv s) (hp : s.playerOf h = some p) : h < s.nextHandle := by
  unfold State.playerOf at hp
  split at hp
  · next hh => exact (hi.current h hh).1
  · exact hi.fresh _ (mem_of_findPlayer hp)

/-- A new player leaves every other one as it was (70_reset_and_hazards.md R222). -/
theorem installPlayer_playerOf (hi : Inv s) (hlt : h < s.nextHandle) (r : Player) :
    (installPlayer r s).playerOf h = s.playerOf h := by
  rw [← findPlayer_parkCurrent hi h]
  exact if_neg fun e => Nat.ne_of_gt hlt (Option.some.inj e)

/-- A discarded player is gone, and every other one is as it was (45_host_interface.md R188). -/
theorem discardCurrent_playerOf (hi : Inv s) (hq : (discardCurrent s).playerOf h = some q) :
    (discardCurrent s).playerOf h = s.playerOf h := by
  have hparked : (discardCurrent s).playerOf h = findPlayer h s.parked := rfl
  by_cases hh : s.handle = some h
  · rw [hparked, findPlayer_of_not_mem (hi.current h hh).2] at hq
    cases hq
  · rw [hparked, State.playerOf, if_neg hh]

theorem OpEffect.playerKept {op : HostOp} {loop : Bool} (he : OpEffect s op t) (hi : Inv s) (hidle : s.phase = .idle)
    (hp : s.playerOf h = some p) (hq : t.playerOf h = some q) : PlayerKept loop p q := by
  cases he with
  | malformed bytes tag => exact playerKept_of_playerOf_eq rfl hp hq
  | install bytes v hv =>
    exact playerKept_of_playerOf_eq (installPlayer_playerOf hi (hi.playerOf_lt hp) _) hp hq
  | option o value =>
    cases o <;> exact playerKept_of_playerOf_eq rfl hp hq
  | length g u hu =>
    rw [← select_playerOf hi hu] at hp
    exact playerKept_of_playerOf_eq rfl hp hq
  | position g position u hu =>
    rw [← select_playerOf hi hu] at hp
    exact setSequencePosition_playerKept position hp hq
  | render g frames mode room u hu =>
    rw [← select_playerOf hi hu] at hp
    exact playerKept_of_playerOf_eq rfl hp hq
  | discard g u hu =>
    rw [← select_playerOf hi hu] at hp
    exact playerKept_of_playerOf_eq (discardCurrent_playerOf (hi.select hidle hu) hq) hp hq

/-- Every step keeps every player that it leaves. -/
theorem step_playerKept (hi : Inv s) (hstep : step s = .next t) (hp : s.playerOf h = some p)
    (hq : t.playerOf h = some q) : PlayerKept s.cfgLoop p q := by
  obtain ⟨-, rfl⟩ | ⟨hidle, op, rest, -, he⟩ | ⟨-, hf⟩ := step_effect hstep
  · exact playerKept_of_playerOf_eq rfl hp hq
  · exact he.playerKept (hi.dequeue hidle rest) hidle hp hq
  · exact playerKept_of_current hf.handle hf.parked ⟨hf.view, hf.buf, hf.latch, hf.loopOn⟩ hp hq

end

/-- Settles O55, from what every step keeps of a player. -/
theorem finishedIsALatch : Obligations.FinishedIsALatch := by
  intro s t h p q hi hstep hp hq
  have hkept := step_playerKept hi hstep hp hq
  exact ⟨hkept.latch, hkept.loopOn⟩

/-- Settles O57, from what every step keeps of a player. -/
theorem viewAndBufferNeverChange : Obligations.ViewAndBufferNeverChange := by
  intro s t h p q hi hstep hp hq
  have hkept := step_playerKept hi hstep hp hq
  exact ⟨hkept.view, hkept.buf⟩

end Sys2Proof.Machine
end

section
/-! Reads that answer (20_memory.md R39, R40): the module decoder reads only inside the buffer, and a sample read depends
only on the bytes of its instrument. -/
namespace Sys2Proof.Machine

/-- A computation in two parts answers where the first part does, and the second does on what the first answered. -/
theorem except_bind_answers {ε α β : Type} {x : Except ε α} {f : α → Except ε β} (hx : ∃ a, x = .ok a)
    (hf : ∀ a, x = .ok a → ∃ r, f a = .ok r) : ∃ r, (x >>= f) = .ok r := by
  obtain ⟨a, ha⟩ := hx
  obtain ⟨r, hr⟩ := hf a ha
  exact ⟨r, except_bind_eq_ok.mpr ⟨a, ha, hr⟩⟩

/-! ### The module decoder -/

theorem readHeader_inside {m : Memory} {a : Nat} (h : a + 30 ≤ m.len) : ∃ r, readHeader m a = .ok r := by
  have hlength := be16_inside (m := m) (a := a + 22) (by omega)
  have hvolume := memRead_inside (m := m) (a := a + 25) (by omega)
  have hloopAt := be16_inside (m := m) (a := a + 26) (by omega)
  have hloopRaw := be16_inside (m := m) (a := a + 28) (by omega)
  rw [readHeader, hlength, hvolume, hloopAt, hloopRaw]
  exact ⟨_, rfl⟩

theorem readHeaders_inside {m : Memory} {a n : Nat} (h : a + 30 * n ≤ m.len) : ∃ rs, readHeaders m a n = .ok rs := by
  induction n generalizing a with
  | zero => exact ⟨[], rfl⟩
  | succ n ih =>
    refine except_bind_answers (readHeader_inside (by omega)) fun r _ => ?_
    exact except_bind_answers (ih (by omega)) fun rest _ => ⟨r :: rest, rfl⟩

/-- The parts of a layout before its patterns end inside a buffer of length `len` (40_decoder.md R73). -/
structure Layout.Fits (l : Layout) (len : Nat) : Prop where
  title   : 20 ≤ len
  headers : 0x14 + 30 * l.ninst ≤ len
  seqLen  : l.seqLenOff < len
  seq     : l.seqOff + 128 ≤ len

theorem layout15_fits {len : Nat} (h : 0x258 ≤ len) : layout15.Fits len where
  title   := le_trans (by decide) h
  headers := le_trans (by decide) h
  seqLen  := lt_of_lt_of_le (by decide) h
  seq     := le_trans (by decide) h

theorem layout31_fits {len : Nat} (h : 0x43C ≤ len) : layout31.Fits len where
  title   := le_trans (by decide) h
  headers := le_trans (by decide) h
  seqLen  := lt_of_lt_of_le (by decide) h
  seq     := le_trans (by decide) h

/-- The layout is found without a read outside, and the long one only in a buffer that holds it (40_decoder.md R72). -/
theorem selectLayout_answers {m : Memory} (h : 0x258 ≤ m.len) : ∃ l, selectLayout m = .ok l ∧ l.Fits m.len := by
  unfold selectLayout
  by_cases htag : 0x43C ≤ m.len
  · rw [if_pos htag, memReadBytes_inside (show 0x438 + 4 ≤ m.len by omega)]
    refine ⟨_, rfl, ?_⟩
    split
    · exact layout31_fits htag
    · exact layout15_fits h
  · rw [if_neg htag]
    exact ⟨layout15, rfl, layout15_fits h⟩

theorem decodeWith_answers {m : Memory} {l : Layout} (h : l.Fits m.len) : ∃ r, decodeWith m l = .ok r := by
  refine except_bind_answers ⟨_, memReadBytes_inside (by have := h.title; omega)⟩ fun title _ => ?_
  refine except_bind_answers (readHeaders_inside h.headers) fun headers _ => ?_
  refine except_bind_answers ⟨_, memRead_inside h.seqLen⟩ fun lenByte _ => ?_
  exact except_bind_answers ⟨_, memReadBytes_inside h.seq⟩ fun seq _ => ⟨_, rfl⟩

/-- A module decodes or is malformed; no buffer makes the decoder read outside (20_memory.md R39, 40_decoder.md R70). -/
theorem decodeModule_answers (m : Memory) : ∃ r, decodeModule m = .ok r := by
  unfold decodeModule
  split
  · exact ⟨_, rfl⟩
  · obtain ⟨l, hl, hfits⟩ := selectLayout_answers (m := m) (by omega)
    rw [hl]
    exact decodeWith_answers hfits

/-- Settles O45: the size check and the guard of the tag leave a layout that fits the buffer. -/
theorem decoderNeverReadsOutside : Obligations.DecoderNeverReadsOutside := by
  intro bytes f
  obtain ⟨r, hr⟩ := decodeModule_answers (Memory.ofBytes bytes)
  rw [hr]
  nofun

/-! ### Sample reads -/

section
variable {m m' : Memory} {ins : Instrument}

theorem memRead_congr {a : Nat} (h : m'.read a = m.read a) : memRead m' a = memRead m a := by
  rw [memRead, memRead, h]

theorem readSample_congr (h : ∀ a, ins.start ≤ a → a < ins.start + ins.length → m'.read a = m.read a) (j : Nat) :
    readSample m' ins j = readSample m ins j := by
  unfold readSample
  split
  · exact memRead_congr (h _ (by omega) (by omega))
  · rfl

theorem sampleValue_congr (P : Params) (c : Channel)
    (h : ∀ a, ins.start ≤ a → a < ins.start + ins.length → m'.read a = m.read a) :
    sampleValue P m' ins c = sampleValue P m ins c := by
  simp only [sampleValue, readSample_congr h]

end

/-- Settles O34: a channel's value is made of two sample reads, each inside the instrument or a fault. -/
theorem sampleReadsStayInTheInstrument : Obligations.SampleReadsStayInTheInstrument := by
  intro P m m' v c h
  rw [synth, synth, sampleValue_congr P c h]

/-- A sample read inside an instrument of a decoded view answers (20_memory.md R40). -/
theorem readSample_inside {m : Memory} {ins : Instrument} {j : Nat} (hins : InstrumentOk m.len ins)
    (hj : j < ins.length) : ∃ b, readSample m ins j = .ok b := by
  have hrange := hins.range
  exact ⟨_, readSample_eq_ok.mpr ⟨hj, m.read_inside _ (by omega)⟩⟩

/-- Both indices of an interpolation are clamped into an instrument that is not empty (43_synthesizer.md R142). -/
theorem sampleValue_answers {P : Params} {m : Memory} {ins : Instrument} {c : Channel} (hins : InstrumentOk m.len ins)
    (hlength : 0 < ins.length) : ∃ x, sampleValue P m ins c = .ok x := by
  refine except_bind_answers (readSample_inside hins (by omega)) fun b1 _ => ?_
  exact except_bind_answers (readSample_inside hins (by omega)) fun b2 _ => ⟨_, rfl⟩

theorem synth_answers {P : Params} {m : Memory} {v : View} {c : Channel} (hv : ViewOk m v) (hc : ChannelOk v c) :
    ∃ r, synth P m v c = .ok r := by
  unfold synth
  split
  · next hactive =>
    have hvalue := sampleValue_answers (P := P) (c := c) (hv.instrument_ok c.inst) (hc.active hactive)
    exact except_bind_answers hvalue fun x _ => ⟨_, rfl⟩
  · exact ⟨_, rfl⟩

end Sys2Proof.Machine
end

section
/-! No step faults from a state of the invariant (20_memory.md R39): each part of a step answers. -/
namespace Sys2Proof.Machine

/-! ### The begin of a host operation -/

theorem runInitialize_answers (bytes : List Byte) (s : State) : ∃ t, runInitialize bytes s = .ok t := by
  refine except_bind_answers (decodeModule_answers _) fun r _ => ?_
  cases r with
  | error tag => exact ⟨_, rfl⟩
  | ok v => exact ⟨_, rfl⟩

theorem onPlayer_ne_fault {h : Nat} {s : State} {f : Fault} {act : State → Host.Outcome State Fault Refusal}
    (hact : ∀ u, act u ≠ .fault f) : onPlayer h s act ≠ .fault f := by
  unfold onPlayer
  split
  · exact hact _
  · nofun

/-- A host operation begins or is refused, in every state (45_host_interface.md R189, R190). -/
theorem beginOp_ne_fault (op : HostOp) (s : State) (f : Fault) : beginOp op s ≠ .fault f := by
  cases op with
  | initializePlayer bytes =>
    obtain ⟨t, ht⟩ := runInitialize_answers bytes s
    simp [beginOp, ht]
  | setOption o value => nofun
  | getSequenceLength g => exact onPlayer_ne_fault fun _ => by simp
  | setSequencePosition g position => exact onPlayer_ne_fault fun _ => by simp
  | render g frames mode room =>
    refine onPlayer_ne_fault fun u => ?_
    split <;> simp
  | discard g => exact onPlayer_ne_fault fun _ => by simp
  | disturbBuffer g => exact onPlayer_ne_fault fun _ => by simp

theorem hostStep_ne_fault (s : State) (f : Fault) : hostStep s ≠ .fault f := by
  unfold hostStep
  split
  · nofun
  · exact beginOp_ne_fault _ _ f

/-! ### A frame step -/

section
variable {s : State} {job job' : RenderJob}

theorem beginRow_answers (hseq : s.player.seqPos < s.player.view.seq.length) : ∃ t, beginRow job s = .ok t := by
  have hslot := List.getElem?_eq_getElem hseq
  exact except_bind_answers ⟨_, by rw [rowAddress, hslot]⟩ fun base _ => ⟨_, rfl⟩

theorem advanceTick_answers (hseq : s.player.seqPos < s.player.view.seq.length) : ∃ t, advanceTick job s = .ok t := by
  unfold advanceTick
  split
  · exact ⟨_, rfl⟩
  · exact beginRow_answers hseq

theorem tickTimer_answers (hseq : s.player.seqPos < s.player.view.seq.length) : ∃ t, tickTimer job s = .ok t := by
  unfold tickTimer
  split
  · exact advanceTick_answers hseq
  · exact ⟨_, rfl⟩

theorem synthAll_answers {P : Params} {p : Player} (hp : PlayerOk P p) :
    ∃ r, synthAll P p.buf p.view p.ch = .ok r := by
  obtain ⟨⟨x0, c0⟩, h0⟩ := synth_answers (P := P) hp.view (hp.channels 0)
  obtain ⟨⟨x1, c1⟩, h1⟩ := synth_answers (P := P) hp.view (hp.channels 1)
  obtain ⟨⟨x2, c2⟩, h2⟩ := synth_answers (P := P) hp.view (hp.channels 2)
  obtain ⟨⟨x3, c3⟩, h3⟩ := synth_answers (P := P) hp.view (hp.channels 3)
  exact ⟨(⟨x0, x1, x2, x3⟩, ⟨c0, c1, c2, c3⟩), synthAll_eq_ok.mpr ⟨h0, h1, h2, h3⟩⟩

theorem renderFrame_answers {mode : MixMode} (hp : PlayerOk s.params s.player) : ∃ t, renderFrame mode s = .ok t :=
  except_bind_answers (synthAll_answers hp) fun _ _ => ⟨_, rfl⟩

/-- Between row events the sequence position names a slot of the table (10_state.md R13, R21). -/
theorem Inv.seqPos_lt_slots (hi : Inv s) (hp : s.phase = .frame job) :
    s.player.seqPos < s.player.view.seq.length := by
  have hview := (hi.player (hi.handle_of_frame hp)).view
  have hseq := (hi.pc_of_frame hp).seq
  have hlen := hview.seqLen
  have hslots := hview.slots
  omega

theorem frameStep_answers (hi : Inv s) (hp : s.phase = .frame job') : ∃ t, frameStep job s = .ok t := by
  unfold frameStep
  split
  · exact ⟨_, rfl⟩
  · refine except_bind_answers (renderFrame_answers (hi.player (hi.handle_of_frame hp))) fun u hr => ?_
    obtain ⟨hu, hup⟩ := renderFrame_inv hi hp hr
    exact tickTimer_answers (hu.seqPos_lt_slots hup)

theorem renderStep_answers (hi : Inv s) (hp : s.phase = .frame job') : ∃ t, renderStep job s = .ok t := by
  unfold renderStep
  split
  · exact ⟨_, rfl⟩
  · exact frameStep_answers (hi.frames_left hp _) rfl

/-! ### A row word -/

/-- No row word faults or is refused (30_encoding.md R58, 42_effects.md R130). -/
theorem exec_completes (i : Instr) (s : State) : ∃ t, exec i s = .next t := by
  cases i <;> exact ⟨_, rfl⟩

/-- The four row words of a row event lie in its 16 bytes (41_sequencer.md R91). -/
theorem RowOk.fetch_inside (hr : RowOk s) : fetchAddress s + 4 ≤ s.player.buf.len := by
  have hrow := hr.inBuffer
  have hchan := s.chan.isLt
  unfold fetchAddress
  omega

theorem rowStep_completes (hr : RowOk s) : ∃ t, rowStep job s = .next t := by
  obtain ⟨w, hw⟩ := fetchRowWord_inside hr.fetch_inside
  obtain ⟨u, hu⟩ := exec_completes (decodeWord w) s
  exact ⟨nextRowWord job u, by simp only [rowStep, hw, hu]⟩

end

/-! ### Every step -/

/-- Settles O53, by the phase of the state: between operations no state faults, and inside a `render` the invariant puts
every read inside the buffer, its instrument and the sequence table. -/
theorem noStepFaultsFromTheInvariant : Obligations.NoStepFaultsFromTheInvariant := by
  intro s f hi
  cases hp : s.phase with
  | idle =>
    simp only [step, hp]
    exact hostStep_ne_fault s f
  | frame job =>
    obtain ⟨t, ht⟩ := renderStep_answers (job := job) hi hp
    simp [step, hp, ht]
  | row job =>
    obtain ⟨t, ht⟩ := rowStep_completes (job := job) (hi.row (inRow_of_row hp))
    simp [step, hp, ht]

end Sys2Proof.Machine
end

section
/-! Row words decode and encode (30_encoding.md R53, R54, R56): an instruction is its command number and its three
operands, both as a term and as a word. -/
namespace Sys2Proof

/-- The command map gives back the instruction whose number and operands it is handed (30_encoding.md R56). -/
theorem instrOfCommand_fields (i : Instr) : instrOfCommand i.command i.period i.inst i.val = i := by
  cases i <;> rfl

/-- The last arm of the command map stands for 0xF, the one number the arms before it leave. -/
theorem instrOfCommand_command (c : BitVec 4) (p : BitVec 12) (k : BitVec 5) (v : BitVec 8) :
    (instrOfCommand c p k v).command = c := by
  unfold instrOfCommand
  split
  case h_16 =>
    simp only [imp_false] at *
    simp only [Instr.command]
    bv_omega
  all_goals rfl

/-- The encoder lays out the fields of its instruction, whatever the command. -/
theorem encode_eq_packRow (i : Instr) : encode i = packRow i.period i.inst i.command i.val := by
  cases i <;> rfl

theorem decodeWord_packRow (p : BitVec 12) (k : BitVec 5) (c : BitVec 4) (v : BitVec 8) :
    decodeWord (packRow p k c v) = instrOfCommand c p k v := by
  simp [decodeWord]

theorem decodeWord_encode (i : Instr) : decodeWord (encode i) = i := by
  rw [encode_eq_packRow, decodeWord_packRow, instrOfCommand_fields]

/-- Settles O2: the decoder reads the four fields back, and the four bytes of a word give the word back. -/
theorem decodeOfEncodeGivesTheInstruction : Obligations.DecodeOfEncodeGivesTheInstruction := by
  intro i rest _
  refine ⟨decodeWord_encode i, ?_⟩
  rw [encodeBytes, decodeBytes_bytesOfWord, decodeWord_encode]

theorem decodeWord_operands (w : Word) :
    (decodeWord w).period = rowPeriod w ∧ (decodeWord w).inst = rowInst w ∧ (decodeWord w).val = rowValue w :=
  instrOfCommand_operands _ _ _ _

theorem decodeWord_command (w : Word) : (decodeWord w).command = rowCommand w :=
  instrOfCommand_command _ _ _ _

/-- Settles O1: each operand of the decoded instruction is a field of the word, and each field is a number taken from
it. -/
theorem rowWordFieldsFollowTheLayout : Obligations.RowWordFieldsFollowTheLayout := by
  intro b0 b1 b2 b3
  obtain ⟨hperiod, hinst, hval⟩ := decodeWord_operands (wordOfBytes b0 b1 b2 b3)
  dsimp only
  rw [hperiod, hinst, hval, decodeWord_command, toNat_rowPeriod, toNat_rowInst, toNat_rowCommand, toNat_rowValue,
    toNat_wordOfBytes]
  exact ⟨rfl, rfl, rfl, rfl, rfl⟩

theorem encode_decodeWord (w : Word) :
    encode (decodeWord w) = packRow (rowPeriod w) (rowInst w) (rowCommand w) (rowValue w) := by
  obtain ⟨hperiod, hinst, hval⟩ := decodeWord_operands w
  rw [encode_eq_packRow, hperiod, hinst, hval, decodeWord_command]

/-- The mask of the 29 bits that reach a field is a remainder. -/
theorem toNat_and_fieldMask (w : Word) : (w &&& 0x1FFFFFFF#32).toNat = w.toNat % 2 ^ 29 := by
  rw [BitVec.toNat_and]
  exact Nat.and_two_pow_sub_one_eq_mod w.toNat 29

/-- Settles O3: the fields of a word laid out again are its low 29 bits. -/
theorem encodeOfDecodeClearsOnlyIgnoredBits : Obligations.EncodeOfDecodeClearsOnlyIgnoredBits := by
  intro w
  apply BitVec.eq_of_toNat_eq
  rw [encode_decodeWord, toNat_packRow, toNat_and_fieldMask, toNat_rowPeriod, toNat_rowInst, toNat_rowCommand,
    toNat_rowValue]
  omega

/-- Settles O4: each word is written out, so the decoder runs on it. -/
theorem writtenOutWordsDecode : Obligations.WrittenOutWordsDecode := by
  unfold Obligations.WrittenOutWordsDecode
  decide

end Sys2Proof
end

section
/-! Every row word completes and keeps its frame (30_encoding.md R58, 42_effects.md R130). -/
namespace Sys2Proof.Machine

/-- Settles O6: a row word is the note part and one command effect, and both keep the frame. -/
theorem everyRowWordCompletesWithinItsFrame : Obligations.EveryRowWordCompletesWithinItsFrame := by
  intro i s
  obtain ⟨t, ht⟩ := exec_completes i s
  exact ⟨t, ht, exec_rowFrame ht⟩

end Sys2Proof.Machine
end

section
/-! The decoded view from the bytes of its module (40_decoder.md R72 to R80): what each reader of the decoder answers on a
loaded buffer, then the fields of the view. -/
namespace Sys2Proof.Machine

/-! ### Reads of a loaded buffer -/

/-- The byte of a module at an address, as a number. -/
def byteAt (bytes : List Byte) (a : Nat) : Nat := ((bytes[a]?).getD 0).toNat

/-- The halfword of a module at an address, most significant byte first (20_memory.md R31). -/
def halfAt (bytes : List Byte) (a : Nat) : Nat := byteAt bytes a * 256 + byteAt bytes (a + 1)

section

variable {bytes : List Byte} {a n : Nat}

theorem memRead_ofBytes {b : Byte} : memRead (Memory.ofBytes bytes) a = .ok b ↔ bytes[a]? = some b := by
  rw [memRead_eq_ok, Memory.read_ofBytes]

theorem toNat_memRead_ofBytes {b : Byte} (h : memRead (Memory.ofBytes bytes) a = .ok b) :
    b.toNat = byteAt bytes a := by
  rw [byteAt, memRead_ofBytes.mp h, Option.getD_some]

theorem memReadBytes_ofBytes {bs : List Byte} (h : memReadBytes (Memory.ofBytes bytes) a n = .ok bs) :
    bs = (bytes.drop a).take n := by
  induction n generalizing a bs with
  | zero =>
    cases h
    rfl
  | succ n ih =>
    simp only [memReadBytes, except_bind_eq_ok] at h
    obtain ⟨b, hb, rest, hrest, hbs⟩ := h
    cases hbs
    obtain ⟨ha, hget⟩ := List.getElem?_eq_some_iff.mp (memRead_ofBytes.mp hb)
    rw [List.drop_eq_getElem_cons ha, hget, List.take_succ_cons, ih hrest]

theorem be16_ofBytes (h : be16 (Memory.ofBytes bytes) a = .ok n) : n = halfAt bytes a := by
  simp only [be16, except_bind_eq_ok] at h
  obtain ⟨hi, hhi, lo, hlo, hn⟩ := h
  cases hn
  rw [halfAt, toNat_memRead_ofBytes hhi, toNat_memRead_ofBytes hlo]

/-- The bytes a loaded buffer answers, one by one. -/
theorem toNat_of_memReadBytes {bs : List Byte} {j : Nat} (h : memReadBytes (Memory.ofBytes bytes) a n = .ok bs)
    (hj : j < bs.length) : bs[j].toNat = byteAt bytes (a + j) := by
  have hbs := memReadBytes_ofBytes h
  have hlen := memReadBytes_length h
  have hget : bytes[a + j]? = some bs[j] := by
    rw [← List.getElem?_drop, ← List.getElem?_take_of_lt (by omega : j < n), ← hbs, List.getElem?_eq_getElem hj]
  rw [byteAt, hget, Option.getD_some]

end

/-! ### Instrument headers -/

/-- The instrument header at an address of a module (40_decoder.md R75). -/
def headerAt (bytes : List Byte) (h : Nat) : RawHeader where
  length  := halfAt bytes (h + 22) * 2
  volume  := BitVec.ofNat 7 (min (byteAt bytes (h + 25) % 128) 64)
  loopAt  := halfAt bytes (h + 26) * 2
  loopRaw := halfAt bytes (h + 28)

theorem readHeader_ofBytes {bytes : List Byte} {h : Nat} {r : RawHeader}
    (hr : readHeader (Memory.ofBytes bytes) h = .ok r) : r = headerAt bytes h := by
  simp only [readHeader, except_bind_eq_ok] at hr
  obtain ⟨len, hlen, vol, hvol, ls, hls, ll, hll, hr⟩ := hr
  cases hr
  rw [headerAt, be16_ofBytes hlen, be16_ofBytes hls, be16_ofBytes hll, defaultVolume, toNat_memRead_ofBytes hvol]

theorem readHeaders_ofBytes {bytes : List Byte} {h n : Nat} {rs : List RawHeader}
    (hrs : readHeaders (Memory.ofBytes bytes) h n = .ok rs) :
    rs = (List.range n).map fun k => headerAt bytes (h + 30 * k) := by
  induction n generalizing h rs with
  | zero =>
    cases hrs
    rfl
  | succ n ih =>
    simp only [readHeaders, except_bind_eq_ok] at hrs
    obtain ⟨r, hr, rest, hrest, hcons⟩ := hrs
    cases hcons
    have hnext : ∀ k, h + 30 + 30 * k = h + 30 * (k + 1) := fun k => by omega
    simp [readHeader_ofBytes hr, ih hrest, List.range_succ_eq_map, hnext]

/-! ### Placed instruments -/

/-- An instrument starts after the raw lengths of those before it (40_decoder.md R79). -/
theorem getElem?_placeInstruments (bufLen cur k : Nat) (rs : List RawHeader) :
    (placeInstruments bufLen cur rs)[k]? =
      rs[k]?.map (placeInstrument bufLen (cur + ((rs.take k).map RawHeader.length).sum)) := by
  induction rs generalizing cur k with
  | nil => rfl
  | cons r rest ih =>
    cases k with
    | zero => rfl
    | succ k => simp [placeInstruments, ih, Nat.add_assoc]

/-- A placed instrument has its loop bounds exactly where it loops (40_decoder.md R80). -/
theorem placeInstrument_eq (bufLen cur : Nat) (r : RawHeader) :
    placeInstrument bufLen cur r =
      let length := min r.length (bufLen - cur)
      let loops := decide (1 < r.loopRaw) && decide (r.loopAt < length)
      { start := cur, length := length, volume := r.volume, hasLoop := loops
        loopStart := (if loops then r.loopAt else 0)
        loopEnd := (if loops then min (r.loopAt + 2 * r.loopRaw) length else 0) } := by
  simp only [placeInstrument]
  split
  case isTrue hplain =>
    have hloops : (decide (1 < r.loopRaw) && decide (r.loopAt < min r.length (bufLen - cur))) = false := by
      simp only [Bool.and_eq_false_iff, decide_eq_false_iff_not]
      omega
    simp only [hloops]
    rfl
  case isFalse hloop =>
    have hloops : (decide (1 < r.loopRaw) && decide (r.loopAt < min r.length (bufLen - cur))) = true := by
      simp only [Bool.and_eq_true, decide_eq_true_eq]
      omega
    simp only [hloops]
    rfl

/-- The instruments of a view, from the headers of its module (40_decoder.md R75, R79). -/
theorem placeInstruments_headers {bytes : List Byte} {h n k : Nat} (bufLen cur : Nat) (hk : k < n) :
    (placeInstruments bufLen cur ((List.range n).map fun j => headerAt bytes (h + 30 * j)))[k]? =
      some (placeInstrument bufLen (cur + ((List.range k).map fun j => halfAt bytes (h + 30 * j + 22) * 2).sum)
        (headerAt bytes (h + 30 * k))) := by
  have htake : (List.range n).take k = List.range k := by rw [List.take_range, Nat.min_eq_left hk.le]
  rw [getElem?_placeInstruments, ← List.map_take, htake, List.map_map, List.getElem?_map, List.getElem?_range hk]
  rfl

/-! ### The layout -/

/-- Whether a module is long enough to hold the format tag and holds it (40_decoder.md R72). -/
def tagged (bytes : List Byte) : Bool :=
  decide (0x43C ≤ bytes.length) && decide ((bytes.drop 0x438).take 4 = formatTag)

/-- The layout the format tag selects (40_decoder.md R72, R73). -/
def layoutOf (bytes : List Byte) : Layout := if tagged bytes then layout31 else layout15

theorem selectLayout_ofBytes {bytes : List Byte} {l : Layout} (h : selectLayout (Memory.ofBytes bytes) = .ok l) :
    l = layoutOf bytes := by
  have hlen : (Memory.ofBytes bytes).len = bytes.length := rfl
  rw [selectLayout, hlen] at h
  split at h
  case isTrue hlong =>
    obtain ⟨tag, htag, hl⟩ := except_bind_eq_ok.mp h
    cases hl
    simp only [layoutOf, tagged, memReadBytes_ofBytes htag, hlong, decide_true, Bool.true_and, decide_eq_true_eq]
  case isFalse hshort =>
    cases h
    simp [layoutOf, tagged, hshort]

theorem layoutOf_ninst (bytes : List Byte) : (layoutOf bytes).ninst = if tagged bytes then 31 else 15 :=
  apply_ite _ _ _ _

theorem layoutOf_patternBase (bytes : List Byte) :
    (layoutOf bytes).patternBase = if tagged bytes then 0x43C else 0x258 :=
  apply_ite _ _ _ _

theorem layoutOf_seqOff (bytes : List Byte) : (layoutOf bytes).seqOff = if tagged bytes then 0x3B8 else 0x1D8 :=
  apply_ite _ _ _ _

/-- The sequence length byte stands two bytes before the sequence in both layouts (40_decoder.md R73). -/
theorem layoutOf_seqLenOff (bytes : List Byte) : (layoutOf bytes).seqLenOff = (layoutOf bytes).seqOff - 2 := by
  unfold layoutOf
  split <;> rfl

/-! ### The used patterns -/

theorem exists_maxPattern {bs : List Byte} (h : bs ≠ []) : ∃ b ∈ bs, maxPattern bs = b.toNat := by
  induction bs with
  | nil => exact absurd rfl h
  | cons b rest ih =>
    by_cases hlater : b.toNat < maxPattern rest
    · have hrest : rest ≠ [] := by
        rintro rfl
        exact absurd hlater (Nat.not_lt_zero _)
      obtain ⟨c, hc, hmax⟩ := ih hrest
      exact ⟨c, List.mem_cons_of_mem b hc, (Nat.max_eq_right hlater.le).trans hmax⟩
    · exact ⟨b, List.mem_cons_self, Nat.max_eq_left (Nat.not_lt.mp hlater)⟩

section

variable {bytes seq : List Byte} {off n : Nat}

/-- No used pattern reaches past the sample start (40_decoder.md R78). -/
theorem usedPattern_end_le_sampleStart (hseq : memReadBytes (Memory.ofBytes bytes) off 128 = .ok seq)
    (l : Layout) (hn : n ≤ 128) {j : Nat} (hj : j < n) :
    l.patternBase + 1024 * (byteAt bytes (off + j) + 1) ≤ sampleStartOf l seq n := by
  have hslots := memReadBytes_length hseq
  have hslot : j < seq.length := by omega
  rw [← toNat_of_memReadBytes hseq hslot]
  exact pattern_end_le_sampleStartOf (List.mem_take_iff_getElem.mpr ⟨j, lt_min hj hslot, rfl⟩)

/-- A used pattern ends at the sample start (40_decoder.md R78). -/
theorem exists_usedPattern_end_eq_sampleStart
    (hseq : memReadBytes (Memory.ofBytes bytes) off 128 = .ok seq) (l : Layout) (hn : 1 ≤ n) :
    ∃ j, j < n ∧ sampleStartOf l seq n = l.patternBase + 1024 * (byteAt bytes (off + j) + 1) := by
  have hslots := memReadBytes_length hseq
  have hused : seq.take n ≠ [] := List.ne_nil_of_length_pos (by rw [List.length_take]; omega)
  obtain ⟨b, hb, hmax⟩ := exists_maxPattern hused
  obtain ⟨j, hj, rfl⟩ := List.mem_take_iff_getElem.mp hb
  obtain ⟨hjn, hjslot⟩ := lt_min_iff.mp hj
  exact ⟨j, hjn, by rw [sampleStartOf, hmax, toNat_of_memReadBytes hseq hjslot]⟩

end

/-! ### The view -/

/-- Settles O47: each reader of the decoder answers the module's own bytes, so the view is built from them. -/
theorem decodedViewHoldsTheHeaderFields : Obligations.DecodedViewHoldsTheHeaderFields := by
  intro bytes v h
  obtain ⟨l, title, headers, lenByte, seq, hl, htitle, hheaders, hlen, hseq, -, rfl⟩ := decodeModule_cases h
  obtain rfl := selectLayout_ofBytes hl
  obtain ⟨hlow, hhigh⟩ := clampSeqLen_range lenByte
  rw [layoutOf_seqLenOff, layoutOf_seqOff] at hlen
  rw [layoutOf_seqOff] at hseq
  refine ⟨layoutOf_ninst bytes, layoutOf_patternBase bytes, memReadBytes_ofBytes htitle, ?seqLen,
    memReadBytes_ofBytes hseq, fun j => usedPattern_end_le_sampleStart hseq _ hhigh,
    exists_usedPattern_end_eq_sampleStart hseq _ hlow, ?count, ?insts⟩
  case seqLen => exact congrArg (fun b => min (max b 1) 128) (toNat_memRead_ofBytes hlen)
  case count => exact (placeInstruments_length _ _ _).trans (readHeaders_bounded hheaders).1
  case insts =>
    intro k hk
    obtain rfl := readHeaders_ofBytes hheaders
    exact (placeInstruments_headers _ _ hk).trans (congrArg some (placeInstrument_eq _ _ _))

end Sys2Proof.Machine
end

section
/-! A step of a row event runs the row word the event fetches (41_sequencer.md R91, R92), and a placed word is the one
fetched next (log 4). -/
namespace Sys2Proof.Machine

section
variable {s t : State} {job : RenderJob} {w : Word}

theorem step_rowWord (hp : s.phase = .row job) (hw : fetchRowWord s.player.buf (fetchAddress s) = .ok w)
    (ht : exec (decodeWord w) s = .next t) : step s = .next (nextRowWord job t) := by
  simp only [step, hp, rowStep, hw, ht]

theorem nextRowWord_of_not_last (hlast : t.chan ≠ 3) : nextRowWord job t = { t with chan := t.chan + 1 } :=
  if_neg hlast

theorem nextRowWord_of_last (hlast : t.chan = 3) : nextRowWord job t = endRow job t :=
  if_pos hlast

end

/-- Settles O16: the four bytes are the fetched word, and executing it keeps the channel number. -/
theorem stepRunsTheDecodedRowWord : Obligations.StepRunsTheDecodedRowWord := by
  intro s t job b0 b1 b2 b3 i a hp h0 h1 h2 h3 hdec _ ht
  subst hdec
  have hchan := (exec_rowFrame ht).chan
  rw [step_rowWord hp (fetchRowWord_eq_ok.mpr ⟨b0, b1, b2, b3, h0, h1, h2, h3, rfl⟩) ht]
  split
  · rw [nextRowWord_of_not_last (by omega)]
  · rw [nextRowWord_of_last (by omega)]

/-! ### Placed bytes -/

/-- Placing bytes changes nothing below them. -/
theorem Memory.read_placeBytes_below {m : Memory} {a k : Nat} (bytes : List Byte) (hw : m.wf = true) (hk : k < a)
    (hin : k < m.len) : (m.placeBytes a bytes).read k = m.read k := by
  induction bytes generalizing m a with
  | nil => rfl
  | cons b rest ih =>
    have hin' : k < (m.place a b).len := hin.trans_le (Nat.le_max_left _ _)
    rw [placeBytes, ih (place_wf m a b hw) (by omega) hin', read_place_other m k a b hw (by omega) hin]

/-- Placed bytes read back. -/
theorem Memory.read_placeBytes {m : Memory} {a k : Nat} {bytes : List Byte} {v : Byte} (hw : m.wf = true)
    (hv : bytes[k]? = some v) : (m.placeBytes a bytes).read (a + k) = some v := by
  induction bytes generalizing m a k with
  | nil => cases hv
  | cons b rest ih =>
    have hw' := place_wf m a b hw
    cases k with
    | zero =>
      have hin : a < (m.place a b).len := Nat.le_max_right _ _
      exact ((read_placeBytes_below rest hw' (Nat.lt_succ_self a) hin).trans (read_place_same m a b hw)).trans hv
    | succ k =>
      rw [Nat.add_left_comm a k 1, Nat.add_comm k]
      exact ih hw' hv

theorem fetchRowWord_placeBytes {m : Memory} (hw : m.wf = true) (a : Nat) (w : Word) :
    fetchRowWord (m.placeBytes a (bytesOfWord w)) a = .ok w :=
  fetchRowWord_eq_ok.mpr ⟨_, _, _, _, Memory.read_placeBytes (k := 0) hw rfl, Memory.read_placeBytes hw rfl,
    Memory.read_placeBytes hw rfl, Memory.read_placeBytes hw rfl, (wordOfBytes_bytesOfWord w).symm⟩

/-- The word `withFetchWord` places is the one the next step fetches. -/
theorem fetchRowWord_withFetchWord {s : State} (hw : (inRowEvent (withPlayer s)).player.buf.wf = true) (n w : Nat) :
    fetchRowWord (s.withFetchWord n w).player.buf (fetchAddress (s.withFetchWord n w)) =
      .ok (BitVec.ofNat 32 (w % 2 ^ n)) :=
  fetchRowWord_placeBytes hw _ _

theorem decodeTableWord_eq (n w : Nat) : decodeTableWord n w = some (decodeWord (BitVec.ofNat 32 (w % 2 ^ n))) := by
  have hdec := decodeBytes_bytesOfWord (BitVec.ofNat 32 (w % 2 ^ n)) []
  rw [List.append_nil] at hdec
  simp only [decodeTableWord, tableWordBytes, hdec]

/-- Settles O17: the placed word is fetched at channel 0, and every row word completes. -/
theorem placedWordRunsFirstAfterReset : Obligations.PlacedWordRunsFirstAfterReset := by
  intro w hw
  have htable := decodeTableWord_eq 32 w
  have hfetch := fetchRowWord_withFetchWord (s := State.reset) rfl 32 w
  rw [Nat.mod_eq_of_lt hw] at htable hfetch
  obtain ⟨t, ht⟩ := exec_completes (decodeWord (BitVec.ofNat 32 w)) (State.reset.withFetchWord 32 w)
  have hchan : t.chan = 0 := (exec_rowFrame ht).chan
  refine ⟨_, t, htable, rfl, ht, ?_⟩
  rw [step_rowWord (job := ⟨0, .mono⟩) rfl hfetch ht, nextRowWord_of_not_last (by simp [hchan]), hchan, zero_add]

end Sys2Proof.Machine
end

section
/-! The start and the end of a row event (41_sequencer.md R91, R97, R98), and the event of an empty row between them. -/
namespace Sys2Proof.Machine

/-! ### The start -/

/-- Settles O20: the sequence slot answers, so the row event begins at channel 0 of its row. -/
theorem rowEventLocatesItsRowOnce : Obligations.RowEventLocatesItsRowOnce := by
  intro s job pat htick hpat
  rw [advanceTick, if_neg (Nat.not_lt.mpr htick), beginRow, rowAddress, hpat]
  rfl

/-! ### The end -/

/-- The row after the ordinary increment, before it is brought below 64 (41_sequencer.md R97). -/
def nextRow (s : State) : Nat :=
  if s.flowTaken = true ∧ s.params.breakRowMode = .target then s.player.rowPos else s.player.rowPos + 1

/-- The position the row resolution leaves, before the song end check (41_sequencer.md R97). -/
def nextSeq (s : State) : Nat := if 63 < nextRow s then s.player.seqPos + 1 else s.player.seqPos

/-- Whether the row event ends the song (41_sequencer.md R98). -/
def RowEndsSong (s : State) : Prop := s.flowMarker = true ∨ s.player.view.seqLen ≤ nextSeq s

theorem resolveRow_eq (s : State) :
    resolveRow s = s.setPc (nextSeq s) (if 63 < nextRow s then 0 else nextRow s) := by
  have hrow : (if incrementsRow s then s.player.rowPos + 1 else s.player.rowPos) = nextRow s := by
    by_cases hflow : s.flowTaken = true ∧ s.params.breakRowMode = .target <;> simp [nextRow, incrementsRow, hflow]
  rw [resolveRow, hrow, nextSeq]
  split <;> rfl

theorem songEnds_resolveRow (s : State) : songEnds (resolveRow s) = true ↔ RowEndsSong s := by
  simp [resolveRow_eq, songEnds, RowEndsSong]

theorem endRow_of_songEnd (job : RenderJob) {s : State} (h : RowEndsSong s) :
    endRow job s = { s with
      phase := .frame job, chan := 0, rowBase := 0, flowTaken := false, flowMarker := false
      player := { s.player with
        rowPos := if 63 < nextRow s then 0 else nextRow s, seqPos := 0, finished := finishedAfterEnd s } } := by
  rw [endRow, songEndCheck, if_pos ((songEnds_resolveRow s).mpr h), resolveRow_eq]
  rfl

theorem endRow_of_not_songEnd (job : RenderJob) {s : State} (h : ¬ RowEndsSong s) :
    endRow job s = { s with
      phase := .frame job, chan := 0, rowBase := 0, flowTaken := false, flowMarker := false
      player := { s.player with rowPos := if 63 < nextRow s then 0 else nextRow s, seqPos := nextSeq s } } := by
  rw [endRow, songEndCheck, if_neg (mt (songEnds_resolveRow s).mp h), resolveRow_eq]
  rfl

/-- Settles O18, by whether the row event ends the song. -/
theorem rowEndResolvesTheProgramCounter : Obligations.RowEndResolvesTheProgramCounter := by
  intro s job row seq ends t
  by_cases h : ends
  · have ht : t = _ := endRow_of_songEnd job h
    rw [ht]
    exact ⟨rfl, fun _ => ⟨rfl, by simp [finishedAfterEnd]⟩, fun hn => absurd h hn, rfl⟩
  · have ht : t = _ := endRow_of_not_songEnd job h
    rw [ht]
    exact ⟨rfl, fun he => absurd he h, fun _ => ⟨rfl, rfl⟩, rfl⟩

/-! ### An empty row -/

/-- A row without a flow command, above the last, ends in the next row of its position. -/
theorem endRow_of_no_flow (job : RenderJob) {s : State} (htaken : s.flowTaken = false) (hmarker : s.flowMarker = false)
    (hrow : s.player.rowPos < 63) (hseq : s.player.seqPos < s.player.view.seqLen) :
    endRow job s = { s with
      phase := .frame job, chan := 0, rowBase := 0, flowTaken := false, flowMarker := false
      player := { s.player with rowPos := s.player.rowPos + 1 } } := by
  have hnext : nextRow s = s.player.rowPos + 1 := by simp [nextRow, htaken]
  have hsame : nextSeq s = s.player.seqPos := if_neg (by omega)
  have hgo : ¬ RowEndsSong s := by simp [RowEndsSong, hmarker, hsame, hseq]
  rw [endRow_of_not_songEnd job hgo, hsame, hnext, if_neg (by omega)]

/-- The row event of `s` when it stands at channel `i` and its channels are `cs`. -/
def atCell (s : State) (i : Fin 4) (cs : Channels) : State := { s with chan := i, player := { s.player with ch := cs } }

/-- An empty cell is an arpeggio with value 0 and no note: it resets the slot alone (41_sequencer.md R93, 42_effects.md
R111). -/
theorem exec_emptyCell (s : State) (i : Fin 4) (cs : Channels) :
    exec (decodeWord 0#32) (atCell s i cs) = .next (atCell s i (cs.set i (resetSlot (cs.get i)))) := rfl

theorem fetchRowWord_emptyCell {m : Memory} {base : Nat} (hzero : ∀ k, k < 16 → m.read (base + k) = some 0#8)
    (i : Fin 4) : fetchRowWord m (base + 4 * i.val) = .ok 0#32 := by
  have hi := i.isLt
  exact fetchRowWord_eq_ok.mpr ⟨0#8, 0#8, 0#8, 0#8, hzero (4 * i.val) (by omega), hzero (4 * i.val + 1) (by omega),
    hzero (4 * i.val + 2) (by omega), hzero (4 * i.val + 3) (by omega), rfl⟩

theorem step_emptyCell {s : State} {job : RenderJob} (hp : s.phase = .row job)
    (hzero : ∀ k, k < 16 → s.memByte (s.rowBase + k) = some 0#8) (i : Fin 4) (cs : Channels) :
    step (atCell s i cs) = .next (nextRowWord job (atCell s i (cs.set i (resetSlot (cs.get i))))) :=
  step_rowWord hp (fetchRowWord_emptyCell hzero i) (exec_emptyCell s i cs)

theorem run_succ {n : Nat} {s t : State} (h : step s = .next t) :
    Host.Core.run core (n + 1) s = Host.Core.run core n t := by
  rw [Nat.add_comm]
  exact run_add (run_one h)

/-- Settles O19: four empty cells one after another, then the end of a row without a flow command. -/
theorem emptyRowAdvancesToTheNextRow : Obligations.EmptyRowAdvancesToTheNextRow := by
  intro s job hp hchan htaken hmarker hzero hrow hseq
  have hcell := step_emptyCell hp hzero
  have hstart : s = atCell s 0 s.player.ch := by rw [atCell, ← hchan]
  calc Host.Core.run core 4 s
    _ = Host.Core.run core 4 (atCell s 0 s.player.ch) := by rw [← hstart]
    _ = Host.Core.run core 3 (atCell s 1 _) := run_succ (hcell 0 _)
    _ = Host.Core.run core 2 (atCell s 2 _) := run_succ (hcell 1 _)
    _ = Host.Core.run core 1 (atCell s 3 _) := run_succ (hcell 2 _)
    _ = .next (endRow job (atCell s 3 (s.player.ch.map resetSlot))) := run_one (hcell 3 _)
  rw [hchan, htaken, hmarker]
  exact congrArg _ (endRow_of_no_flow job (s := atCell s 3 _) htaken hmarker hrow hseq)

end Sys2Proof.Machine
end

section
/-! An intermediate tick (41_sequencer.md R90, 42_effects.md R127 to R129). -/
namespace Sys2Proof.Machine

theorem toNat_clampPeriod (p : Int) : ((clampPeriod p).toNat : Int) = min (max p 113) 856 := by
  simp only [clampPeriod, clampInt, BitVec.toNat_ofNat]
  omega

theorem toNat_slide_period (P : Params) (up : Bool) (c : Channel) :
    ((slide P up c).period.toNat : Int) = min (max (c.period.toNat + portaDelta P up c.effParam) 113) 856 :=
  toNat_clampPeriod _

theorem portaDelta_up (P : Params) (param : BitVec 8) :
    portaDelta P true param = if P.portaDir = .upDecreases then -(param.toNat : Int) else param.toNat := by
  cases hdir : P.portaDir <;> simp [portaDelta, hdir]

/-- The two directions of a portamento are opposite (decision D21). -/
theorem portaDelta_down (P : Params) (param : BitVec 8) : portaDelta P false param = -portaDelta P true param := by
  cases hdir : P.portaDir <;> simp [portaDelta, hdir]

theorem perTick_of_unarmed (P : Params) {c : Channel} (h : c.eff = .none) : perTick P c = c := by
  simp only [perTick, h]

theorem perTick_of_armed (P : Params) {c : Channel} (h : c.eff ≠ .none) :
    perTick P c = slide P (decide (c.eff = .portaUp)) c := by
  cases heff : c.eff with
  | none => exact absurd heff h
  | portaUp => simp [perTick, heff]
  | portaDown => simp [perTick, heff]

/-- Settles O21: the tick runs `perTick` on every channel, which slides the armed ones. -/
theorem intermediateTickSlidesArmedChannels : Obligations.IntermediateTickSlidesArmedChannels := by
  intro s job hmore
  refine ⟨s.player.ch.map (perTick s.params), if_pos hmore, by bv_omega, fun i => ?_⟩
  rw [Channels.get_map]
  refine ⟨perTick_of_unarmed s.params, fun harmed => ?_⟩
  rw [perTick_of_armed s.params harmed]
  refine ⟨rfl, ?_, rfl⟩
  rw [toNat_slide_period]
  by_cases hup : (s.player.ch.get i).eff = .portaUp
  · rw [if_pos hup, decide_eq_true hup, portaDelta_up]
  · rw [if_neg hup, decide_eq_false hup, portaDelta_down, portaDelta_up, ← sub_eq_add_neg]

end Sys2Proof.Machine
end

section
/-! What moves the program counter (41_sequencer.md R97, R99, 45_host_interface.md R183): inside a `render` a flow
command or the end of a row event, between operations a `set_sequence_position`. -/
namespace Sys2Proof.Machine

/-- The program counter of a player (10_state.md R13). -/
def Player.pc (p : Player) : Nat × Nat := (p.seqPos, p.rowPos)

theorem Player.pc_eq_iff {p q : Player} : q.pc = p.pc ↔ q.seqPos = p.seqPos ∧ q.rowPos = p.rowPos :=
  Prod.mk_inj

section
variable {s t : State} {job : RenderJob}

/-! ### A frame step -/

theorem advanceTick_pc (h : advanceTick job s = .ok t) : t.player.pc = s.player.pc := by
  obtain ⟨-, rfl⟩ | ⟨-, h⟩ := advanceTick_cases h
  · rfl
  · obtain ⟨pat, -, rfl⟩ := beginRow_cases h
    rfl

theorem tickTimer_pc (h : tickTimer job s = .ok t) : t.player.pc = s.player.pc := by
  obtain ⟨-, rfl⟩ | ⟨-, h⟩ := tickTimer_cases h
  · rfl
  · exact (advanceTick_pc h).trans rfl

theorem frameStep_pc (h : frameStep job s = .ok t) : t.player.pc = s.player.pc := by
  obtain ⟨-, rfl⟩ | ⟨-, u, hr, ht⟩ := frameStep_cases h
  · rfl
  · obtain ⟨x, cs, -, rfl⟩ := renderFrame_cases hr
    exact (tickTimer_pc ht).trans rfl

theorem renderStep_pc (h : renderStep job s = .ok t) : t.player.pc = s.player.pc := by
  obtain ⟨-, rfl⟩ | ⟨n, -, hf⟩ := renderStep_cases h
  · rfl
  · exact (frameStep_pc hf).trans rfl

theorem renderStep_of_step (hp : s.phase = .frame job) (h : step s = .next t) : renderStep job s = .ok t := by
  simp only [step, hp] at h
  split at h
  · next hr =>
    cases h
    exact hr
  · cases h

/-! ### A row word -/

theorem arpeggioEffect_pc (val : BitVec 8) (s : State) : (arpeggioEffect val s).player.pc = s.player.pc := by
  unfold arpeggioEffect
  split <;> rfl

theorem setSpeedTempoEffect_pc (val : BitVec 8) (s : State) :
    (setSpeedTempoEffect val s).player.pc = s.player.pc := by
  unfold setSpeedTempoEffect
  split
  · rfl
  · split
    · split <;> rfl
    · rfl

/-- Of the row words only position jump and pattern break write the program counter (42_effects.md R122, R124). -/
theorem exec_pc {i : Instr} (h : exec i s = .next t) (hjump : i.command ≠ 0xB#4) (hbreak : i.command ≠ 0xD#4) :
    t.player.pc = s.player.pc := by
  cases i <;> cases h
  case positionJump => exact absurd rfl hjump
  case patternBreak => exact absurd rfl hbreak
  case arpeggio => exact arpeggioEffect_pc _ _
  case setSpeedTempo => exact setSpeedTempoEffect_pc _ _
  all_goals rfl

end

/-! ### Between operations -/

section
variable {s t : State} {g h : Nat} {p q : Player}

theorem setSequencePosition_playerOf_other (position : Nat) (hg : s.handle = some g) (hne : g ≠ h) :
    (setSequencePosition position s).playerOf h = s.playerOf h := by
  unfold setSequencePosition
  split
  · have hother : some g ≠ some h := by simpa
    rw [State.playerOf, State.playerOf, State.setPc_handle, State.setPc_parked, hg, if_neg hother, if_neg hother]
  · rfl

/-- Between operations a player that stays is changed by no operation but a `set_sequence_position` on it. -/
theorem OpEffect.playerOf_eq {op : HostOp} (he : OpEffect s op t) (hi : Inv s) (hidle : s.phase = .idle)
    (hp : s.playerOf h = some p) (hq : t.playerOf h = some q)
    (hop : ∀ position, op ≠ .setSequencePosition h position) : t.playerOf h = s.playerOf h := by
  cases he with
  | malformed bytes tag => rfl
  | install bytes v hv => exact installPlayer_playerOf hi (hi.playerOf_lt hp) _
  | option o value => cases o <;> rfl
  | length g u hu => exact select_playerOf hi hu h
  | position g position u hu =>
    obtain ⟨hg, -⟩ := select_cases hu
    have hne : g ≠ h := fun e => hop position (by rw [e])
    exact (setSequencePosition_playerOf_other position hg hne).trans (select_playerOf hi hu h)
  | render g frames mode room u hu => exact select_playerOf hi hu h
  | discard g u hu => exact (discardCurrent_playerOf (hi.select hidle hu) hq).trans (select_playerOf hi hu h)

/-- A step between operations that begins no `set_sequence_position` on a player leaves it as it was, or discards it. -/
theorem step_keeps_player_of_idle (hi : Inv s) (hstep : step s = .next t) (hidle : s.phase = .idle)
    (hp : s.playerOf h = some p) (hq : t.playerOf h = some q)
    (hop : ∀ position, s.queue.head? ≠ some (.setSequencePosition h position)) : q = p := by
  obtain ⟨-, rfl⟩ | ⟨-, op, rest, hqueue, he⟩ | ⟨hbusy, -⟩ := step_effect hstep
  · exact Option.some.inj (hq.symm.trans hp)
  · have hop' : ∀ position, op ≠ .setSequencePosition h position := fun position e => hop position (by simp [hqueue, e])
    have hsame := he.playerOf_eq (hi.dequeue hidle rest) hidle hp hq hop'
    exact Option.some.inj (hq.symm.trans (hsame.trans hp))
  · exact absurd hidle hbusy

end

/-- Settles O22: inside a `render` by the parts of a step, between operations by the operation begun. -/
theorem programCounterMovesOnlyAsItsRulesSay : Obligations.ProgramCounterMovesOnlyAsItsRulesSay := by
  refine ⟨fun s t hstep => ⟨fun job hp => ?frame, fun job w hp hlast hw hjump hbreak => ?row⟩, ?idle⟩
  case frame => exact Player.pc_eq_iff.mp (renderStep_pc (renderStep_of_step hp hstep))
  case row =>
    obtain ⟨u, hu⟩ := exec_completes (decodeWord w) s
    have hchan := (exec_rowFrame hu).chan
    rw [step_rowWord hp hw hu, nextRowWord_of_not_last (by rwa [hchan])] at hstep
    have hpc := Player.pc_eq_iff.mp (exec_pc hu hjump hbreak)
    cases hstep
    exact hpc
  case idle =>
    intro s t h p q hi hstep hidle hp hq hop
    rw [step_keeps_player_of_idle hi hstep hidle hp hq hop]
    exact ⟨rfl, rfl⟩

end Sys2Proof.Machine
end

section
/-! The effect of each command on the state its note part leaves (42_effects.md R110 to R126). -/
namespace Sys2Proof.Machine

section
variable (s : State) (p : BitVec 12) (k : BitVec 5)

/-! ### What every command has in common -/

theorem noteStage_applied : NoteApplied s p k (noteStage p k s).channel := by
  rw [noteStage_channel]
  exact rowNote_applied s p k

/-- A row word whose command only reports. -/
theorem noteStage_emitDiag (kind : DiagKind) (command : BitVec 4) (v : BitVec 8) :
    let t := (noteStage p k s).emitDiag kind command v
    RowFrame s t ∧ SamePc s t ∧ SameTiming s t ∧ NoteApplied s p k t.channel ∧
      t.diags = s.diags ++ [⟨kind, s.chan, command, v⟩] :=
  ⟨(noteStage_frame p k s).trans (emitDiag_frame _ kind command v), ⟨rfl, rfl, rfl, rfl⟩, ⟨rfl, rfl, rfl, rfl⟩,
    noteStage_applied s p k, rfl⟩

/-- A row word whose command only writes its channel. -/
theorem noteStage_setChannel (c : Channel) :
    let t := (noteStage p k s).setChannel c
    RowFrame s t ∧ SamePc s t ∧ SameTiming s t ∧ t.channel = c ∧ t.diags = s.diags :=
  ⟨(noteStage_frame p k s).trans (setChannel_frame _ c), ⟨rfl, rfl, rfl, rfl⟩, ⟨rfl, rfl, rfl, rfl⟩,
    State.setChannel_channel _ c, rfl⟩

end

/-! ### Commands that report -/

/-- Settles O7: the value 0 leaves the note part's state, any other value adds one report to it. -/
theorem arpeggioReportsOnlyANonzeroValue : Obligations.ArpeggioReportsOnlyANonzeroValue := by
  intro s p k v
  refine ⟨arpeggioEffect v (noteStage p k s), rfl, ?_⟩
  by_cases hv : v = 0
  · rw [arpeggioEffect, if_pos hv, if_pos hv]
    exact ⟨noteStage_frame p k s, noteStage_samePc p k s, noteStage_sameTiming p k s, noteStage_applied s p k,
      (List.append_nil _).symm⟩
  · rw [arpeggioEffect, if_neg hv, if_neg hv]
    exact noteStage_emitDiag s p k _ _ v

theorem exec_of_reportsOnly {i : Instr} (h : reportsOnly i = true) (s : State) :
    exec i s = .next (unsupported i.command i.val (noteStage i.period i.inst s)) := by
  cases i
  case arpeggio | portaUp | portaDown | volumeSlide | positionJump | setVolume | patternBreak | setSpeedTempo => cases h
  all_goals rfl

/-- Settles O8: each of the eight commands is the note part and one report of its own number and value. -/
theorem unsupportedCommandsOnlyReport : Obligations.UnsupportedCommandsOnlyReport := fun i s h =>
  ⟨_, exec_of_reportsOnly h s, noteStage_emitDiag s i.period i.inst _ _ _⟩

/-! ### Portamento -/

theorem noteStage_armSlot (s : State) (p : BitVec 12) (k : BitVec 5) (eff : Effect) (v : BitVec 8) :
    let t := armSlot eff v (noteStage p k s)
    ∃ c, RowFrame s t ∧ SamePc s t ∧ SameTiming s t ∧ NoteApplied s p k c ∧
      t.channel = { c with eff := eff, effParam := v } ∧ t.diags = s.diags := by
  obtain ⟨hframe, hpc, htiming, hchannel, hdiags⟩ :=
    noteStage_setChannel s p k { (noteStage p k s).channel with eff := eff, effParam := v }
  exact ⟨_, hframe, hpc, htiming, noteStage_applied s p k, hchannel, hdiags⟩

/-- Settles O9: the slot is armed on the channel the note part leaves. -/
theorem portamentoUpArmsTheSlot : Obligations.PortamentoUpArmsTheSlot := by
  intro s p k v
  obtain ⟨c, h⟩ := noteStage_armSlot s p k .portaUp v
  exact ⟨_, c, rfl, h⟩

/-- Settles O10: the slot is armed on the channel the note part leaves. -/
theorem portamentoDownArmsTheSlot : Obligations.PortamentoDownArmsTheSlot := by
  intro s p k v
  obtain ⟨c, h⟩ := noteStage_armSlot s p k .portaDown v
  exact ⟨_, c, rfl, h⟩

/-! ### Volume -/

theorem toNat_clampVolume (v : Int) : ((clampVolume v).toNat : Int) = min (max v 0) 64 := by
  simp only [clampVolume, clampInt, BitVec.toNat_ofNat]
  omega

/-- A volume command writes the volume of the note part's channel, and nothing else of it. -/
theorem noteStage_writeVolume (s : State) (p : BitVec 12) (k : BitVec 5) (x : Int) :
    let t := writeVolume x (noteStage p k s)
    RowFrame s t ∧ SamePc s t ∧ SameTiming s t ∧
      t.channel = { (noteStage p k s).channel with volume := t.channel.volume } ∧
      (t.channel.volume.toNat : Int) = min (max x 0) 64 ∧ t.diags = s.diags := by
  intro t
  obtain ⟨hframe, hpc, htiming, hchannel, hdiags⟩ :=
    noteStage_setChannel s p k { (noteStage p k s).channel with volume := clampVolume x }
  have hvolume : t.channel.volume = clampVolume x := congrArg Channel.volume hchannel
  rw [hvolume]
  exact ⟨hframe, hpc, htiming, hchannel, toNat_clampVolume x, hdiags⟩

theorem slideDelta_of_int8 {P : Params} (h : P.volSlideMode = .int8) (v : BitVec 8) :
    slideDelta P v = if v.toNat < 128 then (v.toNat : Int) else v.toNat - 256 := by
  rw [slideDelta, h]
  dsimp only
  rw [BitVec.toInt_eq_toNat_cond]
  split <;> split <;> omega

theorem slideDelta_of_nibble {P : Params} (h : P.volSlideMode = .nibble) (v : BitVec 8) :
    slideDelta P v = if v.toNat / 16 ≠ 0 then ((v.toNat / 16 : Nat) : Int) else -((v.toNat % 16 : Nat) : Int) := by
  rw [slideDelta, h]

/-- Settles O11: the slide writes the note part's volume plus the delta, whichever way the value is read. -/
theorem volumeSlideAddsTheSignedDelta : Obligations.VolumeSlideAddsTheSignedDelta := by
  intro s p k v delta
  have hdelta : slideDelta s.params v = delta := by
    cases hmode : s.params.volSlideMode
    case int8 => simp only [delta, hmode, slideDelta_of_int8 hmode]
    case nibble => simp only [delta, hmode, slideDelta_of_nibble hmode]
  have hexec : exec (.volumeSlide p k v) s =
      .next (writeVolume ((noteStage p k s).channel.volume.toNat + delta) (noteStage p k s)) := by
    rw [← hdelta]
    rfl
  obtain ⟨hframe, hpc, htiming, hchannel, hvolume, hdiags⟩ :=
    noteStage_writeVolume s p k ((noteStage p k s).channel.volume.toNat + delta)
  exact ⟨_, _, hexec, hframe, hpc, htiming, noteStage_applied s p k, hchannel, hvolume, hdiags⟩

/-- Settles O12: the value is at least 0, so only the upper end of the clamp matters. -/
theorem setVolumeWritesTheClampedValue : Obligations.SetVolumeWritesTheClampedValue := by
  intro s p k v
  obtain ⟨hframe, hpc, htiming, hchannel, hvolume, hdiags⟩ := noteStage_writeVolume s p k v.toNat
  exact ⟨_, _, rfl, hframe, hpc, htiming, noteStage_applied s p k, hchannel, by omega, hdiags⟩

/-! ### Flow -/

/-- A row word whose command names a row and marks the flow. -/
theorem noteStage_flow (s : State) (p : BitVec 12) (k : BitVec 5) (seq row : Nat) (marker : Bool) :
    let t := ((noteStage p k s).setPc seq row).markFlow marker
    RowFrame s t ∧ SameTiming s t ∧ NoteApplied s p k t.channel :=
  ⟨(noteStage_frame p k s).trans ((setPc_frame _ seq row).trans (markFlow_frame _ marker)), ⟨rfl, rfl, rfl, rfl⟩,
    noteStage_applied s p k⟩

/-- Settles O13: row 0 of the position is named, and the marker is set beside what an earlier channel set. -/
theorem positionJumpNamesRowZeroOfItsValue : Obligations.PositionJumpNamesRowZeroOfItsValue := by
  intro s p k v
  obtain ⟨hframe, htiming, hnote⟩ := noteStage_flow s p k v.toNat 0 (decide (v = 0))
  refine ⟨positionJumpEffect v (noteStage p k s), rfl, hframe, htiming, hnote, rfl, rfl, rfl, rfl, ?_⟩
  have hmarker : (positionJumpEffect v (noteStage p k s)).flowMarker = (s.flowMarker || decide (v = 0)) := rfl
  rw [hmarker, Bool.or_eq_true, decide_eq_true_iff, or_comm]

/-- Settles O14, by whether the decoded row is above 63. -/
theorem patternBreakNamesItsRowOrReports : Obligations.PatternBreakNamesItsRowOrReports := by
  intro s p k v r
  refine ⟨patternBreakEffect v (noteStage p k s), rfl, ?_⟩
  unfold patternBreakEffect
  split
  case isTrue h =>
    obtain ⟨hframe, hpc, htiming, hnote, hdiags⟩ := noteStage_emitDiag s p k .breakRowOutOfRange 0xD#4 v
    exact ⟨hframe, htiming, hnote, hpc.flowMarker, fun hr => absurd h (Nat.not_lt.mpr hr), fun _ => ⟨hpc, hdiags⟩⟩
  case isFalse h =>
    obtain ⟨hframe, htiming, hnote⟩ := noteStage_flow s p k (s.player.seqPos + 1) (breakRow v) false
    exact ⟨hframe, htiming, hnote, Bool.or_false _, fun _ => ⟨rfl, rfl, rfl, rfl⟩, fun hr => absurd hr h⟩

/-! ### Speed and tempo -/

section
variable {v : BitVec 8} {s : State}

theorem setSpeedTempoEffect_of_speed (hlow : 1 ≤ v.toNat) (hhigh : v.toNat ≤ speedLimit s.params) :
    setSpeedTempoEffect v s = s.setSpeed v :=
  if_pos ⟨hlow, hhigh⟩

theorem setSpeedTempoEffect_of_32_le (h : 32 ≤ v.toNat) :
    setSpeedTempoEffect v s = if s.cfgSupportTempo then s.setTempo v else s.emitDiag .tempoIgnored 0xF#4 v := by
  have hlimit := (speedLimit_range s.params).2
  rw [setSpeedTempoEffect, if_neg (by omega), if_pos h]

theorem setSpeedTempoEffect_of_ignored (h : v.toNat = 0 ∨ speedLimit s.params < v.toNat ∧ v.toNat < 32) :
    setSpeedTempoEffect v s = s.emitDiag .speedIgnored 0xF#4 v := by
  rw [setSpeedTempoEffect, if_neg (by omega), if_neg (by omega)]

theorem setSpeedTempoEffect_samePc_channel (v : BitVec 8) (s : State) :
    SamePc s (setSpeedTempoEffect v s) ∧ (setSpeedTempoEffect v s).channel = s.channel := by
  unfold setSpeedTempoEffect
  split
  · exact ⟨⟨rfl, rfl, rfl, rfl⟩, rfl⟩
  · split
    · split <;> exact ⟨⟨rfl, rfl, rfl, rfl⟩, rfl⟩
    · exact ⟨⟨rfl, rfl, rfl, rfl⟩, rfl⟩

end

/-- Settles O15: one equation of the command for each range of the value. -/
theorem setSpeedTempoReadsItsValue : Obligations.SetSpeedTempoReadsItsValue := by
  intro s p k v top
  have hframe := (setSpeedTempoEffect_effect v (noteStage p k s)).rowFrame
  obtain ⟨hpc, hchannel⟩ := setSpeedTempoEffect_samePc_channel v (noteStage p k s)
  refine ⟨setSpeedTempoEffect v (noteStage p k s), rfl, (noteStage_frame p k s).trans hframe,
    ⟨hpc.seqPos, hpc.rowPos, hpc.flowTaken, hpc.flowMarker⟩, hchannel ▸ noteStage_applied s p k, ?speed, ?tempo,
    ?noTempo, ?ignored⟩
  case speed =>
    intro hlow hhigh
    rw [setSpeedTempoEffect_of_speed (s := noteStage p k s) hlow hhigh]
    exact ⟨rfl, rfl, rfl, rfl, rfl⟩
  case tempo =>
    intro hlow (hon : (noteStage p k s).cfgSupportTempo = true)
    rw [setSpeedTempoEffect_of_32_le hlow, if_pos hon]
    exact ⟨rfl, rfl, rfl, rfl, rfl⟩
  case noTempo =>
    intro hlow (hoff : (noteStage p k s).cfgSupportTempo = false)
    obtain ⟨-, -, htiming, -, hdiags⟩ := noteStage_emitDiag s p k .tempoIgnored 0xF#4 v
    rw [setSpeedTempoEffect_of_32_le hlow, hoff]
    exact ⟨htiming, hdiags⟩
  case ignored =>
    intro h
    obtain ⟨-, -, htiming, -, hdiags⟩ := noteStage_emitDiag s p k .speedIgnored 0xF#4 v
    rw [setSpeedTempoEffect_of_ignored (s := noteStage p k s) h]
    exact ⟨htiming, hdiags⟩

end Sys2Proof.Machine
end

section
/-! The sample value of a channel: two bytes, interpolated and scaled by the volume (43_synthesizer.md R141 to R145,
R150). -/
namespace Sys2Proof.Machine

theorem synth_of_inactive (P : Params) (m : Memory) (v : View) {c : Channel} (h : c.active = false) :
    synth P m v c = .ok (0, c) :=
  if_neg (by simp [h])

/-- Settles O27: the branch of an inactive channel. -/
theorem inactiveChannelIsSilentAndStill : Obligations.InactiveChannelIsSilentAndStill :=
  fun P m v _ => synth_of_inactive P m v

/-! ### The value an active channel answers -/

theorem sampleValue_of_reads {P : Params} {m : Memory} {ins : Instrument} {c : Channel} {b1 b2 : Byte}
    (h1 : readSample m ins (min (posIndex c.pos) (ins.length - 1)) = .ok b1)
    (h2 : readSample m ins (min (posIndex c.pos + 1) (ins.length - 1)) = .ok b2) :
    sampleValue P m ins c =
      .ok (scaleVolume P (interpolate (widen b1) (widen b2) (posFraction c.pos)) c.volume) := by
  rw [sampleValue, h1, h2]
  rfl

theorem synth_of_sampleValue {P : Params} {m : Memory} {v : View} {c : Channel} {x : Int} (hactive : c.active = true)
    (hx : sampleValue P m (v.instrument c.inst) c = .ok x) : synth P m v c = .ok (x, afterSample P c) := by
  rw [synth, if_pos hactive, hx]
  rfl

theorem interpolate_eq (c1 c2 : Int) (f : Nat) : interpolate c1 c2 f = (c1 * (4096 - f) + c2 * f) / 4096 :=
  sar_eq _ 12

/-- Settles O28: the clamped indices lie inside the instrument, so both reads answer. -/
theorem activeChannelInterpolatesAndScales : Obligations.ActiveChannelInterpolatesAndScales := by
  intro P m v c b1 b2 ins k f y hactive hlength h1 h2
  have hread1 : readSample m ins (min (posIndex c.pos) (ins.length - 1)) = .ok b1 := by
    rw [posIndex_eq]
    exact readSample_eq_ok.mpr ⟨by omega, h1⟩
  have hread2 : readSample m ins (min (posIndex c.pos + 1) (ins.length - 1)) = .ok b2 := by
    rw [posIndex_eq]
    exact readSample_eq_ok.mpr ⟨by omega, h2⟩
  have hy : interpolate (widen b1) (widen b2) (posFraction c.pos) = y := by
    rw [interpolate_eq, posFraction_eq]
    rfl
  rw [synth_of_sampleValue hactive (sampleValue_of_reads hread1 hread2), hy]
  exact congrArg (fun x => Except.ok (x, afterSample P c)) (divS_eq P (y * c.volume.toNat) 64 (by decide))

/-! ### The range of the value -/

section
variable {c1 c2 : Int} {f : Nat}

/-- The two weights of an interpolation are not negative and add up to 4096. -/
theorem le_interpolate {lo : Int} (hf : f ≤ 4096) (h1 : lo ≤ c1) (h2 : lo ≤ c2) : lo ≤ interpolate c1 c2 f := by
  have hterm1 : lo * (4096 - f) ≤ c1 * (4096 - f) := Int.mul_le_mul_of_nonneg_right h1 (by omega)
  have hterm2 : lo * f ≤ c2 * f := Int.mul_le_mul_of_nonneg_right h2 (by omega)
  rw [interpolate_eq]
  exact Int.le_ediv_of_mul_le (by decide) (by linarith)

theorem interpolate_le {hi : Int} (hf : f ≤ 4096) (h1 : c1 ≤ hi) (h2 : c2 ≤ hi) : interpolate c1 c2 f ≤ hi := by
  have hterm1 : c1 * (4096 - f) ≤ hi * (4096 - f) := Int.mul_le_mul_of_nonneg_right h1 (by omega)
  have hterm2 : c2 * f ≤ hi * f := Int.mul_le_mul_of_nonneg_right h2 (by omega)
  rw [interpolate_eq]
  exact Int.ediv_le_of_le_mul (by decide) (by linarith)

end

theorem interpolate_zero (c1 c2 : Int) : interpolate c1 c2 0 = c1 := by
  rw [interpolate_eq]
  omega

/-- Settles O29: an average with weights `4096 - f` and `f`. -/
theorem interpolationLiesBetweenTheSamples : Obligations.InterpolationLiesBetweenTheSamples :=
  fun c1 c2 _ hf =>
    ⟨le_interpolate hf.le (min_le_left c1 c2) (min_le_right c1 c2),
      interpolate_le hf.le (le_max_left c1 c2) (le_max_right c1 c2), interpolate_zero c1 c2⟩

/-- Both roundings are monotone and exact on multiples of the divisor (00_scope.md R8). -/
theorem divS_range (P : Params) {a b lo hi : Int} (hb : 0 < b) (hlo : lo * b ≤ a) (hhi : a ≤ hi * b) :
    lo ≤ divS P a b ∧ divS P a b ≤ hi := by
  rw [divS_eq P a b hb.le]
  cases P.signedDiv with
  | trunc =>
    have hlo' := Int.tdiv_le_tdiv hb hlo
    have hhi' := Int.tdiv_le_tdiv hb hhi
    rw [Int.mul_tdiv_cancel _ hb.ne'] at hlo' hhi'
    exact ⟨hlo', hhi'⟩
  | floor => exact ⟨Int.le_ediv_of_mul_le hb hlo, Int.ediv_le_of_le_mul hb hhi⟩

/-- A volume of at most 64 keeps a value inside every range around 0. -/
theorem scaleVolume_range (P : Params) {y lo hi : Int} {volume : BitVec 7} (hvolume : volume.toNat ≤ 64) (hneg : lo ≤ 0)
    (hpos : 0 ≤ hi) (hlo : lo ≤ y) (hhi : y ≤ hi) : lo ≤ scaleVolume P y volume ∧ scaleVolume P y volume ≤ hi := by
  have hv : (volume.toNat : Int) ≤ 64 := by omega
  refine divS_range P (by decide) ?_ ?_
  · calc lo * 64 ≤ lo * volume.toNat := Int.mul_le_mul_of_nonpos_left hneg hv
      _ ≤ y * volume.toNat := Int.mul_le_mul_of_nonneg_right hlo (by omega)
  · calc y * volume.toNat ≤ hi * volume.toNat := Int.mul_le_mul_of_nonneg_right hhi (by omega)
      _ ≤ hi * 64 := Int.mul_le_mul_of_nonneg_left hv hpos

theorem widen_range (b : Byte) : -32768 ≤ widen b ∧ widen b ≤ 32512 := by
  have hlo := b.le_toInt
  have hhi := b.toInt_lt
  simp only [widen]
  omega

theorem posFraction_lt (pos : BitVec 32) : posFraction pos < 4096 := BitVec.isLt _

theorem sampleValue_range {P : Params} {m : Memory} {ins : Instrument} {c : Channel} {x : Int}
    (hvolume : c.volume.toNat ≤ 64) (h : sampleValue P m ins c = .ok x) : -32768 ≤ x ∧ x ≤ 32512 := by
  obtain ⟨b1, b2, -, -, rfl⟩ := sampleValue_cases h
  obtain ⟨hlo1, hhi1⟩ := widen_range b1
  obtain ⟨hlo2, hhi2⟩ := widen_range b2
  have hf := (posFraction_lt c.pos).le
  exact scaleVolume_range P hvolume (by decide) (by decide) (le_interpolate hf hlo1 hlo2) (interpolate_le hf hhi1 hhi2)

/-- Settles O30: interpolation and scaling both stay inside the range of a widened byte. -/
theorem synthesizedValueIsInRange : Obligations.SynthesizedValueIsInRange := by
  intro P m v c c' x hvolume h
  obtain ⟨-, rfl, -⟩ | ⟨-, hx, -⟩ := synth_cases h
  · decide
  · exact sampleValue_range hvolume hx

end Sys2Proof.Machine
end

section
/-! The advance of an active channel by loop state, and where its position wraps to (43_synthesizer.md R146 to R149). -/
namespace Sys2Proof.Machine

/-! ### The wrap -/

/-- The multiple of the span that the SUBTRACT wrap takes off: the least that covers the excess over the loop end. -/
theorem span_mul_ceil_bounds {excess span : Nat} (hspan : 0 < span) (hexcess : 0 < excess) :
    1 ≤ (excess + span - 1) / span ∧ excess ≤ span * ((excess + span - 1) / span) ∧
      span * ((excess + span - 1) / span) < excess + span := by
  have hdiv := Nat.div_add_mod (excess + span - 1) span
  have hmod := Nat.mod_lt (excess + span - 1) hspan
  exact ⟨Nat.div_pos (by omega) hspan, by omega, by omega⟩

/-- Settles O33: the number of subtractions is the excess over the loop end in spans, rounded up. -/
theorem subtractWrapIsTheLoopsResult : Obligations.SubtractWrapIsTheLoopsResult := by
  intro pos loopStart loopEnd hspan hpos
  obtain ⟨hk, hcovers, hleast⟩ := span_mul_ceil_bounds (Nat.sub_pos_of_lt hspan) (Nat.sub_pos_of_lt hpos)
  refine ⟨_, hk, ?_⟩
  rw [subtractWrap]
  omega

theorem subtractWrap_le_pos (pos loopStart loopEnd : Nat) : subtractWrap pos loopStart loopEnd ≤ pos :=
  Nat.sub_le _ _

/-- The position a channel at position `q` wraps to, under the two readings of the wrap (R149, D11). -/
def wrapTarget (P : Params) (c : Channel) (q : Nat) : Nat :=
  match P.loopWrap with
  | .reset    => c.loopStartFx.toNat
  | .subtract => subtractWrap q c.loopStartFx.toNat c.loopEndFx.toNat

theorem wrapPos_pos (P : Params) {c : Channel} {q : Nat} (hq : c.pos.toNat = q) :
    (wrapPos P c).pos.toNat = wrapTarget P c q := by
  subst hq
  rw [wrapPos, wrapTarget]
  cases P.loopWrap with
  | reset => rfl
  | subtract => exact Nat.mod_eq_of_lt ((subtractWrap_le_pos _ _ _).trans_lt c.pos.isLt)

theorem wrapPos_active (P : Params) (c : Channel) : (wrapPos P c).active = c.active := by
  unfold wrapPos
  cases P.loopWrap <;> rfl

/-! ### The advance by loop state -/

section
variable {c : Channel}

theorem endOfSample_of_not_pastEnd (h : ¬ pastEnd c = true) : endOfSample c = c := if_neg h

theorem endOfSample_of_notLooping (hl : c.loopState = .notLooping) (h : pastEnd c = true) :
    endOfSample c = { c with active := false } := by
  rw [endOfSample, if_pos h, hl]

theorem endOfSample_of_looping (hl : c.loopState = .looping) (h : pastEnd c = true) :
    endOfSample c = { c with loopState := .loopTail } := by
  rw [endOfSample, if_pos h, hl]

/-- A channel in its loop stays as it is at the end of its sample: only the wrap moves it. -/
theorem endOfSample_of_loopTail (hl : c.loopState = .loopTail) : endOfSample c = c := by
  obtain ⟨⟩ := c
  cases hl
  rw [endOfSample]
  exact ite_id _

theorem pastLoopEnd_iff : pastLoopEnd c = true ↔ c.loopState = .loopTail ∧ c.loopEndFx.toNat < c.pos.toNat := by
  simp [pastLoopEnd]

end

section
variable (P : Params) {c : Channel}

/-- Outside the loop an advance that stays at or below the length only moves the position. -/
theorem afterSample_of_not_pastEnd (hl : c.loopState ≠ .loopTail) (h : ¬ pastEnd (advancePos c) = true) :
    afterSample P c = advancePos c := by
  rw [afterSample, endOfSample_of_not_pastEnd h]
  exact wrap_of_not_loopTail P hl

theorem afterSample_of_notLooping (hl : c.loopState = .notLooping) (h : pastEnd (advancePos c) = true) :
    afterSample P c = { advancePos c with active := false } := by
  rw [afterSample, endOfSample_of_notLooping (c := advancePos c) hl h]
  exact wrap_of_not_loopTail P (c := { advancePos c with active := false }) (by simp [advancePos, hl])

/-- The first pass over the length enters the loop and wraps at once, the loop end being at or below the length. -/
theorem afterSample_of_looping (hl : c.loopState = .looping) (h : pastEnd (advancePos c) = true)
    (hend : c.loopEndFx.toNat ≤ c.lengthFx.toNat) :
    afterSample P c = wrapPos P { advancePos c with loopState := .loopTail } := by
  rw [afterSample, endOfSample_of_looping (c := advancePos c) hl h]
  have hwraps : pastLoopEnd { advancePos c with loopState := .loopTail } = true :=
    pastLoopEnd_iff.mpr ⟨rfl, hend.trans_lt (of_decide_eq_true h)⟩
  exact if_pos hwraps

theorem afterSample_of_loopTail (hl : c.loopState = .loopTail) :
    afterSample P c = if c.loopEndFx.toNat < (advancePos c).pos.toNat then wrapPos P (advancePos c) else advancePos c := by
  have hl' : (advancePos c).loopState = .loopTail := hl
  rw [afterSample, endOfSample_of_loopTail hl']
  simp only [pastLoopEnd_iff, hl', true_and]
  rfl

end

/-- Settles O32: the advance by loop state, each case split at its own bound. -/
theorem advanceEndsLoopsOrWraps : Obligations.AdvanceEndsLoopsOrWraps := by
  intro P c hactive hfits hend q wrapped c'
  have hq : (advancePos c).pos.toNat = q := advancePos_pos hfits
  have hpast : pastEnd (advancePos c) = true ↔ c.lengthFx.toNat < q := pastEnd_advancePos hfits
  refine ⟨afterSample_keeps P c, fun hl => ?notLooping, fun hl => ?looping, fun hl => ?loopTail⟩
  case notLooping =>
    by_cases h : c.lengthFx.toNat < q
    · have heq : c' = _ := afterSample_of_notLooping P hl (hpast.mpr h)
      rw [heq]
      exact ⟨hq, hl, nofun, fun hle => absurd h (Nat.not_lt.mpr hle)⟩
    · have heq : c' = _ := afterSample_of_not_pastEnd P (by simp [hl]) (mt hpast.mp h)
      rw [heq]
      exact ⟨hq, hl, fun _ => Nat.not_lt.mp h, fun _ => hactive⟩
  case looping =>
    by_cases h : c.lengthFx.toNat < q
    · have heq : c' = _ := afterSample_of_looping P hl (hpast.mpr h) hend
      have hpos : c'.pos.toNat = wrapped := by
        rw [heq]
        exact wrapPos_pos P hq
      refine ⟨?_, fun hle => absurd h (Nat.not_lt.mpr hle), fun _ => ⟨hpos, ?_⟩⟩
      · rw [heq, wrapPos_active]
        exact hactive
      · rw [heq, wrapPos_loopState]
    · have heq : c' = _ := afterSample_of_not_pastEnd P (by simp [hl]) (mt hpast.mp h)
      rw [heq]
      exact ⟨hactive, fun _ => ⟨hq, hl⟩, fun hlt => absurd hlt h⟩
  case loopTail =>
    have heq : c' = _ := afterSample_of_loopTail P hl
    rw [hq] at heq
    by_cases h : c.loopEndFx.toNat < q
    · rw [heq, if_pos h, wrapPos_active, wrapPos_loopState, wrapPos_pos P hq]
      exact ⟨hactive, hl, fun hle => absurd h (Nat.not_lt.mpr hle), fun _ => rfl⟩
    · rw [heq, if_neg h]
      exact ⟨hactive, hl, fun _ => hq, fun hlt => absurd hlt h⟩

end Sys2Proof.Machine
end

section
/-! The ranges of the two rates (43_synthesizer.md R140, 44_mixer.md R166). -/
namespace Sys2Proof.Machine

/-- The smallest increment is that of the longest period at the highest rate. -/
theorem le_phaseInc {P : Params} (hP : P.wf = true) {p : Nat} (hpos : 1 ≤ p) (hp : p ≤ 4095) : 18 ≤ phaseInc P p := by
  obtain ⟨hmin, hmax⟩ := params_wf_iff.mp hP
  calc 18 ≤ phaseK / 192000 / 4095 := by decide
    _ ≤ phaseK / P.outputRate / 4095 := Nat.div_le_div_right (Nat.div_le_div_left hmax (by omega))
    _ ≤ phaseInc P p := Nat.div_le_div_left hp hpos

/-- The shortest tick is that of the highest tempo at the lowest rate. -/
theorem le_samplesPerTick {P : Params} (hP : P.wf = true) {t : Nat} (hpos : 1 ≤ t) (ht : t ≤ 255) :
    39 ≤ samplesPerTick P t := by
  obtain ⟨hmin, -⟩ := params_wf_iff.mp hP
  calc 39 ≤ 125 * 4000 / 50 / 255 := by decide
    _ ≤ 125 * P.outputRate / 50 / 255 := Nat.div_le_div_right (Nat.div_le_div_right (Nat.mul_le_mul_left _ hmin))
    _ ≤ samplesPerTick P t := Nat.div_le_div_left ht hpos

/-- Settles O37: both formulas are monotone in the rate and antitone in their argument, so the ends bound them. -/
theorem incrementAndTickLengthStayInRange : Obligations.IncrementAndTickLengthStayInRange :=
  fun _ hP =>
    ⟨fun p hlow hhigh => ⟨le_phaseInc hP hlow hhigh, phaseInc_le hP p⟩,
      fun _ hlow hhigh => ⟨le_samplesPerTick hP (by omega) hhigh, (samplesPerTick_range hP hlow hhigh).2⟩⟩

end Sys2Proof.Machine
end


section
/-! The mixer: what each mode makes of four lanes, and the range of its outputs (44_mixer.md R161 to R164). -/
namespace Sys2Proof.Machine

/-- Settles O35: each output is one signed division by a positive number. -/
theorem mixModesReduceTheLanes : Obligations.MixModesReduceTheLanes := by
  intro P s d
  have hd : ∀ a b, 0 ≤ b → divS P a b = d a b := divS_eq P
  refine ⟨?mono, ?hard, ?soft⟩
  case mono => rw [mixValues, hd _ 4 (by decide)]
  case hard => rw [mixValues, hd _ 2 (by decide), hd _ 2 (by decide)]
  case soft => rw [mixValues, hd _ 8 (by decide), hd _ 8 (by decide)]

/-- The weights of the lanes in an output add up to its divisor, so an output stays in every range the lanes are in. -/
theorem mixValues_range (P : Params) (mode : MixMode) {s : Lanes} {lo hi : Int} (h0 : lo ≤ s.s0 ∧ s.s0 ≤ hi)
    (h1 : lo ≤ s.s1 ∧ s.s1 ≤ hi) (h2 : lo ≤ s.s2 ∧ s.s2 ≤ hi) (h3 : lo ≤ s.s3 ∧ s.s3 ≤ hi) :
    ∀ y ∈ mixValues P mode s, lo ≤ y ∧ y ≤ hi := by
  cases mode with
  | mono =>
    exact List.forall_mem_singleton.mpr (divS_range P (by decide) (by omega) (by omega))
  | stereoHard =>
    refine List.forall_mem_cons.mpr ⟨?_, List.forall_mem_singleton.mpr ?_⟩
    · exact divS_range P (by decide) (by omega) (by omega)
    · exact divS_range P (by decide) (by omega) (by omega)
  | stereoSoft =>
    refine List.forall_mem_cons.mpr ⟨?_, List.forall_mem_singleton.mpr ?_⟩
    · exact divS_range P (by decide) (by omega) (by omega)
    · exact divS_range P (by decide) (by omega) (by omega)

/-- Values of 16 bits survive the conversion to samples. -/
theorem map_toInt_map_ofInt {ys : List Int} (h : ∀ y ∈ ys, -32768 ≤ y ∧ y < 32768) :
    (ys.map (BitVec.ofInt 16)).map BitVec.toInt = ys := by
  have hback : ∀ y ∈ ys, (BitVec.toInt ∘ BitVec.ofInt 16) y = id y := fun y hy =>
    BitVec.toInt_ofInt_eq_self (by decide) (h y hy).1 (h y hy).2
  rw [List.map_map, List.map_congr_left hback, List.map_id]

theorem mixValues_length (P : Params) (mode : MixMode) (s : Lanes) : (mixValues P mode s).length = frameWidth mode := by
  cases mode <;> rfl

/-- Settles O36: an output is a weighted mean of the lanes, and the lanes' range fits 16 bits. -/
theorem mixerOutputsFitSixteenBits : Obligations.MixerOutputsFitSixteenBits := by
  intro P mode s h0 h1 h2 h3
  have hrange := mixValues_range P mode h0 h1 h2 h3
  have hfits : ∀ y ∈ mixValues P mode s, -32768 ≤ y ∧ y < 32768 :=
    fun y hy => (hrange y hy).imp_right fun hhi => hhi.trans_lt (by decide)
  refine ⟨hrange, map_toInt_map_ofInt hfits, ?_⟩
  rw [mix, List.length_map, mixValues_length]
  cases mode <;> rfl

end Sys2Proof.Machine
end

section
/-! The frame step of a `render`: silenced, between two ticks, and at a tick (44_mixer.md R165, R167, R168). -/
namespace Sys2Proof.Machine

/-- The state a mixed frame leaves before the tick timer runs (44_mixer.md R165). -/
def frameRendered (s : State) (job : RenderJob) (x : Lanes) (cs : Channels) : State :=
  { s with phase := .frame job, out := s.out ++ mix s.params job.mode x, player := { s.player with ch := cs } }

section
variable {s t : State} {job : RenderJob} {n : Nat} {mode : MixMode}

theorem step_of_renderStep (hp : s.phase = .frame job) (h : renderStep job s = .ok t) : step s = .next t := by
  simp only [step, hp, h]

theorem tickTimer_of_tick (h : s.player.samplesUntilTick = 1) :
    tickTimer job s = advanceTick job { s with player := { s.player with samplesUntilTick := s.player.spt } } :=
  if_pos (by rw [h]; rfl)

theorem tickTimer_of_no_tick (h : s.player.samplesUntilTick ≠ 1) :
    tickTimer job s =
      .ok { s with player := { s.player with samplesUntilTick := s.player.samplesUntilTick - 1 } } :=
  if_neg (by bv_omega)

theorem renderStep_of_silenced (h : silenced s = true) :
    renderStep ⟨n + 1, mode⟩ s = .ok { s with phase := .frame ⟨n, mode⟩, out := s.out ++ zeroFrame mode } :=
  if_pos h

/-- A frame of a player that is not silenced: the mixed frame first, then the tick timer (44_mixer.md R165). -/
theorem renderStep_of_synthAll {x : Lanes} {cs : Channels} (h : silenced s = false)
    (hx : synthAll s.params s.player.buf s.player.view s.player.ch = .ok (x, cs)) :
    renderStep ⟨n + 1, mode⟩ s = tickTimer ⟨n, mode⟩ (frameRendered s ⟨n, mode⟩ x cs) := by
  have hsound : ¬ silenced { s with phase := .frame ⟨n, mode⟩ } = true := ne_true_of_eq_false h
  simp only [renderStep, frameStep, if_neg hsound, renderFrame, hx]
  rfl

end

/-- Settles O23: the four synthesis results make one frame, after which the timer only counts down. -/
theorem frameWithoutTickOnlyRendersAndCounts : Obligations.FrameWithoutTickOnlyRendersAndCounts := by
  intro s n mode x cs hp hsound htick h0 h1 h2 h3
  have hx := synthAll_eq_ok.mpr ⟨h0, h1, h2, h3⟩
  exact step_of_renderStep hp ((renderStep_of_synthAll hsound hx).trans (tickTimer_of_no_tick htick))

/-- Settles O24: the tick timer runs on the state that already holds the mixed frame. -/
theorem tickComesAfterOutputAndReload : Obligations.TickComesAfterOutputAndReload := by
  intro s n mode x cs _ hsound htick hx
  exact (renderStep_of_synthAll hsound hx).trans (tickTimer_of_tick htick)

/-- Settles O25: a finished player under SILENCE is silenced. -/
theorem silencedFrameEmitsZerosAndFreezes : Obligations.SilencedFrameEmitsZerosAndFreezes := by
  intro s n mode hp hfinished hsilence
  have hsilenced : silenced s = true := by simp [silenced, hfinished, hsilence]
  exact step_of_renderStep hp (renderStep_of_silenced hsilenced)

end Sys2Proof.Machine
end

section
/-! What a step inside a `render` does not read of the host's calls (45_host_interface.md R186): how many frames are
still to come, what was emitted before, what is asked for and what was answered. -/
namespace Sys2Proof.Machine

/-! ### Contexts -/

/-- What the host's calls put around a `render` in progress: frames to do after it, samples emitted and answers given
before it, operations asked for after it. -/
structure CallContext where
  frames  : Nat
  samples : List Sample
  pending : List HostOp
  answers : List HostResult

/-- The job of a `render` with more frames to do. -/
@[simp] def RenderJob.addFrames (n : Nat) (job : RenderJob) : RenderJob := { job with left := job.left + n }

/-- The place in a `render` with more frames to do. -/
@[simp] def Phase.addFrames (n : Nat) : Phase → Phase
  | .idle      => .idle
  | .frame job => .frame (job.addFrames n)
  | .row job   => .row (job.addFrames n)

/-- The state inside a `render`, in a context of calls. -/
def CallContext.extend (c : CallContext) (s : State) : State :=
  { s with
    phase   := s.phase.addFrames c.frames
    queue   := s.queue ++ c.pending
    out     := c.samples ++ s.out
    results := c.answers ++ s.results }

/-- The context of a call that only has more frames to do. -/
def CallContext.more (n : Nat) : CallContext := ⟨n, [], [], []⟩

theorem addFrames_eq_extend (n : Nat) : addFrames n = (CallContext.more n).extend := by
  funext s
  have hphase : addFrames n s = { s with phase := s.phase.addFrames n } := by
    cases hp : s.phase with
    | idle =>
      simp only [addFrames, Phase.addFrames, hp]
      rw [← hp]
    | frame job => simp [addFrames, hp]
    | row job => simp [addFrames, hp]
  simp [hphase, CallContext.extend, CallContext.more]

/-- Inside a `render` with something left to do. -/
def Rendering (s : State) : Prop := s.phase ≠ .idle ∧ ∀ mode, s.phase ≠ .frame ⟨0, mode⟩

theorem rendering_of_frame {s : State} {n : Nat} {mode : MixMode} (hp : s.phase = .frame ⟨n + 1, mode⟩) :
    Rendering s := by
  simp [Rendering, hp]

theorem rendering_of_row {s : State} {job : RenderJob} (hp : s.phase = .row job) : Rendering s := by
  simp [Rendering, hp]

section
variable (c : CallContext) (job : RenderJob) (mode : MixMode) (s : State)

theorem Rendering.extend {s : State} (hs : Rendering s) : Rendering (c.extend s) := by
  obtain ⟨hbusy, hleft⟩ := hs
  cases hp : s.phase with
  | idle => exact absurd hp hbusy
  | frame job =>
    obtain ⟨_ | n, mode⟩ := job
    · exact absurd hp (hleft mode)
    · simp [Rendering, CallContext.extend, hp]
  | row job => simp [Rendering, CallContext.extend, hp]

/-! ### A row word -/

theorem arpeggioEffect_extend (val : BitVec 8) : arpeggioEffect val (c.extend s) = c.extend (arpeggioEffect val s) := by
  rw [arpeggioEffect, arpeggioEffect, apply_ite c.extend]
  rfl

theorem patternBreakEffect_extend (val : BitVec 8) :
    patternBreakEffect val (c.extend s) = c.extend (patternBreakEffect val s) := by
  rw [patternBreakEffect, patternBreakEffect, apply_ite c.extend]
  rfl

theorem setSpeedTempoEffect_extend (val : BitVec 8) :
    setSpeedTempoEffect val (c.extend s) = c.extend (setSpeedTempoEffect val s) := by
  simp only [setSpeedTempoEffect, apply_ite c.extend]
  rfl

theorem exec_extend (i : Instr) : exec i (c.extend s) = mapNext c.extend (exec i s) := by
  cases i
  case arpeggio period inst val => exact congrArg _ (arpeggioEffect_extend c (noteStage period inst s) val)
  case patternBreak period inst val => exact congrArg _ (patternBreakEffect_extend c (noteStage period inst s) val)
  case setSpeedTempo period inst val => exact congrArg _ (setSpeedTempoEffect_extend c (noteStage period inst s) val)
  all_goals rfl

theorem resolveRow_extend : resolveRow (c.extend s) = c.extend (resolveRow s) := by
  rw [resolveRow_eq, resolveRow_eq]
  rfl

theorem songEndCheck_extend : songEndCheck (c.extend s) = c.extend (songEndCheck s) := by
  rw [songEndCheck, songEndCheck, apply_ite c.extend]
  rfl

theorem endRow_extend : endRow (job.addFrames c.frames) (c.extend s) = c.extend (endRow job s) := by
  rw [endRow, resolveRow_extend, songEndCheck_extend]
  rfl

theorem nextRowWord_extend : nextRowWord (job.addFrames c.frames) (c.extend s) = c.extend (nextRowWord job s) := by
  by_cases hlast : s.chan = 3
  · rw [nextRowWord_of_last hlast, nextRowWord_of_last (t := c.extend s) hlast, endRow_extend]
  · rw [nextRowWord_of_not_last hlast, nextRowWord_of_not_last (t := c.extend s) hlast]
    rfl

theorem rowStep_extend : rowStep (job.addFrames c.frames) (c.extend s) = mapNext c.extend (rowStep job s) := by
  have hfetch : fetchRowWord (c.extend s).player.buf (fetchAddress (c.extend s)) =
    fetchRowWord s.player.buf (fetchAddress s) := rfl
  rw [rowStep, rowStep, hfetch]
  cases fetchRowWord s.player.buf (fetchAddress s) with
  | error f => rfl
  | ok w =>
    simp only [exec_extend]
    cases exec (decodeWord w) s with
    | next t => exact congrArg _ (nextRowWord_extend c job t)
    | fault f => rfl
    | refused r => rfl

/-! ### A frame step -/

theorem emitFrame_extend (x : List Sample) : emitFrame x (c.extend s) = c.extend (emitFrame x s) := by
  simp [emitFrame, CallContext.extend]

theorem renderFrame_extend : renderFrame mode (c.extend s) = (renderFrame mode s).map c.extend := by
  have hsynth : synthAll (c.extend s).params (c.extend s).player.buf (c.extend s).player.view (c.extend s).player.ch =
    synthAll s.params s.player.buf s.player.view s.player.ch := rfl
  rw [renderFrame, renderFrame, hsynth]
  cases synthAll s.params s.player.buf s.player.view s.player.ch with
  | error f => rfl
  | ok r => exact congrArg _ (emitFrame_extend c { s with player := { s.player with ch := r.2 } } _)

theorem beginRow_extend : beginRow (job.addFrames c.frames) (c.extend s) = (beginRow job s).map c.extend := by
  have haddress : rowAddress (c.extend s).player = rowAddress s.player := rfl
  rw [beginRow, beginRow, haddress]
  cases rowAddress s.player <;> rfl

theorem advanceTick_extend : advanceTick (job.addFrames c.frames) (c.extend s) = (advanceTick job s).map c.extend := by
  rw [advanceTick, advanceTick, beginRow_extend, apply_ite (Except.map c.extend)]
  rfl

theorem tickTimer_extend : tickTimer (job.addFrames c.frames) (c.extend s) = (tickTimer job s).map c.extend := by
  by_cases htick : s.player.samplesUntilTick = 1
  · rw [tickTimer_of_tick htick, tickTimer_of_tick (s := c.extend s) htick]
    exact advanceTick_extend c job { s with player := { s.player with samplesUntilTick := s.player.spt } }
  · rw [tickTimer_of_no_tick htick, tickTimer_of_no_tick (s := c.extend s) htick]
    rfl

theorem frameStep_extend : frameStep (job.addFrames c.frames) (c.extend s) = (frameStep job s).map c.extend := by
  by_cases hsilent : silenced s = true
  · rw [frameStep, frameStep, if_pos hsilent, if_pos (show silenced (c.extend s) = true from hsilent), emitFrame_extend]
    rfl
  · rw [frameStep, frameStep, if_neg hsilent, if_neg (show ¬ silenced (c.extend s) = true from hsilent),
      show (job.addFrames c.frames).mode = job.mode from rfl, renderFrame_extend]
    cases renderFrame job.mode s with
    | error f => rfl
    | ok t => exact tickTimer_extend c job t

/-! ### Every step inside a `render` -/

theorem renderStep_extend (n : Nat) :
    renderStep (RenderJob.addFrames c.frames ⟨n + 1, mode⟩) (c.extend s) =
      (renderStep ⟨n + 1, mode⟩ s).map c.extend := by
  rw [RenderJob.addFrames, Nat.add_right_comm]
  exact frameStep_extend c ⟨n, mode⟩ { s with phase := .frame ⟨n, mode⟩ }

/-- A step inside a `render` does the same in every context of calls. -/
theorem step_extend {s : State} (hs : Rendering s) : step (c.extend s) = mapNext c.extend (step s) := by
  obtain ⟨hbusy, hleft⟩ := hs
  have hphase : (c.extend s).phase = s.phase.addFrames c.frames := rfl
  rw [step, step, hphase]
  cases hp : s.phase with
  | idle => exact absurd hp hbusy
  | frame job =>
    obtain ⟨_ | n, mode⟩ := job
    · exact absurd hp (hleft mode)
    · simp only [Phase.addFrames, renderStep_extend]
      cases renderStep ⟨n + 1, mode⟩ s <;> rfl
  | row job => exact rowStep_extend c job s

end

end Sys2Proof.Machine
end

section
/-! Every `render` completes (45_host_interface.md R184, R185): its steps one after another, the samples they emit, and
how many they are. -/
namespace Sys2Proof.Machine

/-! ### What a step inside a `render` emits -/

/-- From `s` to `t` exactly the samples `x` were emitted, and no operation was begun or answered. -/
structure Emits (x : List Sample) (s t : State) : Prop where
  out     : t.out = s.out ++ x
  queue   : t.queue = s.queue
  results : t.results = s.results

theorem Emits.refl (s : State) : Emits [] s s := ⟨(List.append_nil _).symm, rfl, rfl⟩

theorem Emits.trans {x y : List Sample} {s t u : State} (h : Emits x s t) (k : Emits y t u) : Emits (x ++ y) s u where
  out     := by rw [k.out, h.out, List.append_assoc]
  queue   := k.queue.trans h.queue
  results := k.results.trans h.results

theorem mix_length (P : Params) (mode : MixMode) (x : Lanes) : (mix P mode x).length = frameWidth mode := by
  rw [mix, List.length_map, mixValues_length]

section
variable {s t : State} {job : RenderJob}

/-- The tick timer emits nothing, and the next step is a frame again or the first row word of a row event. -/
theorem tickTimer_emits (h : tickTimer job s = .ok t) :
    Emits [] s t ∧ (t.phase = s.phase ∨ t.phase = .row job ∧ t.chan = 0) := by
  obtain ⟨-, rfl⟩ | ⟨-, h⟩ := tickTimer_cases h
  · exact ⟨⟨(List.append_nil _).symm, rfl, rfl⟩, .inl rfl⟩
  · obtain ⟨-, rfl⟩ | ⟨-, h⟩ := advanceTick_cases h
    · exact ⟨⟨(List.append_nil _).symm, rfl, rfl⟩, .inl rfl⟩
    · obtain ⟨pat, -, rfl⟩ := beginRow_cases h
      exact ⟨⟨(List.append_nil _).symm, rfl, rfl⟩, .inr ⟨rfl, rfl⟩⟩

/-- A frame step emits one frame of samples (44_mixer.md R164, R168). -/
theorem frameStep_emits (h : frameStep job s = .ok t) :
    ∃ x, x.length = frameWidth job.mode ∧ Emits x s t ∧ (t.phase = s.phase ∨ t.phase = .row job ∧ t.chan = 0) := by
  obtain ⟨-, rfl⟩ | ⟨-, u, hr, ht⟩ := frameStep_cases h
  · exact ⟨zeroFrame job.mode, List.length_replicate, ⟨rfl, rfl, rfl⟩, .inl rfl⟩
  · obtain ⟨x, cs, -, rfl⟩ := renderFrame_cases hr
    obtain ⟨⟨hout, hqueue, hresults⟩, hphase⟩ := tickTimer_emits ht
    exact ⟨mix s.params job.mode x, mix_length _ _ _, ⟨by rw [hout, List.append_nil], hqueue, hresults⟩, hphase⟩

theorem RowFrame.emits (h : RowFrame s t) : Emits [] s t :=
  ⟨by rw [h.out, List.append_nil], h.queue, h.results⟩

/-- A row word emits nothing, and the next step is the next row word or, after the last, a frame (41_sequencer.md
R91). -/
theorem rowStep_emits (h : rowStep job s = .next t) :
    Emits [] s t ∧ (t.phase = .frame job ∨ t.phase = s.phase ∧ t.chan.val = s.chan.val + 1) := by
  obtain ⟨w, u, -, hexec, rfl⟩ := rowStep_cases h
  have hframe := exec_rowFrame hexec
  obtain ⟨hout, hqueue, hresults⟩ := hframe.emits
  by_cases hlast : u.chan = 3
  · obtain ⟨seq, row, fin, -, -, -, he⟩ := endRow_cases job u
    rw [nextRowWord_of_last hlast, he]
    exact ⟨⟨hout, hqueue, hresults⟩, .inl rfl⟩
  · rw [nextRowWord_of_not_last hlast]
    exact ⟨⟨hout, hqueue, hresults⟩, .inr ⟨hframe.phase, by rw [← hframe.chan]; exact val_add_one hlast⟩⟩

end

/-! ### Runs inside a `render` -/

/-- `k` steps inside one `render` lead from a state to another and emit the samples `x`. -/
inductive RenderRun : Nat → List Sample → State → State → Prop
  | done (s : State) : RenderRun 0 [] s s
  | step {k : Nat} {x y : List Sample} {s t u : State} (hs : Rendering s) (hstep : step s = .next t) (hx : Emits x s t)
      (rest : RenderRun k y t u) : RenderRun (k + 1) (x ++ y) s u

namespace RenderRun
variable {j k : Nat} {x y : List Sample} {s t u : State}

theorem trans (h : RenderRun j x s t) (g : RenderRun k y t u) : RenderRun (j + k) (x ++ y) s u := by
  induction h with
  | done s => rwa [Nat.zero_add]
  | step hs hstep hx rest ih =>
    rw [Nat.add_right_comm, List.append_assoc]
    exact .step hs hstep hx (ih g)

theorem run (h : RenderRun k x s t) : Host.Core.run core k s = .next t := by
  induction h with
  | done s => rfl
  | step hs hstep hx rest ih => exact (run_succ hstep).trans ih

theorem emits (h : RenderRun k x s t) : Emits x s t := by
  induction h with
  | done s => exact .refl s
  | step hs hstep hx rest ih => exact hx.trans ih

theorem inv (h : RenderRun k x s t) (hi : Inv s) : Inv t := by
  induction h with
  | done s => exact hi
  | step hs hstep hx rest ih => exact ih (everyStepKeepsTheInvariant _ _ hi hstep)

theorem insideRender (h : RenderRun k x s t) : InsideRender s t := by
  induction h with
  | done s => exact .update rfl rfl rfl
  | step hs hstep hx rest ih =>
    obtain ⟨hidle, -⟩ | ⟨hidle, -⟩ | ⟨-, hinside⟩ := step_effect hstep
    · exact absurd hidle hs.1
    · exact absurd hidle hs.1
    · exact hinside.trans ih

/-- A run inside a `render` is the same in every context of calls (45_host_interface.md R186). -/
theorem extend (c : CallContext) (h : RenderRun k x s t) : RenderRun k x (c.extend s) (c.extend t) := by
  induction h with
  | done s => exact .done _
  | @step k x y s t u hs hstep hx rest ih =>
    have hemits : Emits x (c.extend s) (c.extend t) := by
      obtain ⟨hout, hqueue, hresults⟩ := hx
      exact ⟨by simp [CallContext.extend, hout], congrArg (· ++ c.pending) hqueue, congrArg (c.answers ++ ·) hresults⟩
    exact .step (hs.extend c) (by rw [step_extend c hs, hstep]; rfl) hemits ih

end RenderRun

/-! ### Every `render` completes -/

section
variable {s : State} {job : RenderJob} {n : Nat} {mode : MixMode}

/-- A row event ends after the row words it has left (41_sequencer.md R91). -/
theorem rowEvent_completes (d : Nat) (hi : Inv s) (hp : s.phase = .row job) (hd : 4 ≤ s.chan.val + d) :
    ∃ k t, k ≤ d ∧ RenderRun k [] s t ∧ t.phase = .frame job := by
  induction d generalizing s with
  | zero => exact absurd s.chan.isLt (by omega)
  | succ d ih =>
    obtain ⟨t, ht⟩ := rowStep_completes (job := job) (hi.row (inRow_of_row hp))
    have hstep : step s = .next t := by rw [step, hp]; exact ht
    obtain ⟨hemits, hphase | ⟨hphase, hchan⟩⟩ := rowStep_emits ht
    · exact ⟨1, t, by omega, .step (rendering_of_row hp) hstep hemits (.done t), hphase⟩
    · obtain ⟨k, u, hk, hrun, hu⟩ := ih (everyStepKeepsTheInvariant _ _ hi hstep) (hphase.trans hp) (by omega)
      exact ⟨k + 1, u, by omega, .step (rendering_of_row hp) hstep hemits hrun, hu⟩

/-- A frame of a `render` is one step, or five with the row event its tick begins. -/
theorem frame_completes (hi : Inv s) (hp : s.phase = .frame ⟨n + 1, mode⟩) :
    ∃ k t x, k ≤ 5 ∧ x.length = frameWidth mode ∧ RenderRun k x s t ∧ t.phase = .frame ⟨n, mode⟩ := by
  obtain ⟨t, ht⟩ := frameStep_answers (job := ⟨n, mode⟩) (hi.frames_left hp ⟨n, mode⟩) rfl
  have hstep : step s = .next t := step_of_renderStep hp ht
  obtain ⟨x, hlen, ⟨hout, hqueue, hresults⟩, hphase⟩ := frameStep_emits ht
  have hemits : Emits x s t := ⟨hout, hqueue, hresults⟩
  obtain hphase | ⟨hphase, hchan⟩ := hphase
  · refine ⟨1, t, x, by omega, hlen, ?_, hphase⟩
    rw [← List.append_nil x]
    exact .step (rendering_of_frame hp) hstep hemits (.done t)
  · obtain ⟨k, u, hk, hrun, hu⟩ :=
      rowEvent_completes 4 (everyStepKeepsTheInvariant _ _ hi hstep) hphase (Nat.le_add_left 4 _)
    refine ⟨k + 1, u, x, by omega, hlen, ?_, hu⟩
    rw [← List.append_nil x]
    exact .step (rendering_of_frame hp) hstep hemits hrun

theorem frames_complete (hi : Inv s) (hp : s.phase = .frame ⟨n, mode⟩) :
    ∃ k t x, k ≤ 5 * n ∧ x.length = n * frameWidth mode ∧ RenderRun k x s t ∧ t.phase = .frame ⟨0, mode⟩ := by
  induction n generalizing s with
  | zero => exact ⟨0, s, [], by omega, (Nat.zero_mul _).symm, .done s, hp⟩
  | succ n ih =>
    obtain ⟨j, t, x, hj, hx, hfirst, ht⟩ := frame_completes hi hp
    obtain ⟨k, u, y, hk, hy, hrest, hu⟩ := ih (hfirst.inv hi) ht
    refine ⟨j + k, u, x ++ y, by omega, ?_, hfirst.trans hrest, hu⟩
    rw [List.length_append, hx, hy, Nat.succ_mul, Nat.add_comm]

theorem step_finishRender (hp : s.phase = .frame ⟨0, mode⟩) : step s = .next (finishRender s) :=
  step_of_renderStep hp rfl

end

/-- Settles O54: `n` frames of at most five steps each, then the end of the `render`. -/
theorem everyRenderCompletes : Obligations.EveryRenderCompletes := by
  intro s n mode hi hp
  obtain ⟨k, t, x, hk, hlen, hrun, ht⟩ := frames_complete hi hp
  obtain ⟨hout, -, hresults⟩ := hrun.emits
  refine ⟨k + 1, finishRender t, x, by omega, ?_, finishRender_inv (hrun.inv hi) ht, rfl, hlen, ?_⟩
  · exact (run_add hrun.run).trans (run_one (step_finishRender ht))
  · rw [← hresults, ← hout]
    rfl

end Sys2Proof.Machine
end

section
/-! The host operations begun in one step between operations (45_host_interface.md R180 to R190). -/
namespace Sys2Proof.Machine

/-! ### The operation next in the queue -/

section
variable {s u : State} {op : HostOp} {h : Nat} {p : Player} {rest : List HostOp}

theorem step_hostOp (hp : s.phase = .idle) (hq : s.queue = op :: rest) :
    step s = beginOp op { s with queue := rest } := by
  simp only [step, hp, hostStep, hq]

/-- Whatever the host has asked for, selecting a player is the same. -/
theorem select_withQueue (queue : List HostOp) (hu : s.select h = some u) :
    State.select { s with queue := queue } h = some { u with queue := queue } := by
  obtain ⟨-, -, -, -, -, -, ⟨hh, rfl⟩ | ⟨hh, p, hf, rfl⟩⟩ := select_cases hu
  · exact if_pos hh
  · simp only [State.select, if_neg hh, hf]
    rfl

theorem onPlayer_of_select {f : State → Host.Outcome State Fault Refusal} (hu : s.select h = some u) :
    onPlayer h s f = f u := by
  simp only [onPlayer, hu]

theorem onPlayer_of_no_player {f : State → Host.Outcome State Fault Refusal} (hnone : s.playerOf h = none) :
    onPlayer h s f = .refused .noPlayer := by
  simp only [onPlayer, select_eq_none.mpr hnone]

/-- Selecting a player writes nothing but which player is the current one. -/
theorem select_eq (hp : s.playerOf h = some p) (hu : s.select h = some u) :
    u = { s with player := p, handle := some h, parked := u.parked } := by
  obtain ⟨hh, hplayer, -, -, -, -, ⟨-, rfl⟩ | ⟨-, q, -, rfl⟩⟩ := select_cases hu
  · rw [hp] at hplayer
    cases hplayer
    rw [← hh]
  · rw [hp] at hplayer
    cases hplayer
    rfl

theorem select_of_current (hh : s.handle = some h) : s.select h = some s := if_pos hh

theorem select_actsOn (hu : s.select h = some u) : ActsOn s u h where
  handle := (select_cases hu).1
  parked := fun hh => by
    rw [select_of_current hh] at hu
    cases hu
    rfl
  others := fun hi g _ => select_playerOf hi hu g

/-- Between operations every player is within the bounds of the invariant (10_state.md R24). -/
theorem Inv.playerOf_ok (hi : Inv s) (hidle : s.phase = .idle) (hp : s.playerOf h = some p) : PlayerOk s.params p := by
  obtain ⟨u, hu, rfl, hh⟩ := select_of_playerOf hp
  obtain ⟨-, -, hparams, -⟩ := select_cases hu
  rw [← hparams]
  exact (hi.select hidle hu).player (by simp [hh])

end

/-! ### Operations that are refused -/

/-- Settles O48: each operation on a player selects it first. -/
theorem operationsNeedAPlayer : Obligations.OperationsNeedAPlayer := by
  intro s op h rest hidle hq hop hnone
  rw [step_hostOp hidle hq]
  cases op <;> cases hop <;> exact onPlayer_of_no_player hnone

/-- Settles O49: the player is there, and the duty is what fails. -/
theorem brokenHostDutiesAreRefused : Obligations.BrokenHostDutiesAreRefused := by
  intro s p h n room mode rest hidle hp
  obtain ⟨u, hu, -, -⟩ := select_of_playerOf hp
  refine ⟨fun hq hroom => ?_, fun hq => ?_⟩
  · rw [step_hostOp hidle hq, beginOp, onPlayer_of_select (select_withQueue rest hu), if_neg (Nat.not_le.mpr hroom)]
  · rw [step_hostOp hidle hq, beginOp, onPlayer_of_select (select_withQueue rest hu)]

/-! ### Options -/

/-- Settles O38, by the option. -/
theorem setOptionWritesOnlyItsOption : Obligations.SetOptionWritesOnlyItsOption := by
  intro s o value rest hidle hq
  rw [step_hostOp hidle hq, beginOp]
  cases o <;> rfl

/-! ### The sequence -/

/-- Settles O39: selecting the player changes no player, and the answer is its length. -/
theorem sequenceLengthIsAnswered : Obligations.SequenceLengthIsAnswered := by
  intro s h p rest hidle hp hq
  obtain ⟨u, hu, rfl, -⟩ := select_of_playerOf hp
  refine ⟨⟨getSequenceLength { u with queue := rest }, ?step, ?answer, ?current, ?players⟩, fun hi => ?range⟩
  case step => rw [step_hostOp hidle hq, beginOp, onPlayer_of_select (select_withQueue rest hu)]
  case answer =>
    rw [select_eq hp hu]
    rfl
  case current =>
    intro hh
    rw [select_of_current hh] at hu
    cases hu
    exact ⟨rfl, rfl, rfl⟩
  case players => exact fun hi g => select_playerOf hi hu g
  case range => exact (hi.playerOf_ok hidle hp).view.seqLen

/-- The position is set with row 0, or, at or past the length, left with its row (45_host_interface.md R183). -/
theorem setSequencePosition_eq (position : Nat) (s : State) :
    setSequencePosition position s = { s with player := { s.player with
      seqPos := (if position < s.player.view.seqLen then position else s.player.seqPos)
      rowPos := (if position < s.player.view.seqLen then 0 else s.player.rowPos) } } := by
  unfold setSequencePosition
  split <;> rfl

/-- Settles O40: the player is selected, and its program counter is all that is written. -/
theorem setSequencePositionMovesOnlyTheProgramCounter :
    Obligations.SetSequencePositionMovesOnlyTheProgramCounter := by
  intro s h position p rest hidle hp hq
  obtain ⟨u, hu, rfl, -⟩ := select_of_playerOf hp
  obtain ⟨hhandle, hparked, hothers⟩ := select_actsOn hu
  refine ⟨setSequencePosition position { u with queue := rest }, ?step, ?acts, ?state⟩
  case step => rw [step_hostOp hidle hq, beginOp, onPlayer_of_select (select_withQueue rest hu)]
  case acts =>
    rw [setSequencePosition_eq]
    refine ⟨hhandle, hparked, fun hi g hg => ?_⟩
    rw [← hothers hi g hg]
    have hother : u.handle ≠ some g := by simpa [hhandle] using hg.symm
    rw [State.playerOf, State.playerOf, if_neg hother, if_neg hother]
  case state =>
    rw [setSequencePosition_eq, select_eq hp hu]

/-! ### `render` -/

section
variable {s v : State} {h n room : Nat} {mode : MixMode} {rest : List HostOp}

theorem step_render (hidle : s.phase = .idle) (hq : s.queue = .render h n mode room :: rest)
    (hv : s.select h = some v) (hroom : n * frameWidth mode ≤ room) :
    step s = .next (beginRender n mode { v with queue := rest }) := by
  rw [step_hostOp hidle hq, beginOp, onPlayer_of_select (select_withQueue rest hv), if_pos hroom]

end

/-- Settles O41: the player is selected and the `render` begins empty; the end hands over what it emitted. -/
theorem renderBeginsEmptyAndAnswersNotFinished : Obligations.RenderBeginsEmptyAndAnswersNotFinished := by
  intro s h n room p mode rest
  refine ⟨fun hidle hp hq hroom => ?_, step_finishRender⟩
  obtain ⟨u, hu, rfl, -⟩ := select_of_playerOf hp
  obtain ⟨hhandle, hparked, hothers⟩ := select_actsOn hu
  refine ⟨_, step_render hidle hq hu hroom, ⟨hhandle, hparked, hothers⟩, ?_⟩
  rw [select_eq hp hu]
  rfl

/-! ### A new player -/

theorem runInitialize_of_decode {bytes : List Byte} {v : View} (hv : decodeModule (Memory.ofBytes bytes) = .ok (.ok v))
    (s : State) :
    runInitialize bytes s = .ok (installPlayer (freshPlayer s.params (Memory.ofBytes bytes) v) s) := by
  rw [runInitialize, hv]
  rfl

/-- Settles O42: the new player is the fresh one of the decoded view. -/
theorem initializeSetsEveryResetValue : Obligations.InitializeSetsEveryResetValue := by
  intro s bytes v rest hidle hq hv
  have hstep := step_hostOp hidle hq
  simp only [beginOp, runInitialize_of_decode hv] at hstep
  exact ⟨_, hstep, rfl, rfl, rfl, rfl, rfl, hidle⟩

end Sys2Proof.Machine
end

section
/-! How the host splits frames into calls does not matter (45_host_interface.md R186). -/
namespace Sys2Proof.Machine

section
variable {s v b : State} {h k n room : Nat} {mode : MixMode} {rest : List HostOp} {x : List Sample}

/-! ### A call as one run -/

/-- The context of a call among others: what is asked for after it, and what was answered before it. -/
def CallContext.among (pending : List HostOp) (answers : List HostResult) : CallContext := ⟨0, [], pending, answers⟩

/-- The state a `render` begins with, apart from what else the host asked for and was answered. -/
def callStart (n : Nat) (mode : MixMode) (v : State) : State :=
  { v with phase := .frame ⟨n, mode⟩, queue := [], out := [], results := [] }

/-- The state after a `render` that emitted `x` and ended in `b`, with what else was asked for and answered before. -/
def callEnd (rest : List HostOp) (answers : List HostResult) (x : List Sample) (b : State) : State :=
  { b with
    phase := .idle, queue := rest, out := [], results := answers ++ [.rendered (!b.player.finished) x] }

theorem callStart_inv (hi : Inv v) (hidle : v.phase = .idle) (hh : v.handle.isSome = true) : Inv (callStart n mode v) :=
  { beginRender_inv hi hidle hh n mode with row := nofun, silent := nofun }

/-- A `render` in its context of calls: its begin, its frames and its end. -/
theorem run_render (hidle : s.phase = .idle) (hq : s.queue = .render h n mode room :: rest) (hv : s.select h = some v)
    (hroom : n * frameWidth mode ≤ room) (hrun : RenderRun k x (callStart n mode v) b)
    (hb : b.phase = .frame ⟨0, mode⟩) : Host.Core.run core (k + 1 + 1) s = .next (callEnd rest s.results x b) := by
  obtain ⟨-, -, -, -, hresults, -⟩ := select_cases hv
  have hbegin : beginRender n mode { v with queue := rest } =
      (CallContext.among rest s.results).extend (callStart n mode v) := by
    simp [beginRender, CallContext.extend, callStart, CallContext.among, hresults]
  have hend : finishRender ((CallContext.among rest s.results).extend b) = callEnd rest s.results x b := by
    obtain ⟨hout, hqueue, hanswers⟩ := hrun.emits
    simp [finishRender, CallContext.extend, callEnd, CallContext.among, hout, hqueue, hanswers, callStart]
  have hlast : ((CallContext.among rest s.results).extend b).phase = .frame ⟨0, mode⟩ := by
    simp [CallContext.extend, CallContext.among, hb]
  calc Host.Core.run core (k + 1 + 1) s
    _ = Host.Core.run core (k + 1) ((CallContext.among rest s.results).extend (callStart n mode v)) :=
      run_succ (hbegin ▸ step_render hidle hq hv hroom)
    _ = Host.Core.run core 1 ((CallContext.among rest s.results).extend b) := run_add (hrun.extend _).run
    _ = .next (callEnd rest s.results x b) := run_one (hend ▸ step_finishRender hlast)

/-! ### Two calls and one -/

/-- The context of the frames that follow others in one call: the samples `x` emitted before. -/
def CallContext.after (x : List Sample) : CallContext := ⟨0, x, [], []⟩

/-- Two runs one after the other are one run for all their frames: the first has more frames to come, the second was
emitted after the first one's samples. -/
theorem renderRun_join {j n₁ n₂ : Nat} {y : List Sample} {d : State} (hfirst : RenderRun j x (callStart n₁ mode v) b)
    (hb : b.phase = .frame ⟨0, mode⟩) (hsecond : RenderRun k y (callStart n₂ mode b) d) :
    RenderRun (j + k) (x ++ y) (callStart (n₁ + n₂) mode v) ((CallContext.after x).extend d) := by
  obtain ⟨hout, hqueue, hanswers⟩ := hfirst.emits
  have hmeet : (CallContext.more n₂).extend b = (CallContext.after x).extend (callStart n₂ mode b) := by
    simp [CallContext.extend, CallContext.more, CallContext.after, callStart, hb, hout, hqueue, hanswers]
  have hstart := hfirst.extend (.more n₂)
  rw [hmeet] at hstart
  exact hstart.trans (hsecond.extend _)

/-- A `render` of `n₁` frames and one of `n₂` frames after it both complete, on the same player. -/
theorem callStart_runs (n₁ n₂ : Nat) (hi : Inv v) (hidle : v.phase = .idle) (hh : v.handle = some h) :
    ∃ j k, ∃ b d : State, ∃ x₁ x₂, x₁.length = n₁ * frameWidth mode ∧ x₂.length = n₂ * frameWidth mode ∧
      RenderRun j x₁ (callStart n₁ mode v) b ∧ b.phase = .frame ⟨0, mode⟩ ∧ b.handle = some h ∧
      RenderRun k x₂ (callStart n₂ mode b) d ∧ d.phase = .frame ⟨0, mode⟩ := by
  have hstart := callStart_inv (n := n₁) (mode := mode) hi hidle (by simp [hh])
  obtain ⟨j, b, x₁, -, hlen₁, hfirst, hb⟩ := frames_complete hstart rfl
  have hbh : b.handle = some h := hfirst.insideRender.handle.trans hh
  have hbetween := finishRender_inv (hfirst.inv hstart) hb
  have hmiddle : Inv (callStart n₂ mode b) :=
    callStart_inv (v := finishRender b) hbetween rfl (Option.isSome_of_eq_some hbh)
  obtain ⟨k, d, x₂, -, hlen₂, hsecond, hd⟩ := frames_complete hmiddle rfl
  exact ⟨j, k, b, d, x₁, x₂, hlen₁, hlen₂, hfirst, hb, hbh, hsecond, hd⟩

end

/-- Settles O60: a step inside a `render` does the same in every context of calls, and so does a run of them. -/
theorem splittingARenderChangesNoSample : Obligations.SplittingARenderChangesNoSample := by
  refine ⟨fun s n hbusy hleft => ?step, fun s h n₁ n₂ room₁ room₂ room p mode rest hi hidle hp h₁ h₂ hboth => ?calls⟩
  case step =>
    rw [addFrames_eq_extend]
    exact step_extend (.more n) ⟨hbusy, hleft⟩
  case calls =>
    obtain ⟨v, hv, -, hh⟩ := select_of_playerOf hp
    obtain ⟨-, -, -, hphase, -⟩ := select_cases hv
    obtain ⟨j, k, b, d, x₁, x₂, hlen₁, hlen₂, hfirst, hb, hbh, hsecond, hd⟩ :=
      callStart_runs n₁ n₂ (hi.select hidle hv) (hphase.trans hidle) hh
    have hcall₁ := run_render (s := { s with queue := .render h n₁ mode room₁ :: .render h n₂ mode room₂ :: rest })
      hidle rfl (select_withQueue _ hv) h₁ hfirst hb
    have hcall₂ := run_render (s := callEnd (.render h n₂ mode room₂ :: rest) s.results x₁ b)
      rfl rfl (select_of_current hbh) h₂ hsecond hd
    have hone := run_render (s := { s with queue := .render h (n₁ + n₂) mode room :: rest })
      hidle rfl (select_withQueue _ hv) hboth (renderRun_join hfirst hb hsecond)
      (by simp [CallContext.extend, CallContext.after, hd])
    exact ⟨_, _, _, _, !b.player.finished, !d.player.finished, x₁, x₂, (run_add hcall₁).trans hcall₂, hone, rfl, rfl,
      hlen₁, hlen₂, List.append_assoc _ _ _, rfl, rfl⟩

end Sys2Proof.Machine
end

section
/-! A step changes no player but the one it acts on (60_exceptions.md R210). -/
namespace Sys2Proof.Machine

/-! ### The player a step acts on -/

section
variable {s t : State} {op : HostOp} {rest : List HostOp} {h : Nat} {p : Player}

theorem actingPlayer_of_hostOp (hidle : s.phase = .idle) (hq : s.queue = op :: rest) :
    actingPlayer s = opPlayer op := by
  simp [actingPlayer, hidle, hq]

theorem actingPlayer_of_busy (hbusy : s.phase ≠ .idle) : actingPlayer s = s.handle := by
  unfold actingPlayer
  split
  · exact absurd ‹_› hbusy
  · rfl

/-! ### Every other player -/

/-- A player that is not the current one, before and after, is as the parked players have it. -/
theorem playerOf_of_parked_eq (hs : s.handle ≠ some h) (ht : t.handle ≠ some h) (hparked : t.parked = s.parked) :
    t.playerOf h = s.playerOf h := by
  rw [State.playerOf, State.playerOf, if_neg ht, if_neg hs, hparked]

theorem select_handle_ne {u : State} {g : Nat} (hu : s.select g = some u) (hg : some g ≠ some h) :
    u.handle ≠ some h := by
  rw [(select_cases hu).1]
  exact hg

/-- The begin of a host operation leaves every player but the operand's as it was (70_reset_and_hazards.md R222). -/
theorem OpEffect.playerOf_other (he : OpEffect s op t) (hi : Inv s) (hother : opPlayer op ≠ some h)
    (hp : s.playerOf h = some p) : t.playerOf h = s.playerOf h := by
  cases he with
  | malformed bytes tag => rfl
  | install bytes v hv => exact installPlayer_playerOf hi (hi.playerOf_lt hp) _
  | option o value => cases o <;> rfl
  | length g u hu => exact select_playerOf hi hu h
  | position g position u hu =>
    have hcurrent := select_handle_ne hu hother
    rw [← select_playerOf hi hu h, setSequencePosition_eq]
    exact playerOf_of_parked_eq hcurrent hcurrent rfl
  | render g frames mode room u hu => exact select_playerOf hi hu h
  | discard g u hu =>
    rw [← select_playerOf hi hu h]
    exact playerOf_of_parked_eq (select_handle_ne hu hother) nofun rfl

/-- A step inside a `render` leaves every player but the current one as it was. -/
theorem InsideRender.playerOf_other (hf : InsideRender s t) (hother : s.handle ≠ some h) :
    t.playerOf h = s.playerOf h :=
  playerOf_of_parked_eq hother (by rwa [hf.handle]) hf.parked

end

/-- Settles O56, by the three kinds of step: nothing, the begin of a host operation, a step inside a `render`. -/
theorem otherPlayersAreUntouched : Obligations.OtherPlayersAreUntouched := by
  intro s t h p hi hstep hp hother
  obtain ⟨-, rfl⟩ | ⟨hidle, op, rest, hq, he⟩ | ⟨hbusy, hf⟩ := step_effect hstep
  · exact hp
  · rw [actingPlayer_of_hostOp hidle hq] at hother
    exact (he.playerOf_other (hi.dequeue hidle rest) hother hp).trans hp
  · rw [actingPlayer_of_busy hbusy] at hother
    exact (hf.playerOf_other hother).trans hp

end Sys2Proof.Machine
end

section
/-! A module that is malformed: exactly when (40_decoder.md R71, R78), and what the operation that is handed it does
(60_exceptions.md R201). -/
namespace Sys2Proof.Machine

/-! ### The two causes -/

section
variable {bytes : List Byte}

theorem decodeModule_of_short (hshort : bytes.length < 0x258) :
    decodeModule (Memory.ofBytes bytes) = .ok (.error .shortHeader) :=
  if_pos hshort

/-- Where every read answers, the module is refused exactly if its used patterns reach past the buffer's end
(40_decoder.md R78). -/
theorem decodeWith_of_reads {m : Memory} {l : Layout} {title seq : List Byte} {headers : List RawHeader}
    {lenByte : Byte} (htitle : memReadBytes m 0 20 = .ok title)
    (hheaders : readHeaders m 0x14 l.ninst = .ok headers) (hlenByte : memRead m l.seqLenOff = .ok lenByte)
    (hseq : memReadBytes m l.seqOff 128 = .ok seq) :
    decodeWith m l = .ok (if m.len < sampleStartOf l seq (clampSeqLen lenByte) then .error .patternsBeyondBuffer
      else .ok (buildView m.len l title seq (clampSeqLen lenByte) (sampleStartOf l seq (clampSeqLen lenByte))
        headers)) := by
  rw [decodeWith, htitle, hheaders, hlenByte, hseq]
  rfl

/-- A module that is not short is decoded by its tag's layout, and every read answers (40_decoder.md R71, R72). -/
theorem decodeModule_of_long (hlong : 0x258 ≤ bytes.length) :
    ∃ lenByte seq v, memRead (Memory.ofBytes bytes) (layoutOf bytes).seqLenOff = .ok lenByte ∧
      memReadBytes (Memory.ofBytes bytes) (layoutOf bytes).seqOff 128 = .ok seq ∧
      decodeModule (Memory.ofBytes bytes) =
        .ok (if bytes.length < sampleStartOf (layoutOf bytes) seq (clampSeqLen lenByte) then
          .error .patternsBeyondBuffer else .ok v) := by
  obtain ⟨l, hl, hfits⟩ := selectLayout_answers (m := Memory.ofBytes bytes) hlong
  obtain rfl := selectLayout_ofBytes hl
  have hdecode : decodeModule (Memory.ofBytes bytes) = decodeWith (Memory.ofBytes bytes) (layoutOf bytes) := by
    rw [decodeModule, hl]
    exact if_neg (Nat.not_lt.mpr hlong)
  have htitle := memReadBytes_inside (m := Memory.ofBytes bytes) (a := 0) (n := 20) hfits.title
  obtain ⟨headers, hheaders⟩ := readHeaders_inside hfits.headers
  have hlenByte := memRead_inside hfits.seqLen
  have hseq := memReadBytes_inside hfits.seq
  exact ⟨_, _, _, hlenByte, hseq, hdecode.trans (decodeWith_of_reads htitle hheaders hlenByte hseq)⟩

/-- A choice between a refusal and a view is a refusal exactly where the choice falls on it, with its tag. -/
theorem ok_ite_eq_malformed {c : Prop} [Decidable c] {tag tag' : Malformed} {v : View} :
    (Except.ok (if c then .error tag else .ok v) : Except Fault (Except Malformed View)) = .ok (.error tag') ↔
      c ∧ tag = tag' := by
  split <;> simp [*]

/-- The sample start lies past the buffer's end exactly where some used pattern ends there. -/
theorem lt_sampleStart_iff {seq : List Byte} {off n : Nat}
    (hseq : memReadBytes (Memory.ofBytes bytes) off 128 = .ok seq) (l : Layout) (hn : 1 ≤ n ∧ n ≤ 128) (len : Nat) :
    len < sampleStartOf l seq n ↔ ∃ j, j < n ∧ len < l.patternBase + 1024 * (byteAt bytes (off + j) + 1) := by
  obtain ⟨hlow, hhigh⟩ := hn
  constructor
  · intro hpast
    obtain ⟨j, hj, hmax⟩ := exists_usedPattern_end_eq_sampleStart hseq l hlow
    exact ⟨j, hj, hmax ▸ hpast⟩
  · rintro ⟨j, hj, hpast⟩
    exact hpast.trans_le (usedPattern_end_le_sampleStart hseq l hhigh hj)

end

/-- Settles O44: a short module fails at once, and a long one where the largest used pattern does not fit. -/
theorem malformedModuleHasExactlyTwoCauses : Obligations.MalformedModuleHasExactlyTwoCauses := by
  intro bytes
  by_cases hshort : bytes.length < 0x258
  · simp [decodeModule_of_short hshort, hshort, Nat.not_le.mpr hshort]
  · have hlong := Nat.not_lt.mp hshort
    obtain ⟨lenByte, seq, v, hlenByte, hseq, hdecode⟩ := decodeModule_of_long hlong
    have hseqLen : clampSeqLen lenByte = min (max (byteAt bytes ((layoutOf bytes).seqOff - 2)) 1) 128 := by
      rw [clampSeqLen, toNat_memRead_ofBytes hlenByte, layoutOf_seqLenOff]
    have hpast := lt_sampleStart_iff hseq (layoutOf bytes) (clampSeqLen_range lenByte) bytes.length
    rw [hdecode, ok_ite_eq_malformed, ok_ite_eq_malformed, hpast, hseqLen, layoutOf_seqOff, layoutOf_patternBase]
    refine ⟨by simp [hshort], ?_⟩
    exact (and_iff_left rfl).trans (and_iff_right hlong).symm

/-! ### The operation that fails -/

theorem runInitialize_of_malformed {bytes : List Byte} {tag : Malformed}
    (hv : decodeModule (Memory.ofBytes bytes) = .ok (.error tag)) (s : State) :
    runInitialize bytes s = .ok (s.answer (.malformed tag)) := by
  rw [runInitialize, hv]
  rfl

/-- Settles O43: the error is answered, and the operation is no longer asked for. -/
theorem failedInitializeChangesNothing : Obligations.FailedInitializeChangesNothing := by
  intro s bytes tag rest hidle hq hv
  rw [step_hostOp hidle hq, beginOp, runInitialize_of_malformed hv]
  rfl

end Sys2Proof.Machine
end

section
/-! No rule reads the diagnostic stream back (60_exceptions.md R202): every part of a step does the same after earlier
events. -/
namespace Sys2Proof.Machine

/-- The state with events reported before the ones it holds. -/
def State.afterReports (ds : List Diag) (s : State) : State := { s with diags := ds ++ s.diags }

section
variable (ds : List Diag) (job : RenderJob) (s : State)

/-! ### A row word -/

/-- A new event joins the end of the stream, whatever was reported before. -/
theorem emitDiag_afterReports (kind : DiagKind) (command : BitVec 4) (val : BitVec 8) :
    (s.afterReports ds).emitDiag kind command val = (s.emitDiag kind command val).afterReports ds := by
  simp [State.emitDiag, State.afterReports]

theorem arpeggioEffect_afterReports (val : BitVec 8) :
    arpeggioEffect val (s.afterReports ds) = (arpeggioEffect val s).afterReports ds := by
  rw [arpeggioEffect, unsupported, emitDiag_afterReports, arpeggioEffect, apply_ite (State.afterReports ds)]
  rfl

theorem patternBreakEffect_afterReports (val : BitVec 8) :
    patternBreakEffect val (s.afterReports ds) = (patternBreakEffect val s).afterReports ds := by
  rw [patternBreakEffect, emitDiag_afterReports, patternBreakEffect, apply_ite (State.afterReports ds)]
  rfl

theorem setSpeedTempoEffect_afterReports (val : BitVec 8) :
    setSpeedTempoEffect val (s.afterReports ds) = (setSpeedTempoEffect val s).afterReports ds := by
  simp only [setSpeedTempoEffect, emitDiag_afterReports, apply_ite (State.afterReports ds)]
  rfl

theorem exec_afterReports (i : Instr) :
    exec i (s.afterReports ds) = mapNext (State.afterReports ds) (exec i s) := by
  cases i
  case portaUp | portaDown | volumeSlide | positionJump | setVolume => rfl
  case arpeggio p k val => exact congrArg Host.Outcome.next (arpeggioEffect_afterReports ds (noteStage p k s) val)
  case patternBreak p k val =>
    exact congrArg Host.Outcome.next (patternBreakEffect_afterReports ds (noteStage p k s) val)
  case setSpeedTempo p k val =>
    exact congrArg Host.Outcome.next (setSpeedTempoEffect_afterReports ds (noteStage p k s) val)
  all_goals exact congrArg Host.Outcome.next (emitDiag_afterReports ds (noteStage _ _ s) _ _ _)

theorem endRow_afterReports : endRow job (s.afterReports ds) = (endRow job s).afterReports ds := by
  have hresolve : resolveRow (s.afterReports ds) = (resolveRow s).afterReports ds := by
    rw [resolveRow_eq, resolveRow_eq]
    rfl
  have hend : ∀ t : State, songEndCheck (t.afterReports ds) = (songEndCheck t).afterReports ds := fun t => by
    rw [songEndCheck, songEndCheck, apply_ite (State.afterReports ds)]
    rfl
  rw [endRow, hresolve, hend]
  rfl

theorem nextRowWord_afterReports : nextRowWord job (s.afterReports ds) = (nextRowWord job s).afterReports ds := by
  rw [nextRowWord, endRow_afterReports, nextRowWord, apply_ite (State.afterReports ds)]
  rfl

theorem rowStep_afterReports : rowStep job (s.afterReports ds) = mapNext (State.afterReports ds) (rowStep job s) := by
  have hfetch : fetchRowWord (s.afterReports ds).player.buf (fetchAddress (s.afterReports ds)) =
    fetchRowWord s.player.buf (fetchAddress s) := rfl
  rw [rowStep, rowStep, hfetch]
  cases fetchRowWord s.player.buf (fetchAddress s) with
  | error f => rfl
  | ok w =>
    simp only [exec_afterReports]
    cases exec (decodeWord w) s with
    | next t => exact congrArg _ (nextRowWord_afterReports ds job t)
    | fault f => rfl
    | refused r => rfl

/-! ### A frame step -/

theorem renderFrame_afterReports (mode : MixMode) :
    renderFrame mode (s.afterReports ds) = (renderFrame mode s).map (State.afterReports ds) := by
  have hsynth : synthAll (s.afterReports ds).params (s.afterReports ds).player.buf (s.afterReports ds).player.view
    (s.afterReports ds).player.ch = synthAll s.params s.player.buf s.player.view s.player.ch := rfl
  rw [renderFrame, renderFrame, hsynth]
  cases synthAll s.params s.player.buf s.player.view s.player.ch <;> rfl

theorem beginRow_afterReports : beginRow job (s.afterReports ds) = (beginRow job s).map (State.afterReports ds) := by
  have haddress : rowAddress (s.afterReports ds).player = rowAddress s.player := rfl
  rw [beginRow, beginRow, haddress]
  cases rowAddress s.player <;> rfl

theorem advanceTick_afterReports :
    advanceTick job (s.afterReports ds) = (advanceTick job s).map (State.afterReports ds) := by
  rw [advanceTick, advanceTick, beginRow_afterReports, apply_ite (Except.map (State.afterReports ds))]
  rfl

theorem tickTimer_afterReports : tickTimer job (s.afterReports ds) = (tickTimer job s).map (State.afterReports ds) := by
  rw [tickTimer, tickTimer, apply_ite (Except.map (State.afterReports ds)), ← advanceTick_afterReports]
  rfl

theorem frameStep_afterReports : frameStep job (s.afterReports ds) = (frameStep job s).map (State.afterReports ds) := by
  rw [frameStep, renderFrame_afterReports, frameStep, apply_ite (Except.map (State.afterReports ds))]
  refine congrArg (ite _ _) ?_
  cases renderFrame job.mode s with
  | error f => rfl
  | ok t => exact tickTimer_afterReports ds job t

theorem renderStep_afterReports :
    renderStep job (s.afterReports ds) = (renderStep job s).map (State.afterReports ds) := by
  obtain ⟨_ | n, mode⟩ := job
  · rfl
  · exact frameStep_afterReports ds ⟨n, mode⟩ { s with phase := .frame ⟨n, mode⟩ }

/-! ### The begin of a host operation -/

theorem select_afterReports (h : Nat) :
    State.select (s.afterReports ds) h = (s.select h).map (State.afterReports ds) := by
  have hparked : (s.afterReports ds).parked = s.parked := rfl
  rw [State.select, State.select, hparked, apply_ite (Option.map (State.afterReports ds))]
  cases findPlayer h s.parked <;> rfl

theorem onPlayer_afterReports {f : State → Host.Outcome State Fault Refusal}
    (hf : ∀ t : State, f (t.afterReports ds) = mapNext (State.afterReports ds) (f t)) (h : Nat) :
    onPlayer h (s.afterReports ds) f = mapNext (State.afterReports ds) (onPlayer h s f) := by
  rw [onPlayer, onPlayer, select_afterReports]
  cases s.select h with
  | none => rfl
  | some t => exact hf t

theorem runInitialize_afterReports (bytes : List Byte) :
    runInitialize bytes (s.afterReports ds) = (runInitialize bytes s).map (State.afterReports ds) := by
  rw [runInitialize, runInitialize]
  cases decodeModule (Memory.ofBytes bytes) with
  | error f => rfl
  | ok r => cases r <;> rfl

theorem setSequencePosition_afterReports (position : Nat) :
    setSequencePosition position (s.afterReports ds) = (setSequencePosition position s).afterReports ds := by
  rw [setSequencePosition_eq, setSequencePosition_eq]
  rfl

theorem beginOp_afterReports (op : HostOp) :
    beginOp op (s.afterReports ds) = mapNext (State.afterReports ds) (beginOp op s) := by
  cases op with
  | initializePlayer bytes =>
    simp only [beginOp, runInitialize_afterReports]
    cases runInitialize bytes s <;> rfl
  | setOption o value => cases o <;> rfl
  | getSequenceLength h => exact onPlayer_afterReports ds s (fun _ => rfl) h
  | setSequencePosition h position =>
    exact onPlayer_afterReports ds s (fun t => congrArg _ (setSequencePosition_afterReports ds t position)) h
  | render h frames mode room =>
    refine onPlayer_afterReports ds s (fun t => ?_) h
    rw [apply_ite (mapNext (State.afterReports ds))]
    rfl
  | discard h => exact onPlayer_afterReports ds s (fun _ => rfl) h
  | disturbBuffer h => exact onPlayer_afterReports ds s (fun _ => rfl) h

theorem hostStep_afterReports : hostStep (s.afterReports ds) = mapNext (State.afterReports ds) (hostStep s) := by
  have hqueue : (s.afterReports ds).queue = s.queue := rfl
  rw [hostStep, hostStep, hqueue]
  cases s.queue with
  | nil => rfl
  | cons op rest => exact beginOp_afterReports ds { s with queue := rest } op

end

/-- Settles O59, by the phase of the state. -/
theorem diagnosticsAreNeverReadBack : Obligations.DiagnosticsAreNeverReadBack := by
  intro s ds
  show step (s.afterReports ds) = mapNext (State.afterReports ds) (step s)
  have hphase : (s.afterReports ds).phase = s.phase := rfl
  rw [step, step, hphase]
  cases s.phase with
  | idle => exact hostStep_afterReports ds s
  | frame job =>
    simp only [renderStep_afterReports]
    cases renderStep job s <;> rfl
  | row job => exact rowStep_afterReports ds job s

end Sys2Proof.Machine
end

section
/-! Power-up (70_reset_and_hazards.md R221) and the first frame of a fresh player (R224). -/
namespace Sys2Proof.Machine

/-! ### Power-up -/

theorem playerOf_of_no_players {s : State} (hhandle : s.handle = none) (hparked : s.parked = []) (h : Nat) :
    s.playerOf h = none := by
  rw [State.playerOf, hhandle, if_neg nofun, hparked, findPlayer]

/-- Settles O50: the values of the power-up state, which has neither a current nor a parked player. -/
theorem powerUpHasOptionsOnAndNoPlayer : Obligations.PowerUpHasOptionsOnAndNoPlayer :=
  ⟨rfl, rfl, playerOf_of_no_players rfl rfl, rfl, rfl⟩

/-! ### The first frame -/

theorem synthAll_reset (P : Params) (m : Memory) (v : View) :
    synthAll P m v Channels.reset = .ok (⟨0, 0, 0, 0⟩, Channels.reset) :=
  have hstill : synth P m v Channel.reset = .ok (0, Channel.reset) := synth_of_inactive P m v rfl
  synthAll_eq_ok.mpr ⟨hstill, hstill, hstill, hstill⟩

/-- Silent lanes mix to zeros in every mode, since an output lies between the least and the greatest lane. -/
theorem mix_zero (P : Params) (mode : MixMode) : mix P mode ⟨0, 0, 0, 0⟩ = List.replicate (frameWidth mode) 0 := by
  have hzero : ∀ y ∈ mixValues P mode ⟨0, 0, 0, 0⟩, y = 0 := fun y hy =>
    have hrange := mixValues_range P mode (lo := 0) (hi := 0) (by decide) (by decide) (by decide) (by decide) y hy
    le_antisymm hrange.2 hrange.1
  rw [mix, List.eq_replicate_of_mem hzero, mixValues_length, List.map_replicate]
  rfl

/-- Settles O26: silent channels make a frame of zeros, and with both counters at 1 the frame's tick comes at once and
starts a row event. -/
theorem firstFrameIsSilentAndStartsRowZero : Obligations.FirstFrameIsSilentAndStartsRowZero := by
  intro s m v n mode pat hfresh hp hpat
  have hsound : silenced s = false := by rw [silenced, hfresh]; rfl
  have htick : s.player.samplesUntilTick = 1 := by rw [hfresh]; rfl
  have hsynth : synthAll s.params s.player.buf s.player.view s.player.ch = .ok (⟨0, 0, 0, 0⟩, Channels.reset) := by
    rw [hfresh]
    exact synthAll_reset s.params m v
  have hframe := tickComesAfterOutputAndReload s n mode _ _ hp hsound htick hsynth
  rw [mix_zero, hfresh] at hframe
  have hrow := hframe.trans (rowEventLocatesItsRowOnce _ _ pat (Nat.le_refl 1) hpat)
  exact ⟨_, step_of_renderStep hp hrow, rfl, rfl, rfl, rfl, rfl, rfl, rfl⟩

end Sys2Proof.Machine
end
